-- ==== Sys2Proof/Word.lean ====
section
/-! DEFINITION. The widths of the engine's values (00_scope R5, R7: every value is an unsigned bit vector). -/

namespace Sys2Proof

/-- `OPW_W`, the width of the operation word (R5, decision D1). -/
abbrev opwW : Nat := 32

/-- `ADDR_W`, the width of the device address (R5). -/
abbrev addrW : Nat := 7

/-- `COLS_W`, the width of a column count and of the operand `COL` (R5, decision D13). -/
abbrev colsW : Nat := 8

/-- `ROWS_W`, the width of a row count and of the operand `ROW` (R5, decision D13). -/
abbrev rowsW : Nat := 8

/-- `TEXT_AW`, the width of a text pointer (R5, decision D9). -/
abbrev textAw : Nat := 16

/-- `CAUSE_W`, the width of a bus error's cause code (R5, decision D3). -/
abbrev causeW : Nat := 8

/-- A byte: an operand `VAL`, an expander byte, a character (R7). -/
abbrev Byte := BitVec 8

/-- A nibble (R7). -/
abbrev Nibble := BitVec 4

/-- An operation word (R84). -/
abbrev OpWord := BitVec opwW

/-- A bus device address (R22). -/
abbrev DevAddr := BitVec addrW

/-- A column count or a column (R22, R88). -/
abbrev ColCount := BitVec colsW

/-- A row count or a row (R22, R88). -/
abbrev RowCount := BitVec rowsW

/-- A text pointer (R64). -/
abbrev TextAddr := BitVec textAw

/-- A cause code (R29). -/
abbrev Cause := BitVec causeW

/-- The number of bytes of the text space (R34, R64). -/
def textSize : Nat := 2 ^ textAw

/-- A byte-addressed memory as a list of cells: strictly rising addresses, no cell equal to what an unlisted
address reads as (`Machine.Memory.wf`). -/
abbrev Memory := List Host.Cell

end Sys2Proof
end

