-- ==== Sys2Proof/Config.lean ====
section
/-! DEFINITION. What is fixed for one implementation: the shape of the parameter record of 00_scope R5 (its values stand
in Machine/Params.lean), and the values the spec leaves free. -/

namespace Sys2Proof

/-- The constants of the engine (R5, R6), as one record that a claim can name. The types of Word.lean have the widths of the
record. -/
structure Params where
  dataMask : Byte
  blBit : Byte
  enBit : Byte
  rwBit : Byte
  rsBit : Byte
  tEnHoldUs : Nat
  tSettleUs : Nat
  tClearUs : Nat
  tPowerOnUs : Nat
  tInit1Us : Nat
  tInit2Us : Nat
  tInit3Us : Nat
  t4BitUs : Nat
  tBusTimeoutUs : Nat
  rowBase : List Byte
  nRowBase : Nat
  lcdClear : Byte
  lcdSetDdram : Byte
  nibFs8 : Byte
  nibFs4 : Byte
  lcdFuncSet : Byte
  lcdDispOff : Byte
  lcdEntry : Byte
  lcdDispOn : Byte
  opwW : Nat
  addrW : Nat
  colsW : Nat
  rowsW : Nat
  textAw : Nat
  textNull : TextAddr
  textTerm : Byte
  causeW : Nat
  busCfgW : Nat
  clearWaitOnError : Bool
  fClk : Nat
  deriving DecidableEq, Repr

/-- What the transport answers to a bus write or a bus configuration (20_memory R50, R52, R58): delivered, or not
confirmed, with a cause code. The port's own 50 ms bound expiring is the answer `err 0x03` (R29, R52). -/
inductive BusAnswer where
  | ok
  | err (cause : Cause)
  deriving DecidableEq, Repr, Inhabited

/-- FREE VALUE. The transport's answer to bus event number `n` where the host's list of answers names none: any write
may fail, with any cause (R52, U14). Log 2. -/
opaque Config.freeAnswer : Nat → BusAnswer

/-- FREE VALUE. Whether the failed bus write number `n` reached the expander all the same (R35, R53, U3). Log 3. -/
opaque Config.failedWriteReached : Nat → Bool

/-- OPEN. `BUSCFG_W`, the width of the opaque bus configuration bundle (R5, decision D17). Log 10, log 14. -/
opaque Config.busCfgW : Nat

/-- OPEN. `F_CLK`, the clock frequency of an implementation; no rule depends on it (R5, R244, decision D15). Log 10. -/
opaque Config.fClk : Nat

/-- FREE VALUE. The expander's pins at power-on, unknown to the engine (R35, U17). Log 4. -/
opaque Config.powerOnPins : Byte

end Sys2Proof
end

