-- ==== Sys2Proof/Machine/Params.lean ====
section
/-! DEFINITION. The values of the parameters (00_scope R5), the defaults the spec prints. -/

namespace Sys2Proof.Machine

/-- The parameters of R5. `lcdFuncSet`, `lcdDispOff`, `lcdEntry` and `lcdDispOn` are the spec's general knowledge (G1); the
masks are its reading of the layout (D4); `busCfgW` and `fClk` are OPEN there and constants without a value here. Log 10. -/
def params : Params where
  dataMask := 0xF0
  blBit := 0x08
  enBit := 0x04
  rwBit := 0x02
  rsBit := 0x01
  tEnHoldUs := 1
  tSettleUs := 50
  tClearUs := 2000
  tPowerOnUs := 50000
  tInit1Us := 5000
  tInit2Us := 1000
  tInit3Us := 1000
  t4BitUs := 1000
  tBusTimeoutUs := 50000
  rowBase := [0x00, 0x40, 0x14, 0x54]
  nRowBase := 4
  lcdClear := 0x01
  lcdSetDdram := 0x80
  nibFs8 := 0x30
  nibFs4 := 0x20
  lcdFuncSet := 0x28
  lcdDispOff := 0x08
  lcdEntry := 0x06
  lcdDispOn := 0x0C
  opwW := Sys2Proof.opwW
  addrW := Sys2Proof.addrW
  colsW := Sys2Proof.colsW
  rowsW := Sys2Proof.rowsW
  textAw := Sys2Proof.textAw
  textNull := 0x0000
  textTerm := 0x00
  causeW := Sys2Proof.causeW
  busCfgW := Config.busCfgW
  clearWaitOnError := false
  fClk := Config.fClk

/-- What an unlisted address of the text space reads as: the spec gives the text space no initial contents (log 7, DESIGN
CHOICE, unsafe). -/
def unlistedByte : Byte := 0x00

end Sys2Proof.Machine
end

