-- ==== Sys2Proof/Syntax.lean ====
section
/-! DEFINITION. The operations of LCDPE-1, one constructor per row of the opcode map (30_encoding R91). CMD, DATA and the
named controller commands are spellings of WRBYTE (R97, R98). -/

namespace Sys2Proof

/-- An operation with its operands, fields as in R85 to R90. INIT's bus bundle is not in the word: it arrives on the side
input OP_BUSCFG (R90, `Machine.State.opBusCfg`). -/
inductive Instr where
  /-- `WRNIB VAL, RS` (R86, R120). -/
  | wrnib (val : Byte) (rs : Bool)
  /-- `WRBYTE VAL, RS` (R86, R122). -/
  | wrbyte (val : Byte) (rs : Bool)
  /-- `SETBL ON` (R87, R110). -/
  | setbl (on : Bool)
  /-- `CLEAR` (R85, R142). -/
  | clear
  /-- `INITHW` (R85, R144). -/
  | inithw
  /-- `INIT cols, rows, addr, bl` (R90, R160). -/
  | init (cols : ColCount) (rows : RowCount) (addr : DevAddr) (blon : Bool)
  /-- `SETCUR COL, ROW` (R88, R163). -/
  | setcur (col : ColCount) (row : RowCount)
  /-- `PRINT TPTR` (R89, R166). -/
  | print (tptr : TextAddr)
  /-- `DISPTEXT TPTR` (R89, R169). -/
  | disptext (tptr : TextAddr)
  deriving DecidableEq, Repr

/-- The pseudo-operation `CMD v` (R97): `WRBYTE v, 0`. -/
def Instr.cmd (v : Byte) : Instr := .wrbyte v false

/-- The pseudo-operation `DATA v` (R97): `WRBYTE v, 1`. -/
def Instr.data (v : Byte) : Instr := .wrbyte v true

end Sys2Proof
end

