-- ==== Sys2Proof/Machine/State.lean ====
section
/-! DEFINITION. Everything the spec gives the machine (10_state, 20_memory R74, 00_scope R9), as plain data, and its reset
values (R39). -/

namespace Sys2Proof.Machine

/-- The opaque bus configuration bundle CFG.BUS, `BUSCFG_W` bits (R22): the bus identifier, the two pin identifiers and the bus
clock frequency, in a layout the spec leaves open and the engine never looks into (log 14). -/
abbrev BusBundle := BitVec Config.busCfgW

/-- The configuration register CFG (R22). -/
structure DisplayConfig where
  addr : DevAddr
  cols : ColCount
  rows : RowCount
  blon : Bool
  bus : BusBundle
  deriving DecidableEq, Repr

/-- RESULT.KIND (R29). -/
inductive Kind where
  | ok
  | busError
  | invalidArgument
  | illegalOp
  deriving DecidableEq, Repr

/-- The result register (R28): kind and cause. -/
structure Result where
  kind : Kind
  cause : Cause
  deriving DecidableEq, Repr

/-- The pulse phase SEQ.PH (R31, 41_protocol R124). -/
inductive Phase where
  | idle
  | wrHi
  | hold
  | wrLo
  | settle
  deriving DecidableEq, Repr

/-- One action of an operation's body: at most one event each. The four actions of a pulse are the rows of R124's table. -/
inductive Act where
  /-- INIT step 1: all of CFG, the bundle from OP_BUSCFG (R160). -/
  | storeConfig (cols : ColCount) (rows : RowCount) (addr : DevAddr) (blon : Bool)
  /-- SETBL step 1, INIT step 2: BLC from a flag (R110, R160). -/
  | seedBacklight (on : Bool)
  /-- INIT step 3: configure the bus if it is not configured yet (R160). -/
  | configureBus
  /-- SETBL step 2, INIT step 4: one bus write of BLC (R110, R160). -/
  | writeBacklight
  /-- A delay of at least so many microseconds (20_memory R60). -/
  | delay (us : Nat)
  /-- WRNIB step 1, leaving P_IDLE: compose EB, set NSEL (R120, R124). -/
  | startPulse (nibble : Byte) (rs : Bool) (nsel : Bool)
  /-- WRNIB step 2, P_WR_HI. -/
  | enHigh
  /-- WRNIB step 3, P_HOLD. -/
  | hold
  /-- WRNIB step 4, P_WR_LO. -/
  | enLow
  /-- WRNIB step 5, P_SETTLE. -/
  | settle
  /-- PRINT step 1: the null test (R166). -/
  | testNull (p : TextAddr)
  /-- PRINT step 2: TP. -/
  | setPointer (p : TextAddr)
  /-- PRINT step 3a: CH from the text space as the host has it by then. -/
  | readText
  /-- PRINT step 3d: TP + 1. -/
  | nextChar
  deriving DecidableEq, Repr

/-- One action with its place: the step of the operation's body it belongs to (MSTEP; log 13), and whether it is part of the
command write inside CLEAR (what the parameter CLEAR_WAIT_ON_ERROR speaks of, R143). -/
structure Line where
  mstep : Nat
  inClear : Bool
  act : Act
  deriving DecidableEq, Repr

/-- The sequencer position SEQ (R31): its three fields, and the actions of the body not yet performed, which R31 offers as
an equal representation. -/
structure Seq where
  mstep : Nat
  nsel : Bool
  ph : Phase
  todo : List Line
  deriving DecidableEq, Repr

/-- SEQ at idle (R31). -/
def Seq.idle : Seq := { mstep := 0, nsel := false, ph := .idle, todo := [] }

/-- An event of the trace (00_scope R9). -/
inductive Event where
  /-- `CFG(b)`: a bus configuration and its answer (20_memory R58). -/
  | cfg (bus : BusBundle) (ans : BusAnswer)
  /-- `W(a, v)`: a bus write and its answer (20_memory R50). -/
  | w (addr : DevAddr) (v : Byte) (ans : BusAnswer)
  /-- `D(n)`: a delay of at least `us` microseconds (20_memory R60). -/
  | d (us : Nat)
  /-- `T(a)`: a text read and the byte returned (20_memory R64). -/
  | t (addr : TextAddr) (byte : Byte)
  deriving DecidableEq, Repr

/-- What the outside world does next at the engine's ports and around them. -/
inductive HostAct where
  /-- OP_VALID with OP_WORD and OP_BUSCFG (30_encoding R94). -/
  | issue (word : OpWord) (bus : BusBundle)
  /-- RST sampled high (70_reset R220). -/
  | rst
  /-- The host changes a byte of its text space (20_memory R64, 70_reset R233): at once between operations; under an operation that
  reads text, after `reads` more of its text reads (R74; log 23). -/
  | setText (reads : Nat) (addr : TextAddr) (byte : Byte)
  /-- Another master writes the expander (70_reset R238). -/
  | otherMaster (v : Byte)
  deriving DecidableEq, Repr

/-- The machine's state. -/
@[ext]
structure State where
  /-- CFG (R22). -/
  cfg : DisplayConfig
  /-- BUS_INSTALLED (R24). -/
  busInstalled : Bool
  /-- BLC (R25); read through `State.readBlc`, which keeps the hard-wired bits 0. -/
  blc : Byte
  /-- BUSY (R27); OP_READY is its negation (30_encoding R94). -/
  busy : Bool
  /-- RESULT (R28). -/
  result : Result
  /-- RES_VALID, the strobe: the last step ended an operation (30_encoding R94). -/
  resValid : Bool
  /-- OPR (R30). -/
  opr : OpWord
  /-- EB (R30). -/
  eb : Byte
  /-- TP (R30). -/
  tp : TextAddr
  /-- CH (R30). -/
  ch : Byte
  /-- SEQ (R31). -/
  seq : Seq
  /-- OP_BUSCFG as sampled with the last INIT accepted (30_encoding R90; log 19: zero at reset, kept by RST). -/
  opBusCfg : BusBundle
  /-- What the host does next, first act first; with an `issue` at its head, OP_VALID is 1 (30_encoding R94, R96). -/
  host : List HostAct
  /-- The answers the transport will give, first one first (20_memory R52, R58). -/
  answers : List BusAnswer
  /-- The text space (20_memory R64). -/
  text : Memory
  /-- XP, the expander's output latch (R35). -/
  xp : Byte
  /-- The latched-nibble stream, oldest first (R36). -/
  latched : List (Bool × Nibble)
  /-- The event trace, oldest first (00_scope R9). -/
  trace : List Event
  /-- The MODEL'S own: how many bus events there have been, which numbers the free values (log 3). -/
  draws : Nat
  deriving DecidableEq, Repr

/-- Why the machine stops with a fault. -/
inductive Fault where
  /-- Raised by `step` while an operation runs (BUSY = 1) and another master writes the expander: the bus is owned by the
  engine for the duration of the call (20_memory R54, 70_reset R238), and the spec gives no order. Safe. -/
  | busContended
  deriving DecidableEq, Repr

/-- Why a step has no meaning. -/
inductive Refusal where
  /-- Raised by `exec` alone, for an instruction that has no meaning yet. Safe. -/
  | notModelled (mnemonic : String)
  /-- Raised by SETCUR and DISPTEXT with CFG.ROWS = 0, or with CFG.ROWS > 4 and a row above 3 (U4). Safe. -/
  | rowsIllegal
  /-- Raised by PRINT and DISPTEXT on a non-null text that has no terminator where they read it (20_memory R66, U5), and by the
  step of such an operation in progress. Safe. -/
  | textUnterminated
  /-- Raised by `step` when RST comes while an operation runs (70_reset R222, U8). Safe. -/
  | resetWhileBusy
  deriving DecidableEq, Repr

/-- The bundle before anything was handed over: every bit 0 (log 1, DESIGN CHOICE). -/
def BusBundle.zero : BusBundle := 0

/-- CFG at reset: the spec leaves it unspecified (R39 S0 to S4); zero here (log 1, DESIGN CHOICE, unsafe). -/
def DisplayConfig.zero : DisplayConfig := { addr := 0, cols := 0, rows := 0, blon := false, bus := .zero }

/-- The machine right after reset (R39, R220). The pins are a free value (U17, log 4). -/
def State.reset : State :=
  { cfg := .zero
    busInstalled := false
    blc := 0
    busy := false
    result := { kind := .ok, cause := 0 }
    resValid := false
    opr := 0
    eb := 0
    tp := 0
    ch := 0
    seq := .idle
    opBusCfg := .zero
    host := []
    answers := []
    text := []
    xp := Config.powerOnPins
    latched := []
    trace := []
    draws := 0 }

end Sys2Proof.Machine
end

