-- ==== Sys2Proof/Machine/Flags.lean ====
section
/-! DEFINITION. The one-bit values of the machine and their codes. There are no condition codes (10_state R33): what the
spec has of flags is the backlight bit, the bits of the expander byte and the codes of a result. -/

namespace Sys2Proof.Machine

/-- BLC for a backlight flag: `BL_BIT` or 0 (R110 step 1, R160 step 2). -/
def backlightByte (on : Bool) : Byte := if on then params.blBit else 0

/-- BLC as every reader sees it: its bits other than `BL_BIT` are hard-wired 0 (10_state R25). -/
def State.readBlc (s : State) : Byte := s.blc &&& params.blBit

/-- The register-select bit of an expander byte (30_encoding R82). -/
def rsByte (rs : Bool) : Byte := if rs then params.rsBit else 0

/-- The EN pin of an expander byte (30_encoding R80). -/
def enPin (v : Byte) : Bool := v &&& params.enBit != 0

/-- The RS pin of an expander byte. -/
def rsPin (v : Byte) : Bool := v &&& params.rsBit != 0

/-- The four data pins of an expander byte. -/
def dataPins (v : Byte) : Nibble := v.extractLsb' 4 4

/-- A falling edge of EN between two values of the pins (10_state R36). -/
def enFalls (old new : Byte) : Bool := enPin old && !enPin new

/-- RESULT.KIND's code (10_state R29). -/
def kindCode : Kind → BitVec 2
  | .ok => 0
  | .busError => 1
  | .invalidArgument => 2
  | .illegalOp => 3

/-- CAUSE codes the spec names (10_state R29). -/
def causeNone : Cause := 0x00
def causeAddrNack : Cause := 0x01
def causeArbLost : Cause := 0x02
def causeTimeout : Cause := 0x03
def causeNotReady : Cause := 0x04

/-- The result `OK`. -/
def resOk : Result := { kind := .ok, cause := causeNone }
/-- The result `BUS_ERROR(cause)` (60_exceptions R191). -/
def resBusError (cause : Cause) : Result := { kind := .busError, cause := cause }
/-- The result `INVALID_ARGUMENT` (60_exceptions R192). -/
def resInvalidArgument : Result := { kind := .invalidArgument, cause := causeNone }
/-- The result `ILLEGAL_OP` (60_exceptions R193). -/
def resIllegalOp : Result := { kind := .illegalOp, cause := causeNone }

end Sys2Proof.Machine
end

