-- ==== Sys2Proof/Machine/Operands.lean ====
section
/-! DEFINITION. The values operations compute from their operands: the expander byte, the nibbles of a byte, the cursor
address, the string at a text pointer (30_encoding R82, R83; 43_text_api R163; 20_memory R65). -/

namespace Sys2Proof.Machine

/-- The one function that builds an expander byte, EN and RW 0 (30_encoding R82). -/
def compose (blc n : Byte) (rs : Bool) : Byte := (n &&& params.dataMask) ||| blc ||| rsByte rs

/-- The high nibble, in the upper position (30_encoding R83). -/
def hiNibble (v : Byte) : Byte := v &&& params.dataMask

/-- The low nibble, shifted into the upper position (30_encoding R83). -/
def loNibble (v : Byte) : Byte := (v <<< 4) &&& params.dataMask

/-- SETCUR step 1: the row clamps to the last row; no value where ROWS is 0 (43_text_api R163, R165 (e)). -/
def clampRow (rows row : RowCount) : Option RowCount :=
  if row.toNat ≥ rows.toNat then (if rows = 0 then none else some (rows - 1)) else some row

/-- SETCUR step 2: the column clamps to 0 (43_text_api R163). -/
def clampCol (cols col : ColCount) : ColCount := if col.toNat ≥ cols.toNat then 0 else col

/-- SETCUR step 3: the DDRAM address, an 8-bit sum; no value where the row base table has no entry (43_text_api R163, R165). -/
def cursorAddr (cfg : DisplayConfig) (col : ColCount) (row : RowCount) : Option Byte :=
  match clampRow cfg.rows row with
  | none => none
  | some r =>
    match params.rowBase[r.toNat]? with
    | none => none
    | some base => some (clampCol cfg.cols col + base)

/-- One byte of a memory: the first cell that lists the address, `unlistedByte` if none does (log 7). -/
def Memory.read : Memory → Nat → Byte
  | [], _ => unlistedByte
  | (k, b) :: rest, a => if k = a then b else Memory.read rest a

/-- Writing one byte keeps the canonical form: writing what an unlisted address reads as removes the cell. -/
def Memory.write : Memory → Nat → Byte → Memory
  | [], a, b => if b = unlistedByte then [] else [(a, b)]
  | (k, v) :: rest, a, b =>
    if a < k then (if b = unlistedByte then (k, v) :: rest else (a, b) :: (k, v) :: rest)
    else if a = k then (if b = unlistedByte then rest else (a, b) :: rest)
    else (k, v) :: Memory.write rest a b

/-- The cells from address `lo` on are in canonical form. -/
def Memory.wfFrom : Nat → Memory → Bool
  | _, [] => true
  | lo, (k, b) :: rest =>
    decide (lo ≤ k) && decide (k < textSize) && decide (b ≠ unlistedByte) && Memory.wfFrom (k + 1) rest

/-- The canonical form: strictly rising addresses inside the text space, no cell equal to what it would read as unlisted. -/
def Memory.wf (m : Memory) : Bool := Memory.wfFrom 0 m

/-- The text space as one text read finds it, and the host's acts then left: the changes at the head of the list that are due have
landed, in order, and the first that is not due waits for one read less (20_memory R74; log 23). -/
def landChanges (m : Memory) : List HostAct → Memory × List HostAct
  | [] => (m, [])
  | .setText 0 a b :: rest => landChanges (Memory.write m a.toNat b) rest
  | .setText (k + 1) a b :: rest => (m, .setText k a b :: rest)
  | .issue w bus :: rest => (m, .issue w bus :: rest)
  | .rst :: rest => (m, .rst :: rest)
  | .otherMaster v :: rest => (m, .otherMaster v :: rest)

/-- The characters that reads from address `a` on return, up to the first terminator among the next `n` addresses, over a text
space `m` that the host's acts `h` change on the way (20_memory R65, R74). -/
def stringFrom (m : Memory) (h : List HostAct) : Nat → Nat → Option (List Byte)
  | 0, _ => none
  | n + 1, a =>
    let r := landChanges m h
    if Memory.read r.1 a = params.textTerm then some []
    else (stringFrom r.1 r.2 n (a + 1)).map (Memory.read r.1 a :: ·)

/-- The string that an operation reads at a text pointer, where it is defined: a terminator is read between the pointer and the
top of the text space (20_memory R65, R66). -/
def stringAt (m : Memory) (h : List HostAct) (p : TextAddr) : Option (List Byte) :=
  stringFrom m h (textSize - p.toNat) p.toNat

end Sys2Proof.Machine
end

