-- ==== Sys2Proof/Machine/Ops.lean ====
section
/-! DEFINITION. The shared operations: bus write, bus configuration, delay, text read (20_memory), the sequencer that runs a
body line by line, the end of an operation and its abort (60_exceptions R196), and the not-ready gate (R194). -/

namespace Sys2Proof.Machine

/-- The three outcomes of this machine. -/
abbrev Out := Host.Outcome State Fault Refusal

/-- Append one event to the trace (00_scope R9). -/
def State.emit (s : State) (e : Event) : State := { s with trace := s.trace ++ [e] }

/-- The pins take a byte, all eight bits at once; a falling edge of EN makes the controller sample RS and the data lines
as presented (10_state R35, R36). -/
def State.drivePins (s : State) (v : Byte) : State :=
  { s with
    xp := v
    latched := if enFalls s.xp v then s.latched ++ [(rsPin v, dataPins v)] else s.latched }

/-- The pins after a bus write that may have reached them or not (10_state R35): driven where `reached`, else as they were. -/
def State.drivePinsIf (s : State) (reached : Bool) (v : Byte) : State :=
  { s with
    xp := if reached then v else s.xp
    latched := if reached && enFalls s.xp v then s.latched ++ [(rsPin v, dataPins v)] else s.latched }

/-- The answer the transport gives next: the host's list, a free value where it is empty (20_memory R52; log 2). -/
def State.nextAnswer (s : State) : BusAnswer := s.answers.headD (Config.freeAnswer s.draws)

/-- Past one bus event: its answer is used up. -/
def State.useAnswer (s : State) : State := { s with answers := s.answers.tail, draws := s.draws + 1 }

/-- SEQ.PH takes a phase (41_protocol R124). -/
def State.setPhase (s : State) (p : Phase) : State := { s with seq := { s.seq with ph := p } }

/-- MSTEP with these actions to do: the step of the first of them; `last` where there is none (10_state R31; log 13). -/
def mstepOf (last : Nat) : List Line → Nat
  | [] => last
  | l :: _ => l.mstep

/-- The sequencer takes up a line: it is no longer to do, and MSTEP goes on to the step of what follows (10_state R31). -/
def State.atLine (s : State) (l : Line) : State :=
  { s with seq := { s.seq with mstep := mstepOf l.mstep s.seq.todo.tail, todo := s.seq.todo.tail } }

/-- The actions of a body, to do (10_state R31). -/
def State.load (s : State) (ls : List Line) : State :=
  { s with seq := { s.seq with mstep := mstepOf s.seq.mstep ls, todo := ls } }

/-- CFG takes a value (43_text_api R160 step 1). -/
def State.setCfg (s : State) (c : DisplayConfig) : State := { s with cfg := c }

/-- BLC takes a backlight flag (R110 step 1, R160 step 2). -/
def State.setBacklight (s : State) (on : Bool) : State := { s with blc := backlightByte on }

/-- BUS_INSTALLED becomes 1 (R160 step 3b). -/
def State.setInstalled (s : State) : State := { s with busInstalled := true }

/-- TP takes a value (R166 steps 2 and 3d). -/
def State.setTp (s : State) (p : TextAddr) : State := { s with tp := p }

/-- CH takes a value (R166 step 3a). -/
def State.setCh (s : State) (b : Byte) : State := { s with ch := b }

/-- Leaving P_IDLE: EB is composed from the nibble, BLC and RS, NSEL says which nibble it is (41_protocol R120 step 1,
R124). -/
def State.beginPulse (s : State) (n : Byte) (rs nsel : Bool) : State :=
  { s with eb := compose s.readBlc n rs, seq := { s.seq with nsel := nsel, ph := .wrHi } }

/-- How one action ends: the body goes on, or `try` met an error (00_scope R8). -/
inductive ActEnd where
  | ok (s : State)
  | err (r : Result) (s : State)
  deriving Repr

/-- `BusWrite(v)`: one complete write transaction to CFG.ADDR (20_memory R50 to R53). Delivered, it sets the pins; answered
with an error it may have reached the expander or not (10_state R35), a free value. -/
def busWrite (v : Byte) (s : State) : ActEnd :=
  let s1 := s.useAnswer.emit (.w s.cfg.addr v s.nextAnswer)
  match s.nextAnswer with
  | .ok => .ok (s1.drivePins v)
  | .err c => .err (resBusError c) (s1.drivePinsIf (Config.failedWriteReached s.draws) v)

/-- `BusConfigure(CFG.BUS)`, and BUS_INSTALLED where it succeeds (20_memory R58, 43_text_api R160 steps 3a, 3b). -/
def busConfigure (s : State) : ActEnd :=
  let s1 := s.useAnswer.emit (.cfg s.cfg.bus s.nextAnswer)
  match s.nextAnswer with
  | .ok => .ok s1.setInstalled
  | .err c => .err (resBusError c) s1

/-- The host's text changes that are due land (20_memory R74; log 23). -/
def State.landText (s : State) : State :=
  { s with text := (landChanges s.text s.host).1, host := (landChanges s.text s.host).2 }

/-- `TextRead(a)` into CH (20_memory R64, 43_text_api R166 step 3a). -/
def State.readAt (s : State) (a : TextAddr) : State :=
  (s.setCh (Memory.read s.text a.toNat)).emit (.t a (Memory.read s.text a.toNat))

/-- `TextRead(TP)` into CH, from the text space as the host has it by then. -/
def textRead (s : State) : State := s.landText.readAt s.tp

/-- Continue with a state change where an action went well. -/
def ActEnd.thenDo (e : ActEnd) (f : State → State) : ActEnd :=
  match e with
  | .ok s => .ok (f s)
  | .err r s => .err r s

/-- One action of a body. The pulse's four actions are the four busy phases of 41_protocol R124. -/
def perform : Act → State → ActEnd
  | .storeConfig cols rows addr blon, s =>
    .ok (s.setCfg { addr := addr, cols := cols, rows := rows, blon := blon, bus := s.opBusCfg })
  | .seedBacklight on, s => .ok (s.setBacklight on)
  | .configureBus, s => if s.busInstalled then .ok s else busConfigure s
  | .writeBacklight, s => busWrite s.readBlc s
  | .delay us, s => .ok (s.emit (.d us))
  | .startPulse n rs nsel, s => .ok (s.beginPulse n rs nsel)
  | .enHigh, s => (busWrite (s.eb ||| params.enBit) s).thenDo (State.setPhase · .hold)
  | .hold, s => .ok ((s.emit (.d params.tEnHoldUs)).setPhase .wrLo)
  | .enLow, s => (busWrite s.eb s).thenDo (State.setPhase · .settle)
  | .settle, s => .ok ((s.emit (.d params.tSettleUs)).setPhase .idle)
  | .testNull p, s => if p = params.textNull then .err resInvalidArgument s else .ok s
  | .setPointer p, s => .ok (s.setTp p)
  | .readText, s => .ok (textRead s)
  | .nextChar, s => .ok (s.setTp (s.tp + 1))

/-- One line of a body, with CLEAR's wait after a failed command where the parameter asks for it (42_command R143, U18;
log 12). -/
def performLine (l : Line) (s : State) : ActEnd :=
  match perform l.act (s.atLine l) with
  | .ok s' => .ok s'
  | .err r s' => .err r (if l.inClear && params.clearWaitOnError then s'.emit (.d params.tClearUs) else s')

/-- The lines of a body, in order, up to the first error (60_exceptions R196). -/
def runLines : List Line → State → ActEnd
  | [], s => .ok s
  | l :: rest, s =>
    match performLine l s with
    | .ok s' => runLines rest s'
    | .err r s' => .err r s'

/-- THE END OF AN OPERATION, normal or by abort, the one place RESULT is written: SEQ returns to idle, RESULT takes the
result, RES_VALID is raised, BUSY is cleared (10_state R28, 60_exceptions R196). Nothing is rolled back (R197). That the working registers
OPR, EB, TP and CH keep their last values is the model's choice (10_state R30; log 24, DESIGN CHOICE). -/
def conclude (r : Result) (s : State) : State :=
  { s with result := r, resValid := true, busy := false, seq := .idle }

/-- The end of a body's run: `OK`, or the error met. -/
def concludeRun : ActEnd → State
  | .ok s => conclude resOk s
  | .err r s => conclude r s

/-- A body, from its first line to the operation's end. -/
def operate (body : List Line) (s : State) : State := concludeRun (runLines body (s.load body))

/-- The rest of an operation in progress, from the sequencer's position to its end (10_state R31). -/
def resume (s : State) : State := concludeRun (runLines s.seq.todo s)

/-- ONE action of the sequencer at work: the next line, or the operation's end where there is none (10_state R31,
41_protocol R124). `resume` is this, over and over. -/
def tick (s : State) : State :=
  match s.seq.todo with
  | [] => conclude resOk s
  | l :: _ =>
    match performLine l s with
    | .ok s' => s'
    | .err r s' => conclude r s'

/-- An operation behind the not-ready gate (60_exceptions R194, R201): with the bus not configured it ends at once; else its
body runs, or is refused where the spec gives the body no value. -/
def gated (body : State → Except Refusal (List Line)) (s : State) : Out :=
  if s.busInstalled then
    match body s with
    | .ok ls => .next (operate ls s)
    | .error r => .refused r
  else .next (conclude (resBusError causeNotReady) s)

end Sys2Proof.Machine
end

