-- ==== Sys2Proof/Machine/Bodies.lean ====
section
/-! DEFINITION. The bodies of the operations, as lists of lines that follow the pseudocode of each rule, and the `call` that
runs a body inside another (60_exceptions R204). The parts shared by several operations stand here. -/

namespace Sys2Proof.Machine

/-- One line of a body. -/
def line (step : Nat) (a : Act) : Line := { mstep := step, inClear := false, act := a }

/-- `call BODY` at a step: the callee's lines in place, all at the caller's step (60_exceptions R204; log 13). -/
def callAt (step : Nat) (body : List Line) : List Line := body.map (fun l => { l with mstep := step })

/-- Mark the lines of CLEAR's command write (42_command R143). -/
def markClear (body : List Line) : List Line := body.map (fun l => { l with inClear := true })

/-- WRNIB (41_protocol R120); `nsel` says which nibble of a byte it is (10_state R31), 0 for a WRNIB of its own. -/
def wrnibBody (val : Byte) (rs nsel : Bool) : List Line :=
  [line 1 (.startPulse val rs nsel), line 2 .enHigh, line 3 .hold, line 4 .enLow, line 5 .settle]

/-- WRBYTE (41_protocol R122): the high nibble, then the low. -/
def wrbyteBody (val : Byte) (rs : Bool) : List Line :=
  callAt 1 (wrnibBody (hiNibble val) rs false) ++ callAt 2 (wrnibBody (loNibble val) rs true)

/-- CMD (42_command R140). -/
def cmdBody (v : Byte) : List Line := callAt 1 (wrbyteBody v false)

/-- DATA (42_command R141). -/
def dataBody (v : Byte) : List Line := callAt 1 (wrbyteBody v true)

/-- SETBL (40_register R110). -/
def setblBody (on : Bool) : List Line := [line 1 (.seedBacklight on), line 2 .writeBacklight]

/-- CLEAR (42_command R142). -/
def clearBody : List Line := markClear (callAt 1 (cmdBody params.lcdClear)) ++ [line 2 (.delay params.tClearUs)]

/-- INITHW, the bring-up sequence (42_command R144). -/
def inithwBody : List Line :=
  [line 1 (.delay params.tPowerOnUs)]
  ++ callAt 2 (wrnibBody params.nibFs8 false false) ++ [line 3 (.delay params.tInit1Us)]
  ++ callAt 4 (wrnibBody params.nibFs8 false false) ++ [line 5 (.delay params.tInit2Us)]
  ++ callAt 6 (wrnibBody params.nibFs8 false false) ++ [line 7 (.delay params.tInit3Us)]
  ++ callAt 8 (wrnibBody params.nibFs4 false false) ++ [line 9 (.delay params.t4BitUs)]
  ++ callAt 10 (cmdBody params.lcdFuncSet)
  ++ callAt 11 (cmdBody params.lcdDispOff)
  ++ callAt 12 clearBody
  ++ callAt 13 (cmdBody params.lcdEntry)
  ++ callAt 14 (cmdBody params.lcdDispOn)

/-- INIT (43_text_api R160). Its lettered lines 3a and 3b are one action, at MSTEP 3 (log 13, DESIGN CHOICE). -/
def initBody (cols : ColCount) (rows : RowCount) (addr : DevAddr) (blon : Bool) : List Line :=
  [line 1 (.storeConfig cols rows addr blon), line 2 (.seedBacklight blon), line 3 .configureBus, line 4 .writeBacklight]
  ++ callAt 5 inithwBody

/-- SETCUR (43_text_api R163); refused where steps 1 and 3 have no value (R165 (e), U4). CFG does not change while it runs
(10_state R22). Steps 1 to 3, worked out here, are no actions, so MSTEP is 4 throughout (log 13, DESIGN CHOICE). -/
def setcurBody (cfg : DisplayConfig) (col : ColCount) (row : RowCount) : Except Refusal (List Line) :=
  match cursorAddr cfg col row with
  | none => .error .rowsIllegal
  | some a => .ok (callAt 4 (cmdBody (params.lcdSetDdram ||| a)))

/-- PRINT's loop (43_text_api R166 step 3) over the characters still to send, the bytes its reads return (log 15); the last read
finds the terminator. The spec gives the lettered lines 3a to 3d no MSTEP of their own: all have 3 (log 13, DESIGN CHOICE). -/
def printLoop : List Byte → List Line
  | [] => [line 3 .readText]
  | c :: cs => line 3 .readText :: callAt 3 (dataBody c) ++ line 3 .nextChar :: printLoop cs

/-- Where the text pointer stands after an action, from where it stood (43_text_api R166 steps 2 and 3d). -/
def Act.pointer (p : TextAddr) : Act → TextAddr
  | .setPointer q => q
  | .nextChar => p + 1
  | .storeConfig _ _ _ _ => p
  | .seedBacklight _ => p
  | .configureBus => p
  | .writeBacklight => p
  | .delay _ => p
  | .startPulse _ _ _ => p
  | .enHigh => p
  | .hold => p
  | .enLow => p
  | .settle => p
  | .testNull _ => p
  | .readText => p

/-- The rest of a body whose text the host changes: as it stands up to its next text read, made at the pointer `p` moved on by the
actions before it; from there PRINT's loop over the string that is read there, or no meaning where none is (20_memory R65, R66,
R74; log 15). -/
def replan (text : Memory) (host : List HostAct) : TextAddr → List Line → Except Refusal (List Line)
  | _, [] => .ok []
  | p, l :: rest =>
    if l.act = .readText then
      match stringAt text host p with
      | none => .error .textUnterminated
      | some cs => .ok (printLoop cs)
    else
      match replan text host (l.act.pointer p) rest with
      | .error r => .error r
      | .ok ls => .ok (l :: ls)

/-- PRINT (43_text_api R166) over the string it reads; refused on a non-null text with no terminator (20_memory R66, U5; log 8). -/
def printBody (text : Memory) (host : List HostAct) (p : TextAddr) : Except Refusal (List Line) :=
  if p = params.textNull then .ok [line 1 (.testNull p)]
  else match stringAt text host p with
    | none => .error .textUnterminated
    | some cs => .ok (line 1 (.testNull p) :: line 2 (.setPointer p) :: printLoop cs)

/-- DISPTEXT (43_text_api R169): CLEAR, SETCUR(0, 0), PRINT; refused where SETCUR or PRINT is (R170 (c), U4, U5; log 9). -/
def disptextBody (cfg : DisplayConfig) (text : Memory) (host : List HostAct) (p : TextAddr) : Except Refusal (List Line) :=
  match setcurBody cfg 0 0 with
  | .error r => .error r
  | .ok home =>
    match printBody text host p with
    | .error r => .error r
    | .ok pr => .ok (callAt 1 clearBody ++ callAt 2 home ++ callAt 3 pr)

end Sys2Proof.Machine
end

