-- ==== Sys2Proof/Machine/Command.lean ====
section
/-! DEFINITION. The controller command layer (42_command_layer): CLEAR, INITHW. -/

namespace Sys2Proof.Machine

/-- CLEAR (R142, R143). -/
def execClear (s : State) : Host.Outcome State Fault Refusal :=
  gated (fun _ => .ok clearBody) s

/-- INITHW (R144 to R149). -/
def execInithw (s : State) : Host.Outcome State Fault Refusal :=
  gated (fun _ => .ok inithwBody) s

end Sys2Proof.Machine
end

