-- ==== Sys2Proof/Machine/Protocol.lean ====
section
/-! DEFINITION. The nibble/pulse protocol engine (41_protocol_engine): WRNIB, WRBYTE. -/

namespace Sys2Proof.Machine

/-- WRNIB (R120, R121, R126). -/
def execWrnib (val : Byte) (rs : Bool) (s : State) : Host.Outcome State Fault Refusal :=
  gated (fun _ => .ok (wrnibBody val rs false)) s

/-- WRBYTE (R122, R123), and with it CMD and DATA (42_command R140, R141). -/
def execWrbyte (val : Byte) (rs : Bool) (s : State) : Host.Outcome State Fault Refusal :=
  gated (fun _ => .ok (wrbyteBody val rs)) s

end Sys2Proof.Machine
end

