-- ==== Sys2Proof/Machine/RegisterModel.lean ====
section
/-! DEFINITION. The register model's operation (40_register_model): SETBL. -/

namespace Sys2Proof.Machine

/-- SETBL (R110, R111): BLC, then one bus write of it. -/
def execSetbl (on : Bool) (s : State) : Host.Outcome State Fault Refusal :=
  gated (fun _ => .ok (setblBody on)) s

end Sys2Proof.Machine
end

