-- ==== Sys2Proof/Machine/TextApi.lean ====
section
/-! DEFINITION. The public text API (43_text_api): INIT, SETCUR, PRINT, DISPTEXT. -/

namespace Sys2Proof.Machine

/-- INIT (R160, R161): the one operation the not-ready gate lets through. -/
def execInit (cols : ColCount) (rows : RowCount) (addr : DevAddr) (blon : Bool) (s : State) : Host.Outcome State Fault Refusal :=
  .next (operate (initBody cols rows addr blon) s)

/-- SETCUR (R163 to R165). -/
def execSetcur (col : ColCount) (row : RowCount) (s : State) : Host.Outcome State Fault Refusal :=
  gated (fun s => setcurBody s.cfg col row) s

/-- PRINT (R166 to R168). -/
def execPrint (tptr : TextAddr) (s : State) : Host.Outcome State Fault Refusal :=
  gated (fun s => printBody s.text s.host tptr) s

/-- DISPTEXT (R169, R170). -/
def execDisptext (tptr : TextAddr) (s : State) : Host.Outcome State Fault Refusal :=
  gated (fun s => disptextBody s.cfg s.text s.host tptr) s

end Sys2Proof.Machine
end

