-- ==== Sys2Proof/Machine/Dispatch.lean ====
section
/-! DEFINITION. One arm per operation (30_encoding R91). -/

namespace Sys2Proof.Machine

def exec (i : Instr) (s : State) : Host.Outcome State Fault Refusal :=
  match i with
  | .wrnib val rs => Sys2Proof.Machine.execWrnib val rs s
  | .wrbyte val rs => Sys2Proof.Machine.execWrbyte val rs s
  | .setbl on => Sys2Proof.Machine.execSetbl on s
  | .clear => Sys2Proof.Machine.execClear s
  | .inithw => Sys2Proof.Machine.execInithw s
  | .init cols rows addr blon => Sys2Proof.Machine.execInit cols rows addr blon s
  | .setcur col row => Sys2Proof.Machine.execSetcur col row s
  | .print tptr => Sys2Proof.Machine.execPrint tptr s
  | .disptext tptr => Sys2Proof.Machine.execDisptext tptr s

end Sys2Proof.Machine
end

