-- ==== Sys2Proof/WellFormed.lean ====
section
/-! DEFINITION. Which operations are well formed, and which meet the host's duties. -/

namespace Sys2Proof

/-- Every operand value of every operation is legal (30_encoding R93); the operands' widths are their types. -/
def Instr.wellFormed : Instr → Bool
  | .wrnib _ _ => true
  | .wrbyte _ _ => true
  | .setbl _ => true
  | .clear => true
  | .inithw => true
  | .init _ _ _ _ => true
  | .setcur _ _ => true
  | .print _ => true
  | .disptext _ => true

/-- A legal configuration has `1 <= ROWS <= 4`, the number of row bases; COLS and ADDR may be anything (10_state R23). -/
def legalRows (rows : RowCount) : Bool :=
  decide (1 ≤ rows.toNat) && decide (rows.toNat ≤ Machine.params.nRowBase)

/-- The host's duty (R14 (c), R232) that an operation's own operands show: INIT with a legal configuration. The engine
does not check it (R23, R161 (d)). -/
def Instr.meetsDuty : Instr → Bool
  | .init _ rows _ _ => legalRows rows
  | .wrnib _ _ => true
  | .wrbyte _ _ => true
  | .setbl _ => true
  | .clear => true
  | .inithw => true
  | .setcur _ _ => true
  | .print _ => true
  | .disptext _ => true

end Sys2Proof
end

