-- ==== Sys2Proof/Decode.lean ====
section
/-! DEFINITION. The operation word (30_encoding R84 to R92, R95): the opcode map, the decoder, total on 32-bit words, and
the encoder. -/

namespace Sys2Proof

/-- The nine rows of the opcode map, by name (R91). -/
inductive Op where
  | wrnib | wrbyte | setbl | clear | inithw | init | setcur | print | disptext
  deriving DecidableEq, Repr

/-- One row of the opcode map: a word `w` selects it when `w &&& mask = pattern` (R91). -/
structure Row where
  op : Op
  mnemonic : String
  pattern : OpWord
  mask : OpWord
  deriving DecidableEq, Repr

/-- The opcode map (R91). -/
def opcodeTable : List Row := [
  ⟨.wrnib, "WRNIB", 0x10000000, 0xFFFFFE00⟩,
  ⟨.wrbyte, "WRBYTE", 0x20000000, 0xFFFFFE00⟩,
  ⟨.setbl, "SETBL", 0x30000000, 0xFFFFFFFE⟩,
  ⟨.clear, "CLEAR", 0x40000000, 0xFFFFFFFF⟩,
  ⟨.inithw, "INITHW", 0x50000000, 0xFFFFFFFF⟩,
  ⟨.init, "INIT", 0x60000000, 0xFF000000⟩,
  ⟨.setcur, "SETCUR", 0x70000000, 0xFFFF0000⟩,
  ⟨.print, "PRINT", 0x80000000, 0xFFFF0000⟩,
  ⟨.disptext, "DISPTEXT", 0x90000000, 0xFFFF0000⟩]

/-- Whether a word selects a row (R91). -/
def Row.selects (r : Row) (w : OpWord) : Bool := w &&& r.mask == r.pattern

/-- The row a word selects (R95 step 1). -/
def selectRow (w : OpWord) : Option Row := opcodeTable.find? (fun r => r.selects w)

/-- The opcode `OPC`, bits 31:28 (R84). -/
def opcodeOf (w : OpWord) : Nibble := w.extractLsb' 28 4

/-- The fields of a word by its row's format (R85 to R90, R95 step 2). -/
def fieldsOf (w : OpWord) : Op → Instr
  | .wrnib => .wrnib (w.extractLsb' 0 8) (w.getLsbD 8)
  | .wrbyte => .wrbyte (w.extractLsb' 0 8) (w.getLsbD 8)
  | .setbl => .setbl (w.getLsbD 0)
  | .clear => .clear
  | .inithw => .inithw
  | .init => .init (w.extractLsb' 0 8) (w.extractLsb' 8 8) (w.extractLsb' 16 7) (w.getLsbD 23)
  | .setcur => .setcur (w.extractLsb' 0 8) (w.extractLsb' 8 8)
  | .print => .print (w.extractLsb' 0 16)
  | .disptext => .disptext (w.extractLsb' 0 16)

/-- Why a word is illegal (R92). -/
inductive Reject where
  /-- The opcode is 0x0 or 0xA to 0xF. -/
  | reservedOpcode (opc : Nibble)
  /-- A reserved bit of the opcode's format is 1. -/
  | reservedBits (opc : Nibble)
  deriving DecidableEq, Repr

/-- What the decoder answers: an operation, or a rejection by name. -/
inductive Decoded where
  | instr (i : Instr)
  | reject (r : Reject)
  deriving DecidableEq, Repr

/-- The reason to give for a word that selects no row (R92). -/
def rejectReason (w : OpWord) : Reject :=
  let opc := opcodeOf w
  if opc = 0 ∨ 10 ≤ opc.toNat then .reservedOpcode opc else .reservedBits opc

/-- The decoder (R95 steps 1 and 2). -/
def decode (w : OpWord) : Decoded :=
  match selectRow w with
  | some r => .instr (fieldsOf w r.op)
  | none => .reject (rejectReason w)

/-- One bit as a 32-bit word. -/
def bitWord (b : Bool) : OpWord := if b then 1 else 0

/-- The encoder: the word of an operation, as the rule of each operation gives it (R110, R120, R122, R142, R144, R160, R163,
R166, R169). -/
def encode : Instr → OpWord
  | .wrnib val rs => 0x10000000 ||| (bitWord rs <<< 8) ||| val.setWidth opwW
  | .wrbyte val rs => 0x20000000 ||| (bitWord rs <<< 8) ||| val.setWidth opwW
  | .setbl on => 0x30000000 ||| bitWord on
  | .clear => 0x40000000
  | .inithw => 0x50000000
  | .init cols rows addr blon =>
    0x60000000 ||| (bitWord blon <<< 23) ||| (addr.setWidth opwW <<< 16) ||| (rows.setWidth opwW <<< 8) ||| cols.setWidth opwW
  | .setcur col row => 0x70000000 ||| (row.setWidth opwW <<< 8) ||| col.setWidth opwW
  | .print tptr => 0x80000000 ||| tptr.setWidth opwW
  | .disptext tptr => 0x90000000 ||| tptr.setWidth opwW

/-- The row of an operation's own encoding (R91). -/
def rowOf : Instr → Op
  | .wrnib _ _ => .wrnib
  | .wrbyte _ _ => .wrbyte
  | .setbl _ => .setbl
  | .clear => .clear
  | .inithw => .inithw
  | .init _ _ _ _ => .init
  | .setcur _ _ => .setcur
  | .print _ => .print
  | .disptext _ => .disptext

/-- The operation word that the low `nbits` bits of `w` make, every higher bit 0. Operation words are not fetched from a
memory (20_memory R68, R74), so no byte order arises. -/
def tableWord (nbits w : Nat) : OpWord := BitVec.ofNat opwW (w % 2 ^ nbits)

/-- The operation the decoder reads from a word numbered as the opcode table numbers it. -/
def decodeTableWord (nbits w : Nat) : Option Instr :=
  match decode (tableWord nbits w) with
  | .instr i => some i
  | .reject _ => none

end Sys2Proof
end

