-- ==== Sys2Proof/Machine/Port.lean ====
section
/-! DEFINITION. The operation port and the world around the engine: acceptance (30_encoding R94), reset (70_reset R220), the
host's text space, another bus master, and what a step is of an idle and of a busy engine. -/

namespace Sys2Proof.Machine

/-- The operation is an INIT: the one the gate lets through, the one that writes CFG and BUS_INSTALLED. -/
def isInit : Instr → Bool
  | .init _ _ _ _ => true
  | .wrnib _ _ => false
  | .wrbyte _ _ => false
  | .setbl _ => false
  | .clear => false
  | .inithw => false
  | .setcur _ _ => false
  | .print _ => false
  | .disptext _ => false

/-- OP_BUSCFG as the acceptance of a word leaves it: sampled together with INIT's word, ignored for every other operation (30_encoding
R90), an illegal word being none. -/
def sampleBusCfg (w : OpWord) (bus : BusBundle) (s : State) : BusBundle :=
  match decode w with
  | .instr i => if isInit i then bus else s.opBusCfg
  | .reject _ => s.opBusCfg

/-- Acceptance of a word (30_encoding R94): BUSY is set, the word is latched, an illegal one too (log 21, DEDUCED), and with INIT's
the side input (R90); the host goes on to its next act. -/
def accept (w : OpWord) (bus : BusBundle) (rest : List HostAct) (s : State) : State :=
  { s with busy := true, resValid := false, opr := w, opBusCfg := sampleBusCfg w bus s, host := rest }

/-- RST from idle: the engine's registers take their reset values (10_state R39, 70_reset R220); nothing outside the engine
changes and no event is emitted (R221). THE MODEL'S CHOICE: the sampled OP_BUSCFG, which R39 and R220 do not list, keeps its
value (log 19, DESIGN CHOICE); CFG, left unspecified, becomes zero (log 1, DESIGN CHOICE). -/
def applyReset (s : State) : State :=
  { s with
    cfg := State.reset.cfg
    busInstalled := State.reset.busInstalled
    blc := State.reset.blc
    busy := State.reset.busy
    result := State.reset.result
    resValid := State.reset.resValid
    opr := State.reset.opr
    eb := State.reset.eb
    tp := State.reset.tp
    ch := State.reset.ch
    seq := State.reset.seq }

/-- A step in which no operation ends: RES_VALID is low, the host goes on. -/
def quiet (rest : List HostAct) (s : State) : State := { s with resValid := false, host := rest }

/-- The host writes one byte of its text space. -/
def pokeText (a : TextAddr) (b : Byte) (s : State) : State := { s with text := Memory.write s.text a.toNat b }

/-- The rest of an operation whose text the host changes, to its end: over the bytes its reads return (20_memory R74). -/
def resumeOverChanges (s : State) : Out :=
  match replan s.text s.host s.tp s.seq.todo with
  | .ok ls => .next (resume (s.load ls))
  | .error r => .refused r

/-- A step of an engine with an operation in progress: the operation runs to its end. A word waits on the port (10_state R27,
70_reset R230); changes of the text space land before the text reads they are due at, the others wait (R233, 20_memory R74); RST
and another master are stops (R222, R238). -/
def busyStep (s : State) : Out :=
  match s.host with
  | [] => .next (resume s)
  | .issue _ _ :: _ => .next (resume s)
  | .rst :: _ => .refused .resetWhileBusy
  | .setText _ _ _ :: _ => resumeOverChanges s
  | .otherMaster _ :: _ => .fault .busContended

/-- An illegal word, accepted: no event, no state change but BUSY and RESULT (30_encoding R92, 60_exceptions R193). -/
def illegalWord (s : State) : State := conclude resIllegalOp s

/-- A step of an idle engine: the host's next act, a word accepted being decoded (30_encoding R95; 60_exceptions R201) and run
by `run`. With no word presented nothing happens. -/
def idleStep (run : Instr → State → Out) (s : State) : Out :=
  match s.host with
  | [] => .next (quiet [] s)
  | .issue w bus :: rest =>
    match decode w with
    | .instr i => run i (accept w bus rest s)
    | .reject _ => .next (illegalWord (accept w bus rest s))
  | .rst :: rest => .next (applyReset (quiet rest s))
  | .setText _ a b :: rest => .next (pokeText a b (quiet rest s))
  | .otherMaster v :: rest => .next ((quiet rest s).drivePins v)

/-- The host presents a word to an idle engine; OP_BUSCFG keeps its value. -/
def presentWord (s : State) (w : OpWord) : State :=
  { s with host := .issue w s.opBusCfg :: s.host, busy := false, seq := .idle }

end Sys2Proof.Machine
end

