-- ==== Sys2Proof/Machine/Step.lean ====
section
/-! DEFINITION. One step. -/

namespace Sys2Proof.Machine

/-- An idle engine takes the host's next act, an accepted word being run to its end; an engine with an operation in progress
runs it to its end. -/
def step (s : State) : Host.Outcome State Fault Refusal :=
  if s.busy then busyStep s else idleStep exec s

/-- The word of the opcode table, presented by the host to an idle engine: this is how a program comes to run (30_encoding R94,
R96; log 6). -/
def State.withFetchWord (s : State) (nbits w : Nat) : State := presentWord s (tableWord nbits w)

end Sys2Proof.Machine
end

