-- ==== Sys2Proof/Safety.lean ====
section
/-! DEFINITION. The words claims are stated in: events and what a run of events amounts to, the answers of the transport as
one function, the state after an operation, and the invariant of an idle engine. -/

namespace Sys2Proof.Machine

/-- The answer the transport gives to the bus event `k` events from now: the host's list, the free value beyond it. -/
def State.answerAt (s : State) (k : Nat) : BusAnswer :=
  match s.answers[k]? with
  | some a => a
  | none => Config.freeAnswer (s.draws + k)

/-- The next `n` bus events are all answered `ok`. -/
def State.answersOk (s : State) (n : Nat) : Prop := ∀ k, k < n → s.answerAt k = .ok

/-- A bus write. -/
def Event.isWrite : Event → Bool
  | .w _ _ _ => true
  | .cfg _ _ => false
  | .d _ => false
  | .t _ _ => false

/-- A delay. -/
def Event.isDelay : Event → Bool
  | .d _ => true
  | .w _ _ _ => false
  | .cfg _ _ => false
  | .t _ _ => false

/-- The microseconds an event asks for at least. -/
def Event.us : Event → Nat
  | .d n => n
  | .w _ _ _ => 0
  | .cfg _ _ => 0
  | .t _ _ => 0

/-- The cause an event was answered with, where its answer is an error. -/
def Event.failCause : Event → Option Byte
  | .w _ _ (.err c) => some c
  | .cfg _ (.err c) => some c
  | .w _ _ .ok => none
  | .cfg _ .ok => none
  | .d _ => none
  | .t _ _ => none

/-- The same event answered `ok`. -/
def Event.answeredOk : Event → Event
  | .w a v _ => .w a v .ok
  | .cfg b _ => .cfg b .ok
  | .d n => .d n
  | .t a b => .t a b

/-- The number of bus writes of a run of events. -/
def writeCount (es : List Event) : Nat := es.countP Event.isWrite

/-- The number of delays of a run of events. -/
def delayCount (es : List Event) : Nat := es.countP Event.isDelay

/-- The least time a run of events takes (70_reset R243): the sum of its delays. -/
def minDuration (es : List Event) : Nat := (es.map Event.us).sum

/-- The wire trace (00_scope R9): the bytes of the bus writes answered `ok`, in order. -/
def wireTrace (es : List Event) : List (DevAddr × Byte) :=
  es.filterMap (fun e => match e with
    | .w a v .ok => some (a, v)
    | .w _ _ (.err _) => none
    | .cfg _ _ => none
    | .d _ => none
    | .t _ _ => none)

/-- The state after an operation that ended with `r`, nothing else changed: RESULT, RES_VALID, BUSY, SEQ (60_exceptions R196). -/
def State.ended (s : State) (r : Result) : State :=
  { s with result := r, resValid := true, busy := false, seq := { mstep := 0, nsel := false, ph := .idle, todo := [] } }

/-- The state after `n` bus events more, with these events appended to the trace. -/
def State.after (s : State) (n : Nat) (es : List Event) : State :=
  { s with answers := s.answers.drop n, draws := s.draws + n, trace := s.trace ++ es }

/-- The state with the pins at `v` and these nibbles latched on top. -/
def State.pins (s : State) (v : Byte) (ns : List (Bool × Nibble)) : State :=
  { s with xp := v, latched := s.latched ++ ns }

/-- The events of one enable pulse that sends the expander byte `b` (41_protocol R120). -/
def pulseEvents (a : DevAddr) (b : Byte) : List Event := [.w a (b ||| 0x04) .ok, .d 1, .w a b .ok, .d 50]

/-- The expander byte of the high nibble of `v`, from the backlight byte `bl` (30_encoding R82, R83). -/
def highByte (bl v : Byte) (rs : Bool) : Byte := (v &&& 0xF0) ||| bl ||| (if rs then 0x01 else 0x00)

/-- The expander byte of the low nibble of `v` (30_encoding R82, R83). -/
def lowByte (bl v : Byte) (rs : Bool) : Byte := ((v <<< 4) &&& 0xF0) ||| bl ||| (if rs then 0x01 else 0x00)

/-- The events of one logical byte (41_protocol R122). -/
def byteEvents (a : DevAddr) (bl v : Byte) (rs : Bool) : List Event :=
  pulseEvents a (highByte bl v rs) ++ pulseEvents a (lowByte bl v rs)

/-- The events of CLEAR (42_command R142). -/
def clearEvents (a : DevAddr) (bl : Byte) : List Event := byteEvents a bl 0x01 false ++ [.d 2000]

/-- The events of INITHW (42_command R144, R146). -/
def bringUpEvents (a : DevAddr) (bl : Byte) : List Event :=
  [.d 50000]
  ++ pulseEvents a (highByte bl 0x30 false) ++ [.d 5000]
  ++ pulseEvents a (highByte bl 0x30 false) ++ [.d 1000]
  ++ pulseEvents a (highByte bl 0x30 false) ++ [.d 1000]
  ++ pulseEvents a (highByte bl 0x20 false) ++ [.d 1000]
  ++ byteEvents a bl 0x28 false
  ++ byteEvents a bl 0x08 false
  ++ clearEvents a bl
  ++ byteEvents a bl 0x06 false
  ++ byteEvents a bl 0x0C false

/-- The nibbles a logical byte makes the controller latch (10_state R36). -/
def byteNibbles (v : Byte) (rs : Bool) : List (Bool × Nibble) := [(rs, v.extractLsb' 4 4), (rs, v.extractLsb' 0 4)]

/-- The nibbles the bring-up makes the controller latch: `3 3 3 2 | 2 8 | 0 8 | 0 1 | 0 6 | 0 C` (95_test_vectors P1). -/
def bringUpNibbles : List (Bool × Nibble) :=
  [(false, 3), (false, 3), (false, 3), (false, 2)]
  ++ byteNibbles 0x28 false ++ byteNibbles 0x08 false ++ byteNibbles 0x01 false ++ byteNibbles 0x06 false
  ++ byteNibbles 0x0C false

/-- The events of PRINT on a string that starts at `p` (43_text_api R166). -/
def printEvents (a : DevAddr) (bl : Byte) : TextAddr → List Byte → List Event
  | p, [] => [.t p 0x00]
  | p, c :: cs => .t p c :: byteEvents a bl c true ++ printEvents a bl (p + 1) cs

/-- The last expander byte that sending the characters `cs` composes; `v`, the one before, where there is no character. -/
def lastByte (bl v : Byte) (cs : List Byte) : Byte :=
  match cs.getLast? with
  | some c => lowByte bl c true
  | none => v

/-- Where the string at `p` is `cs` (20_memory R65): its bytes, none of them 0x00, then a terminator, all inside the text
space. -/
def isString (m : Memory) (p : TextAddr) (cs : List Byte) : Prop :=
  p.toNat + cs.length < 65536 ∧ (∀ k c, cs[k]? = some c → Memory.read m (p.toNat + k) = c ∧ c ≠ 0x00) ∧
    Memory.read m (p.toNat + cs.length) = 0x00

/-- The text space and the host's acts left after `n` text reads (20_memory R74; log 23). -/
def landed : Nat → Memory → List HostAct → Memory × List HostAct
  | 0, m, h => (m, h)
  | n + 1, m, h => landed n (landChanges m h).1 (landChanges m h).2

/-- The byte that read number `k` of a string at `p` returns, counted from 0: the text space as the changes due by then leave it. -/
def byteRead (m : Memory) (h : List HostAct) (p : TextAddr) (k : Nat) : Byte :=
  Memory.read (landed (k + 1) m h).1 (p.toNat + k)

/-- Where the string that the reads from `p` on return is `cs`: bytes other than 0x00, then a terminator, all inside the text
space. With a text space that holds still it is the string that stands there. -/
def readsString (m : Memory) (h : List HostAct) (p : TextAddr) (cs : List Byte) : Prop :=
  p.toNat + cs.length < 65536 ∧ (∀ k c, cs[k]? = some c → byteRead m h p k = c ∧ c ≠ 0x00) ∧ byteRead m h p cs.length = 0x00

/-- No change of the text space comes next: the text holds still until the host's next act is taken (70_reset R233). -/
def textStill : List HostAct → Bool
  | [] => true
  | .issue _ _ :: _ => true
  | .rst :: _ => true
  | .setText _ _ _ :: _ => false
  | .otherMaster _ :: _ => true

/-- The rows SETCUR can address (43_text_api R163, R165 (e)): the clamped row exists and is at most 3. -/
def rowLegal (rows row : Byte) : Prop :=
  rows ≠ 0 ∧ (if row.toNat ≥ rows.toNat then rows.toNat - 1 else row.toNat) ≤ 3

/-- The spec gives the operation a behaviour in this state: all but SETCUR and DISPTEXT with an illegal row (U4), PRINT and
DISPTEXT on a text with no terminator (U5). -/
def specified : Instr → State → Prop
  | .wrnib _ _, _ => True
  | .wrbyte _ _, _ => True
  | .setbl _, _ => True
  | .clear, _ => True
  | .inithw, _ => True
  | .init _ _ _ _, _ => True
  | .setcur _ row, s => rowLegal s.cfg.rows row
  | .print p, s => p = 0 ∨ ∃ cs, readsString s.text s.host p cs
  | .disptext p, s => s.cfg.rows ≠ 0 ∧ (p = 0 ∨ ∃ cs, readsString s.text s.host p cs)

/-- The operation writes BLC: SETBL and INIT (10_state R33). -/
def writesBacklight : Instr → Bool
  | .setbl _ => true
  | .init _ _ _ _ => true
  | .wrnib _ _ => false
  | .wrbyte _ _ => false
  | .clear => false
  | .inithw => false
  | .setcur _ _ => false
  | .print _ => false
  | .disptext _ => false

/-- The operation reads text: PRINT and DISPTEXT (10_state R34). -/
def readsTextSpace : Instr → Bool
  | .print _ => true
  | .disptext _ => true
  | .wrnib _ _ => false
  | .wrbyte _ _ => false
  | .setbl _ => false
  | .clear => false
  | .inithw => false
  | .init _ _ _ _ => false
  | .setcur _ _ => false

/-- The nibble a bus write of an EN-low byte with RS and the data lines 0 makes the controller latch: one where EN was high on
the pins (10_state R36, 40_register R111 (c), (d)). -/
def lowEdge (xp : Byte) : List (Bool × Nibble) := if xp &&& 0x04 = 0 then [] else [(false, 0)]

/-- In a success an operation takes this many bus writes, delays and microseconds at least (70_reset R243). -/
def costs (i : Instr) (s : State) (writes delays us : Nat) : Prop :=
  ∀ t, exec i s = .next t → t.result.kind = .ok →
    ∃ es, t.trace = s.trace ++ es ∧ writeCount es = writes ∧ delayCount es = delays ∧ minDuration es = us

/-- `n` actions of the sequencer, one after another. -/
def ticks : Nat → State → State
  | 0, s => s
  | n + 1, s => ticks n (tick s)

/-- THE INVARIANT of an engine between operations: it is idle (00_scope R13, 10_state R31), BLC is a legal value (R25), a
result other than BUS_ERROR has cause 0 (R29), the text space is in canonical form, and no bus write ever set RW
(30_encoding R81). -/
def State.Inv (s : State) : Prop :=
  s.busy = false ∧ s.seq = { mstep := 0, nsel := false, ph := .idle, todo := [] } ∧ (s.blc = 0x00 ∨ s.blc = 0x08) ∧
    (s.result.kind ≠ .busError → s.result.cause = 0x00) ∧ Memory.wf s.text = true ∧
    (∀ a v ans, Event.w a v ans ∈ s.trace → v &&& 0x02 = 0x00)

end Sys2Proof.Machine
end

