-- ==== Sys2Proof/Certificates/Slice0/Obligations.lean ====
section
/-! DEFINITION. The statements about the model, for the provers. Each docstring names the rule of spec/ it formalises. -/

open Sys2Proof Sys2Proof.Machine

/-! ### Encoding -/

/-- Decoding an operation's word gives the operation back, with every operand at every value (30_encoding R84 to R91). -/
def Obligations.DecodeEncodeAgree : Prop :=
  ∀ i : Instr, decode (encode i) = .instr i

/-- A word the decoder accepts is the word of the operation it reads: no bit of a legal word is ignored (30_encoding R84, R91). -/
def Obligations.EncodeDecodeAgree : Prop :=
  ∀ (w : OpWord) (i : Instr), decode w = .instr i → encode i = w

/-- A word is illegal exactly when its opcode is 0x0 or 0xA to 0xF or a reserved bit of its format is 1 (30_encoding R92);
accepted, it causes no event and ends with ILLEGAL_OP (R92, 60_exceptions R193), and the side input is not sampled (R90). That it
is latched in OPR is the model's choice (log 21, DEDUCED): R94 latches every accepted word, R92 names BUSY and RESULT alone. -/
def Obligations.IllegalWordsAreTheReservedOnes : Prop :=
  (∀ w : OpWord, (∃ r, decode w = .reject r) ↔
    ((w.extractLsb' 28 4 = 0 ∨ 10 ≤ (w.extractLsb' 28 4).toNat) ∨
      ((w.extractLsb' 28 4 = 1 ∨ w.extractLsb' 28 4 = 2) ∧ w.extractLsb' 9 19 ≠ 0) ∨
      (w.extractLsb' 28 4 = 3 ∧ w.extractLsb' 1 27 ≠ 0) ∨
      ((w.extractLsb' 28 4 = 4 ∨ w.extractLsb' 28 4 = 5) ∧ w.extractLsb' 0 28 ≠ 0) ∨
      (w.extractLsb' 28 4 = 6 ∧ w.extractLsb' 24 4 ≠ 0) ∨
      ((w.extractLsb' 28 4 = 7 ∨ w.extractLsb' 28 4 = 8 ∨ w.extractLsb' 28 4 = 9) ∧ w.extractLsb' 16 12 ≠ 0))) ∧
  (∃ r, decode 0x00000000 = .reject r) ∧
  (∀ (s : State) (w : OpWord) (b : BusBundle) (rest : List HostAct) (r : Reject),
    s.busy = false → s.host = .issue w b :: rest → decode w = .reject r →
    step s = .next (State.ended { s with opr := w, host := rest } { kind := .illegalOp, cause := 0x00 }))

/-- Words written out from the encodings of R85 to R90, one or more of each format, decode to the operations they stand for
(95_test_vectors sections 2 and 3). -/
def Obligations.WordsOfTheSpecDecode : Prop :=
  decode 0x10000030 = .instr (.wrnib 0x30 false) ∧ decode 0x200001A5 = .instr (.wrbyte 0xA5 true) ∧
  decode 0x30000001 = .instr (.setbl true) ∧ decode 0x40000000 = .instr .clear ∧ decode 0x50000000 = .instr .inithw ∧
  decode 0x60A70210 = .instr (.init 16 2 0x27 true) ∧ decode 0x70000105 = .instr (.setcur 5 1) ∧
  decode 0x80000100 = .instr (.print 0x0100) ∧ decode 0x90000200 = .instr (.disptext 0x0200)

/-- R97: CMD v and DATA v are WRBYTE v, 0 and WRBYTE v, 1, with these words and no opcode of their own. -/
def Obligations.CmdAndDataAreSpellingsOfWrbyte : Prop :=
  ∀ v : Byte, Instr.cmd v = .wrbyte v false ∧ Instr.data v = .wrbyte v true ∧
    encode (Instr.cmd v) = 0x20000000 ||| v.setWidth 32 ∧ encode (Instr.data v) = 0x20000100 ||| v.setWidth 32 ∧
    decode (0x20000000 ||| v.setWidth 32) = .instr (.wrbyte v false) ∧
    decode (0x20000100 ||| v.setWidth 32) = .instr (.wrbyte v true)

/-- R82: the composed byte is the nibble, BLC and the register-select bit, EN and RW 0; for a legal BLC the three terms add up;
the byte with EN set is `Compose | 0x04`, and it is what a WRNIB puts on the bus first. -/
def Obligations.ComposeBuildsTheExpanderByte : Prop :=
  (∀ (bl n : Byte) (rs : Bool), compose bl n rs = (n &&& 0xF0) ||| bl ||| (if rs then 0x01 else 0x00)) ∧
  (∀ (bl n : Byte) (rs : Bool), bl = 0x00 ∨ bl = 0x08 →
    compose bl n rs = (n &&& 0xF0) + bl + (if rs then 0x01 else 0x00) ∧
    compose bl n rs &&& 0x04 = 0 ∧ compose bl n rs &&& 0x02 = 0) ∧
  (∀ (n : Byte) (rs : Bool) (s : State), s.busInstalled = true →
    ∃ t es, exec (.wrnib n rs) s = .next t ∧
      t.trace = s.trace ++ .w s.cfg.addr (compose (s.blc &&& 0x08) n rs ||| 0x04) (s.answerAt 0) :: es)

/-- R83: the two nibbles of a logical byte, each in the upper position. -/
def Obligations.NibblesOfAByte : Prop :=
  ∀ v : Byte, hiNibble v = v &&& 0xF0 ∧ loNibble v = (v <<< 4) &&& 0xF0 ∧ loNibble v = (v &&& 0x0F) <<< 4

/-! ### The operation port -/

/-- An idle engine with a legal word on the port latches it and runs the operation it decodes to (30_encoding R94, R95); the side
input is sampled with INIT's word and ignored for every other operation (R90). -/
def Obligations.StepRunsTheDecodedOperation : Prop :=
  ∀ (s : State) (w : OpWord) (b : BusBundle) (rest : List HostAct) (i : Instr),
    s.busy = false → s.host = .issue w b :: rest → decode w = .instr i →
    step s = exec i { s with
      busy := true, resValid := false, opr := w, opBusCfg := if isInit i then b else s.opBusCfg, host := rest }

/-- The not-ready gate (60_exceptions R194, R201): before the bus is configured every operation but INIT ends at once with
BUS_ERROR(NOT_READY): no event, no state change but the end of an operation. -/
def Obligations.GateAnswersNotReady : Prop :=
  ∀ (i : Instr) (s : State), isInit i = false → s.busInstalled = false →
    exec i s = .next (s.ended { kind := .busError, cause := 0x04 })

/-- While an operation runs the port does not accept a word (10_state R27, 70_reset R230): with a word waiting, or none, a step
runs the actions still to do, to the operation's end; the word still waits, OPR is what it was. That one step takes the operation
to its end is the model's granularity (log 5). -/
def Obligations.BusyPortHoldsTheWord : Prop :=
  ∀ s : State, s.busy = true →
    (s.host = [] → step s = .next (resume s)) ∧
    (∀ w b rest, s.host = .issue w b :: rest → step s = .next (resume s)) ∧
    (textStill s.host = true → (resume s).host = s.host) ∧
    (resume s).busy = false ∧ (resume s).resValid = true ∧ (resume s).opr = s.opr ∧
    (resume s).opBusCfg = s.opBusCfg ∧ (resume s).seq = { mstep := 0, nsel := false, ph := .idle, todo := [] }

/-- The sequencer taken one action at a time reaches the same end as the whole run, and is busy until then (10_state R31:
the list of actions not yet performed is its own representation). -/
def Obligations.TicksReachTheEndOfTheOperation : Prop :=
  ∀ s : State, s.busy = true →
    ∃ n, n ≤ s.seq.todo.length + 1 ∧ ticks n s = resume s ∧ ∀ k, k < n → (ticks k s).busy = true

/-- RST from idle: the engine takes its reset values, emits nothing and leaves the pins, the controller and the text space as
they were (70_reset R220, R221). CFG, which the spec leaves unspecified, is not named here (log 1). -/
def Obligations.ResetFromIdle : Prop :=
  ∀ (s : State) (rest : List HostAct), s.busy = false → s.host = .rst :: rest →
    ∃ t, step s = .next t ∧ t.busInstalled = false ∧ t.blc = 0x00 ∧ t.busy = false ∧
      t.result = { kind := .ok, cause := 0x00 } ∧ t.resValid = false ∧ t.opr = 0 ∧ t.eb = 0 ∧ t.tp = 0 ∧ t.ch = 0 ∧
      t.seq = { mstep := 0, nsel := false, ph := .idle, todo := [] } ∧
      t.trace = s.trace ∧ t.xp = s.xp ∧ t.latched = s.latched ∧ t.answers = s.answers ∧ t.draws = s.draws ∧
      t.host = rest ∧ ∀ a, Memory.read t.text a = Memory.read s.text a

/-- The machine after reset holds the values of R39's rows S5 to S9. -/
def Obligations.ResetHoldsTheSpecsValues : Prop :=
  State.reset.busInstalled = false ∧ State.reset.blc = 0x00 ∧ State.reset.busy = false ∧
  State.reset.result = { kind := .ok, cause := 0x00 } ∧ State.reset.resValid = false ∧ State.reset.opr = 0 ∧
  State.reset.eb = 0 ∧ State.reset.tp = 0 ∧ State.reset.ch = 0 ∧
  State.reset.seq = { mstep := 0, nsel := false, ph := .idle, todo := [] }

/-- An idle engine that is sent no word does nothing: no event, and only the strobe falls (60_exceptions R195, 70_reset R220). -/
def Obligations.IdleEngineDoesNothing : Prop :=
  ∀ s : State, s.busy = false → s.host = [] → step s = .next { s with resValid := false }

/-- Two acts while an operation runs stop by name: RST is refused (70_reset R222, U8); another master's write is a fault. That
this write stops the machine, at any point of the operation, is the model's choice (log 17, DEDUCED): 20_memory R54 and 70_reset
R238 forbid it and say neither what it does nor that it stops. -/
def Obligations.StopsWhileAnOperationRuns : Prop :=
  ∀ (s : State) (rest : List HostAct), s.busy = true →
    (s.host = .rst :: rest → step s = .refused .resetWhileBusy) ∧
    (∀ v, s.host = .otherMaster v :: rest → step s = .fault .busContended)

/-- The host's write to its text space: the byte reads back, every other byte is unchanged, the canonical form is kept, and the
engine's registers, the trace and the pins do not change (20_memory R64). -/
def Obligations.HostWritesItsTextSpace : Prop :=
  ∀ (s : State) (n : Nat) (a : TextAddr) (b : Byte) (rest : List HostAct), s.busy = false → s.host = .setText n a b :: rest →
    Memory.wf s.text = true →
    ∃ m, step s = .next { s with resValid := false, host := rest, text := m } ∧ Memory.wf m = true ∧
      Memory.read m a.toNat = b ∧ ∀ x, x ≠ a.toNat → Memory.read m x = Memory.read s.text x

/-- Another master's write between two operations changes the pins behind the engine's back and nothing the engine holds
(70_reset R238, 10_state R35, R36). -/
def Obligations.OtherMasterChangesThePinsOnly : Prop :=
  ∀ (s : State) (v : Byte) (rest : List HostAct), s.busy = false → s.host = .otherMaster v :: rest →
    step s = .next (State.pins { s with resValid := false, host := rest } v
      (if s.xp &&& 0x04 ≠ 0 ∧ v &&& 0x04 = 0 then [(v.getLsbD 0, v.extractLsb' 4 4)] else []))

/-! ### The protocol engine: WRNIB, WRBYTE -/

/-- WRNIB, every write delivered (41_protocol R120): the whole next state. EB's value after the operation is the model's
choice (log 24). -/
def Obligations.WrnibSendsOnePulse : Prop :=
  ∀ (val : Byte) (rs : Bool) (s : State), s.busInstalled = true → s.answersOk 2 →
    exec (.wrnib val rs) s = .next (State.ended
      { (s.after 2 (pulseEvents s.cfg.addr (highByte (s.blc &&& 0x08) val rs))).pins
          (highByte (s.blc &&& 0x08) val rs) [(rs, val.extractLsb' 4 4)] with
        eb := highByte (s.blc &&& 0x08) val rs }
      { kind := .ok, cause := 0x00 })

/-- R121: a failing write inside the pulse ends it there. The failing EN-high write is the last event, the pins are as before
or hold it, nothing is latched; the failing EN-low write follows the 1 us hold, the pins keep EN high and nothing is latched, or
hold the EN-low byte with the nibble latched. No delay follows, no write brings EN low. EB's value after the operation is
the model's choice (log 24). -/
def Obligations.WrnibFailureEndsThePulse : Prop :=
  ∀ (val : Byte) (rs : Bool) (c : Byte) (s : State), s.busInstalled = true →
    (s.answerAt 0 = .err c →
      ∃ x, (x = s.xp ∨ x = highByte (s.blc &&& 0x08) val rs ||| 0x04) ∧
        exec (.wrnib val rs) s = .next (State.ended
          { (s.after 1 [.w s.cfg.addr (highByte (s.blc &&& 0x08) val rs ||| 0x04) (.err c)]).pins x [] with
            eb := highByte (s.blc &&& 0x08) val rs }
          { kind := .busError, cause := c })) ∧
    (s.answerAt 0 = .ok → s.answerAt 1 = .err c →
      ∃ x ns, ((x = highByte (s.blc &&& 0x08) val rs ||| 0x04 ∧ ns = []) ∨
          (x = highByte (s.blc &&& 0x08) val rs ∧ ns = [(rs, val.extractLsb' 4 4)])) ∧
        exec (.wrnib val rs) s = .next (State.ended
          { (s.after 2 [.w s.cfg.addr (highByte (s.blc &&& 0x08) val rs ||| 0x04) .ok, .d 1,
              .w s.cfg.addr (highByte (s.blc &&& 0x08) val rs) (.err c)]).pins x ns with
            eb := highByte (s.blc &&& 0x08) val rs }
          { kind := .busError, cause := c }))

/-- WRBYTE, every write delivered (41_protocol R122, R123): two pulses, high nibble first; so CMD and DATA (42_command R140,
R141). EB's value after the operation is the model's choice (log 24). -/
def Obligations.WrbyteSendsTwoPulses : Prop :=
  ∀ (val : Byte) (rs : Bool) (s : State), s.busInstalled = true → s.answersOk 4 →
    exec (.wrbyte val rs) s = .next (State.ended
      { (s.after 4 (byteEvents s.cfg.addr (s.blc &&& 0x08) val rs)).pins
          (lowByte (s.blc &&& 0x08) val rs) (byteNibbles val rs) with
        eb := lowByte (s.blc &&& 0x08) val rs }
      { kind := .ok, cause := 0x00 })

/-! ### The register model: SETBL -/

/-- R111: BLC first, then one bus write of it, whatever BLC was; it keeps the new value where the write fails; no delay and no
pulse; a nibble 0 with RS = 0 is latched exactly where EN was high on the pins and the byte arrived. -/
def Obligations.SetblWritesTheCacheThenTheBus : Prop :=
  ∀ (on : Bool) (s : State), s.busInstalled = true →
    (s.answerAt 0 = .ok →
      exec (.setbl on) s = .next (State.ended
        ((State.after { s with blc := if on then 0x08 else 0x00 } 1
          [.w s.cfg.addr (if on then 0x08 else 0x00) .ok]).pins (if on then 0x08 else 0x00) (lowEdge s.xp))
        { kind := .ok, cause := 0x00 })) ∧
    (∀ c, s.answerAt 0 = .err c →
      ∃ x ns, ((x = s.xp ∧ ns = []) ∨ (x = (if on then 0x08 else 0x00) ∧ ns = lowEdge s.xp)) ∧
        exec (.setbl on) s = .next (State.ended
          ((State.after { s with blc := if on then 0x08 else 0x00 } 1
            [.w s.cfg.addr (if on then 0x08 else 0x00) (.err c)]).pins x ns)
          { kind := .busError, cause := c }))

/-! ### The command layer: CLEAR, INITHW -/

/-- CLEAR, every write delivered (42_command R142): the command 0x01, then at least 2000 us. EB's value after the operation
is the model's choice (log 24). -/
def Obligations.ClearSendsAndWaits : Prop :=
  ∀ s : State, s.busInstalled = true → s.answersOk 4 →
    exec .clear s = .next (State.ended
      { (s.after 4 (clearEvents s.cfg.addr (s.blc &&& 0x08))).pins
          (lowByte (s.blc &&& 0x08) 0x01 false) (byteNibbles 0x01 false) with
        eb := lowByte (s.blc &&& 0x08) 0x01 false }
      { kind := .ok, cause := 0x00 })

/-- CLEAR's failure (42_command R143): at a failing write the operation stops, and the 2 ms delay is not performed. -/
def Obligations.ClearFailureDoesNotWait : Prop :=
  ∀ (s : State) (k : Nat) (c : Byte), s.busInstalled = true → k < 4 → s.answersOk k → s.answerAt k = .err c →
    ∃ t es a v, exec .clear s = .next t ∧ t.trace = s.trace ++ es ++ [.w a v (.err c)] ∧ writeCount es = k ∧
      .d 2000 ∉ es ∧ t.result = { kind := .busError, cause := c }

/-- INITHW, every write delivered (42_command R144, R146): the 28 writes and 34 delays in order, and the nibbles they latch.
EB's value after the operation is the model's choice (log 24). -/
def Obligations.InithwBringsTheDisplayUp : Prop :=
  ∀ s : State, s.busInstalled = true → s.answersOk 28 →
    exec .inithw s = .next (State.ended
      { (s.after 28 (bringUpEvents s.cfg.addr (s.blc &&& 0x08))).pins
          (lowByte (s.blc &&& 0x08) 0x0C false) bringUpNibbles with
        eb := lowByte (s.blc &&& 0x08) 0x0C false }
      { kind := .ok, cause := 0x00 })

/-! ### The text API: INIT, SETCUR, PRINT, DISPTEXT -/

/-- The first INIT, everything answered `ok` (43_text_api R160): CFG and BLC stored, the bus configured once, the backlight byte
written, the bring-up. EB's value after the operation is the model's choice (log 24). -/
def Obligations.FirstInitConfiguresTheBus : Prop :=
  ∀ (cols rows : Byte) (addr : DevAddr) (blon : Bool) (s : State), s.busInstalled = false → s.answersOk 30 →
    exec (.init cols rows addr blon) s = .next (State.ended
      { (State.after
          { s with
            cfg := { addr := addr, cols := cols, rows := rows, blon := blon, bus := s.opBusCfg }
            blc := if blon then 0x08 else 0x00
            busInstalled := true }
          30
          ([.cfg s.opBusCfg .ok, .w addr (if blon then 0x08 else 0x00) .ok]
            ++ bringUpEvents addr (if blon then 0x08 else 0x00))).pins
          (lowByte (if blon then 0x08 else 0x00) 0x0C false) (lowEdge s.xp ++ bringUpNibbles) with
        eb := lowByte (if blon then 0x08 else 0x00) 0x0C false }
      { kind := .ok, cause := 0x00 })

/-- A second INIT (43_text_api R160, R161 (c)): no configuration event; the new CFG and backlight take effect at once. EB's
value after the operation is the model's choice (log 24). -/
def Obligations.SecondInitDoesNotReconfigure : Prop :=
  ∀ (cols rows : Byte) (addr : DevAddr) (blon : Bool) (s : State), s.busInstalled = true → s.answersOk 29 →
    exec (.init cols rows addr blon) s = .next (State.ended
      { (State.after
          { s with
            cfg := { addr := addr, cols := cols, rows := rows, blon := blon, bus := s.opBusCfg }
            blc := if blon then 0x08 else 0x00 }
          29
          (.w addr (if blon then 0x08 else 0x00) .ok :: bringUpEvents addr (if blon then 0x08 else 0x00))).pins
          (lowByte (if blon then 0x08 else 0x00) 0x0C false) (lowEdge s.xp ++ bringUpNibbles) with
        eb := lowByte (if blon then 0x08 else 0x00) 0x0C false }
      { kind := .ok, cause := 0x00 })

/-- An INIT whose bus configuration fails (43_text_api R161 (b)): CFG and BLC are written, BUS_INSTALLED stays 0, no bus write
was issued. -/
def Obligations.InitWithFailedConfiguration : Prop :=
  ∀ (cols rows : Byte) (addr : DevAddr) (blon : Bool) (c : Byte) (s : State),
    s.busInstalled = false → s.answerAt 0 = .err c →
    exec (.init cols rows addr blon) s = .next (State.ended
      (State.after
        { s with
          cfg := { addr := addr, cols := cols, rows := rows, blon := blon, bus := s.opBusCfg }
          blc := if blon then 0x08 else 0x00 }
        1 [.cfg s.opBusCfg (.err c)])
      { kind := .busError, cause := c })

/-- However an INIT ends, nothing is rolled back (43_text_api R161 (b), 60_exceptions R197): CFG and BLC hold the new values, and
BUS_INSTALLED is 1 where it was 1 or the configuration was answered `ok`. -/
def Obligations.InitKeepsWhatItWrote : Prop :=
  ∀ (cols rows : Byte) (addr : DevAddr) (blon : Bool) (s : State),
    ∃ t, exec (.init cols rows addr blon) s = .next t ∧
      t.cfg = { addr := addr, cols := cols, rows := rows, blon := blon, bus := s.opBusCfg } ∧
      t.blc = (if blon then 0x08 else 0x00) ∧
      (t.busInstalled = true ↔ (s.busInstalled = true ∨ s.answerAt 0 = .ok))

/-- SETCUR, every write delivered (43_text_api R163): the row clamps to the last row, the column to 0, the 8-bit sum with the row
base is ORed into 0x80 and sent as a command. EB's value after the operation is the model's choice (log 24). -/
def Obligations.SetcurSendsTheCursorAddress : Prop :=
  ∀ (col row cmd : Byte) (s : State), s.busInstalled = true → rowLegal s.cfg.rows row → s.answersOk 4 →
    cmd = 0x80 ||| ((if col.toNat ≥ s.cfg.cols.toNat then 0 else col) +
      ([0x00, 0x40, 0x14, 0x54] : List Byte).getD
        (if row.toNat ≥ s.cfg.rows.toNat then s.cfg.rows.toNat - 1 else row.toNat) 0) →
    exec (.setcur col row) s = .next (State.ended
      { (s.after 4 (byteEvents s.cfg.addr (s.blc &&& 0x08) cmd false)).pins
          (lowByte (s.blc &&& 0x08) cmd false) (byteNibbles cmd false) with
        eb := lowByte (s.blc &&& 0x08) cmd false }
      { kind := .ok, cause := 0x00 })

/-- R164: column 0 of row r is the command 0x80 OR the row's base; a row out of range does what the last row does (legal ROWS,
R23), a column out of range what column 0 does, and neither fails. -/
def Obligations.SetcurClampsRowToLastAndColumnToZero : Prop :=
  ∀ s : State, s.busInstalled = true → s.answersOk 4 →
    (∀ (row base : Byte), row.toNat < s.cfg.rows.toNat →
      ([0x00, 0x40, 0x14, 0x54] : List Byte)[row.toNat]? = some base →
      ∃ t, exec (.setcur 0 row) s = .next t ∧ t.result.kind = .ok ∧
        t.trace = s.trace ++ byteEvents s.cfg.addr (s.blc &&& 0x08) (0x80 ||| base) false) ∧
    (∀ (col row : Byte), row.toNat ≥ s.cfg.rows.toNat → 1 ≤ s.cfg.rows.toNat → s.cfg.rows.toNat ≤ 4 →
      exec (.setcur col row) s = exec (.setcur col (s.cfg.rows - 1)) s ∧
      ∃ t, exec (.setcur col row) s = .next t ∧ t.result.kind = .ok) ∧
    (∀ (col row : Byte), col.toNat ≥ s.cfg.cols.toNat → rowLegal s.cfg.rows row →
      exec (.setcur col row) s = exec (.setcur 0 row) s ∧
      ∃ t, exec (.setcur col row) s = .next t ∧ t.result.kind = .ok)

/-- SETCUR stops exactly where its row has no value: CFG.ROWS = 0, or a row above 3 (43_text_api R165 (e), U4). -/
def Obligations.SetcurRefusesIllegalRows : Prop :=
  ∀ (col row : Byte) (s : State), s.busInstalled = true →
    (exec (.setcur col row) s = .refused .rowsIllegal ↔ ¬ rowLegal s.cfg.rows row)

/-- PRINT on a string, every write delivered (43_text_api R166, R167): each character as data, in order, a text read before each
and one last read that finds the terminator; the empty string sends nothing. The string is the one the reads return, which is
the one that stands there where the text holds still (PrintSendsOldOrNewBytes); a change that is due lands before its read (log
23). The values of EB, TP and CH after the operation are the model's choice (log 24). -/
def Obligations.PrintSendsTheString : Prop :=
  ∀ (p : TextAddr) (cs : List Byte) (s : State), s.busInstalled = true → p ≠ 0 → readsString s.text s.host p cs →
    s.answersOk (4 * cs.length) →
    exec (.print p) s = .next (State.ended
      { (s.after (4 * cs.length) (printEvents s.cfg.addr (s.blc &&& 0x08) p cs)).pins
          (lastByte (s.blc &&& 0x08) s.xp cs)
          (cs.flatMap (fun c => byteNibbles c true)) with
        eb := lastByte (s.blc &&& 0x08) s.eb cs
        tp := p + BitVec.ofNat 16 cs.length
        ch := 0x00
        text := (landed (cs.length + 1) s.text s.host).1
        host := (landed (cs.length + 1) s.text s.host).2 }
      { kind := .ok, cause := 0x00 })

/-- PRINT of no string at all (43_text_api R166, R167 (b), 60_exceptions R192): INVALID_ARGUMENT, no event. -/
def Obligations.PrintNullIsInvalid : Prop :=
  ∀ s : State, s.busInstalled = true → exec (.print 0) s = .next (s.ended { kind := .invalidArgument, cause := 0x00 })

/-- PRINT and DISPTEXT stop on a text in which their reads find no terminator below the top of the text space (20_memory R66,
U5); with a text that holds still, one in which none stands. -/
def Obligations.UnterminatedTextIsRefused : Prop :=
  ∀ (p : TextAddr) (s : State), s.busInstalled = true → p ≠ 0 →
    (∀ k, p.toNat + k < 65536 → byteRead s.text s.host p k ≠ 0x00) →
    exec (.print p) s = .refused .textUnterminated ∧
      (s.cfg.rows ≠ 0 → exec (.disptext p) s = .refused .textUnterminated)

/-- R168: PRINT with the 11th or the 12th write failing, a write of the low nibble of the third character: the result is that
BUS_ERROR, the trace ends at the failing write, no further character is written and no further text is read; the controller has
latched the high nibble of the third character (and its low nibble only where the failed EN-low write arrived after all, R35). -/
def Obligations.PrintStopsAtTheFailingLowNibble : Prop :=
  ∀ (p : TextAddr) (c1 c2 c3 : Byte) (cs : List Byte) (c : Byte) (s : State), s.busInstalled = true → p ≠ 0 →
    readsString s.text s.host p (c1 :: c2 :: c3 :: cs) →
    (s.answersOk 10 → s.answerAt 10 = .err c →
      ∃ t, exec (.print p) s = .next t ∧ t.result = { kind := .busError, cause := c } ∧
        t.trace = s.trace ++ (.t p c1 :: byteEvents s.cfg.addr (s.blc &&& 0x08) c1 true)
          ++ (.t (p + 1) c2 :: byteEvents s.cfg.addr (s.blc &&& 0x08) c2 true)
          ++ (.t (p + 2) c3 :: pulseEvents s.cfg.addr (highByte (s.blc &&& 0x08) c3 true))
          ++ [.w s.cfg.addr (lowByte (s.blc &&& 0x08) c3 true ||| 0x04) (.err c)] ∧
        t.latched = s.latched ++ byteNibbles c1 true ++ byteNibbles c2 true ++ [(true, c3.extractLsb' 4 4)]) ∧
    (s.answersOk 11 → s.answerAt 11 = .err c →
      ∃ t, exec (.print p) s = .next t ∧ t.result = { kind := .busError, cause := c } ∧
        t.trace = s.trace ++ (.t p c1 :: byteEvents s.cfg.addr (s.blc &&& 0x08) c1 true)
          ++ (.t (p + 1) c2 :: byteEvents s.cfg.addr (s.blc &&& 0x08) c2 true)
          ++ (.t (p + 2) c3 :: pulseEvents s.cfg.addr (highByte (s.blc &&& 0x08) c3 true))
          ++ [.w s.cfg.addr (lowByte (s.blc &&& 0x08) c3 true ||| 0x04) .ok, .d 1,
            .w s.cfg.addr (lowByte (s.blc &&& 0x08) c3 true) (.err c)] ∧
        (t.latched = s.latched ++ byteNibbles c1 true ++ byteNibbles c2 true ++ [(true, c3.extractLsb' 4 4)] ∨
          t.latched = s.latched ++ byteNibbles c1 true ++ byteNibbles c2 true ++ byteNibbles c3 true))

/-- DISPTEXT, every write delivered (43_text_api R169): CLEAR, the cursor command 0x80, the string its reads return (as
PRINT's). The values of EB, TP and CH after the operation are the model's choice (log 24). -/
def Obligations.DisptextClearsHomesAndPrints : Prop :=
  ∀ (p : TextAddr) (cs : List Byte) (s : State), s.busInstalled = true → s.cfg.rows ≠ 0 → p ≠ 0 →
    readsString s.text s.host p cs → s.answersOk (8 + 4 * cs.length) →
    exec (.disptext p) s = .next (State.ended
      { (s.after (8 + 4 * cs.length)
          (clearEvents s.cfg.addr (s.blc &&& 0x08) ++ byteEvents s.cfg.addr (s.blc &&& 0x08) 0x80 false
            ++ printEvents s.cfg.addr (s.blc &&& 0x08) p cs)).pins
          (lastByte (s.blc &&& 0x08) (lowByte (s.blc &&& 0x08) 0x80 false) cs)
          (byteNibbles 0x01 false ++ byteNibbles 0x80 false ++ cs.flatMap (fun c => byteNibbles c true)) with
        eb := lastByte (s.blc &&& 0x08) (lowByte (s.blc &&& 0x08) 0x80 false) cs
        tp := p + BitVec.ofNat 16 cs.length
        ch := 0x00
        text := (landed (cs.length + 1) s.text s.host).1
        host := (landed (cs.length + 1) s.text s.host).2 }
      { kind := .ok, cause := 0x00 })

/-- DISPTEXT of no string at all (43_text_api R170 (a)): the display is cleared and the cursor homed, then INVALID_ARGUMENT.
EB's value after the operation is the model's choice (log 24). -/
def Obligations.DisptextNullClearsFirst : Prop :=
  ∀ s : State, s.busInstalled = true → s.cfg.rows ≠ 0 → s.answersOk 8 →
    exec (.disptext 0) s = .next (State.ended
      { (s.after 8 (clearEvents s.cfg.addr (s.blc &&& 0x08) ++ byteEvents s.cfg.addr (s.blc &&& 0x08) 0x80 false)).pins
          (lowByte (s.blc &&& 0x08) 0x80 false) (byteNibbles 0x01 false ++ byteNibbles 0x80 false) with
        eb := lowByte (s.blc &&& 0x08) 0x80 false }
      { kind := .invalidArgument, cause := 0x00 })

/-- DISPTEXT with CFG.ROWS = 0 has no behaviour (43_text_api R170 (c), U4). -/
def Obligations.DisptextRefusesNoRows : Prop :=
  ∀ (p : TextAddr) (s : State), s.busInstalled = true → s.cfg.rows = 0 →
    exec (.disptext p) s = .refused .rowsIllegal

/-! ### The whole machine -/

/-- An operation the spec gives a behaviour ends, whatever the transport answers, with the engine idle and the result
delivered (00_scope R13, 10_state R28, R31). -/
def Obligations.EverySpecifiedOperationEnds : Prop :=
  ∀ (i : Instr) (s : State), specified i s →
    ∃ t, exec i s = .next t ∧ t.busy = false ∧ t.resValid = true ∧
      t.seq = { mstep := 0, nsel := false, ph := .idle, todo := [] } ∧ t.result.kind ≠ .illegalOp

/-- The invariant holds at reset. -/
def Obligations.ResetMeetsTheInvariant : Prop := State.reset.Inv

/-- Every step keeps the invariant: idle between operations (00_scope R13), a legal BLC (10_state R25), cause 0 but for
BUS_ERROR (R29), text in canonical form, RW never set (30_encoding R81). The canonical form is the model's own. -/
def Obligations.StepKeepsTheInvariant : Prop :=
  ∀ s t : State, s.Inv → step s = .next t → t.Inv

/-- R26: every expander byte an operation emits carries the backlight bit as BLC has it, whatever the transport answers; it goes
to CFG.ADDR and has RW 0. (An operation that writes BLC or CFG does so before its first bus write, so the values after it are
those at the time of each write.) It stays so until the next SETBL or INIT, which alone write BLC. -/
def Obligations.EveryWriteCarriesTheBacklight : Prop :=
  ∀ (i : Instr) (s t : State), exec i s = .next t →
    ∃ es, t.trace = s.trace ++ es ∧
      (∀ a v ans, .w a v ans ∈ es → a = t.cfg.addr ∧ v &&& 0x08 = t.readBlc ∧ v &&& 0x02 = 0x00) ∧
      (writesBacklight i = false → t.blc = s.blc) ∧
      (∀ on, i = .setbl on → s.busInstalled = true → t.blc = if on then 0x08 else 0x00) ∧
      (∀ cols rows addr blon, i = .init cols rows addr blon → t.blc = if blon then 0x08 else 0x00)

/-- The cache and the pins agree after an operation whose writes were all delivered (10_state R38), and EN is low then: the
next pulse starts from there (41_protocol R120, 60_exceptions R198). -/
def Obligations.PinsAgreeWithTheCache : Prop :=
  ∀ (i : Instr) (s t : State), exec i s = .next t → t.result.kind ≠ .busError →
    ∃ es, t.trace = s.trace ++ es ∧
      ((∃ e ∈ es, e.isWrite = true) → t.xp &&& 0x08 = t.readBlc ∧ t.xp &&& 0x04 = 0x00)

/-- R56: no bus write is issued while the bus is not configured; INIT's first write comes only after a configuration answered
`ok`. -/
def Obligations.NoWriteBeforeConfiguration : Prop :=
  ∀ (i : Instr) (s t : State), exec i s = .next t → s.busInstalled = false →
    ∃ es, t.trace = s.trace ++ es ∧ (isInit i = false → es = []) ∧
      ∀ pre a v ans post, es = pre ++ .w a v ans :: post → ∃ b, .cfg b .ok ∈ pre

/-- One error per operation, and it is the last thing that happens (60_exceptions R191, R196, R202): no event but the last is
answered with an error; the result is that error, its cause unchanged; an operation that ends OK met none; BUS_ERROR with no
failed event is the gate's. -/
def Obligations.TheFirstFailureEndsTheOperation : Prop :=
  ∀ (i : Instr) (s t : State), exec i s = .next t →
    ∃ es, t.trace = s.trace ++ es ∧ (∀ e ∈ es.dropLast, e.failCause = none) ∧
      (∀ e ∈ es, ∀ c, e.failCause = some c → t.result = { kind := .busError, cause := c }) ∧
      (t.result.kind = .busError →
        (es = [] ∧ s.busInstalled = false ∧ isInit i = false ∧ t.result.cause = 0x04) ∨
        ∃ e, es.getLast? = some e ∧ e.failCause = some t.result.cause)

/-- The trace of an aborted operation is the prefix of its success trace up to the failing event, that event answered with the
error (60_exceptions R196), with CLEAR_WAIT_ON_ERROR false, its default (log 12). -/
def Obligations.AbortedTraceIsAPrefix : Prop :=
  ∀ (i : Instr) (s t u : State) (as : List BusAnswer) (n : Nat), s.busInstalled = true ∨ isInit i = true →
    exec i s = .next t → t.result.kind = .busError →
    exec i { s with answers := as, draws := n } = .next u → u.result.kind ≠ .busError →
    ∃ pre e rest, t.trace = s.trace ++ pre ++ [e] ∧ e.failCause = some t.result.cause ∧
      u.trace = s.trace ++ pre ++ e.answeredOk :: rest

/-- What operations do not touch (10_state R22, R24, R25, R33, 20_memory R74): CFG and BUS_INSTALLED are INIT's alone, BLC is
SETBL's and INIT's, TP and CH are the text operations'; EB is not SETBL's; OPR, the side input, the host's acts and every byte of
the text space are nobody's, but that the host's own changes land under an operation that reads text, in their order (log 23);
BUS_INSTALLED is never cleared; the trace and the latched nibbles only grow. That EB, TP, CH and OPR hold a value between
operations at all is the model's choice (log 24). -/
def Obligations.OperationsLeaveTheRestUnchanged : Prop :=
  ∀ (i : Instr) (s t : State), exec i s = .next t →
    (isInit i = false → t.cfg = s.cfg ∧ t.busInstalled = s.busInstalled) ∧
    (writesBacklight i = false → t.blc = s.blc) ∧
    (readsTextSpace i = false → t.tp = s.tp ∧ t.ch = s.ch) ∧
    (∀ on, i = .setbl on → t.eb = s.eb) ∧
    t.opr = s.opr ∧ t.opBusCfg = s.opBusCfg ∧
    (readsTextSpace i = false ∨ textStill s.host = true →
      t.host = s.host ∧ ∀ a, Memory.read t.text a = Memory.read s.text a) ∧
    (∃ n, (t.text, t.host) = landed n s.text s.host) ∧
    (s.busInstalled = true → t.busInstalled = true) ∧
    (∃ es, t.trace = s.trace ++ es) ∧ (∃ ns, t.latched = s.latched ++ ns)

/-- Errors are not sticky (10_state R28, 60_exceptions R206): an operation does what it does whatever the result register, the
strobe, BUSY and the sequencer's position held before. -/
def Obligations.ResultsAreNotSticky : Prop :=
  ∀ (i : Instr) (s : State) (r : Result) (v b : Bool) (q : Seq),
    exec i { s with result := r, resValid := v, busy := b, seq := q } = exec i s

/-- Writes, delays and minimum duration of each operation that ends OK (70_reset R243). -/
def Obligations.OperationsTakeTheirMinimumTime : Prop :=
  ∀ s : State,
    (∀ on, costs (.setbl on) s 1 0 0) ∧
    (∀ val rs, costs (.wrnib val rs) s 2 2 51) ∧
    (∀ val rs, costs (.wrbyte val rs) s 4 4 102) ∧
    costs .clear s 4 5 2102 ∧
    costs .inithw s 28 34 60714 ∧
    (∀ cols rows addr blon, costs (.init cols rows addr blon) s 29 34 60714) ∧
    (∀ col row, costs (.setcur col row) s 4 4 102) ∧
    (∀ p cs, p ≠ 0 → readsString s.text s.host p cs →
      costs (.print p) s (4 * cs.length) (4 * cs.length) (102 * cs.length) ∧
      costs (.disptext p) s (8 + 4 * cs.length) (9 + 4 * cs.length) (2204 + 102 * cs.length))

/-! ### The busy engine, one action at a time and under a change of the text -/

/-- A change of the text space under an operation that reads no more text is harmless: the operation does what it does without it,
and the byte lands with the step after. This is the model's inference (log 17, DEDUCED): the text space is the host's, and PRINT
and DISPTEXT alone read it (10_state R34, 20_memory R64), while R74 and 70_reset R233 speak only of a change under a reader. -/
def Obligations.TextChangeIsHarmlessToOtherOperations : Prop :=
  ∀ (s : State) (n : Nat) (a : TextAddr) (b : Byte) (rest : List HostAct), s.busy = true → s.host = .setText n a b :: rest →
    (∀ l ∈ s.seq.todo, l.act ≠ .readText) →
    step s = .next (resume s) ∧ resume s = { resume { s with host := [] } with host := s.host } ∧
      step (resume s) = .next { resume s with resValid := false, host := rest, text := Memory.write s.text a.toNat b }

/-- A host that changes text under a running PRINT may see old or new bytes sent (20_memory R74, U10). The bytes are those its reads
return: each the old one or one that a change puts there; the new one where the change is due at once, the old one where it is due
after the last read; those that stand there where the text holds still. From a PRINT in progress a step sends them, or is refused
where no terminator is read (R66, U5). When a change is due is the host's, an input (log 23, DESIGN CHOICE). -/
def Obligations.PrintSendsOldOrNewBytes : Prop :=
  (∀ (m : Memory) (h : List HostAct) (p : TextAddr) (cs : List Byte), Memory.wf m = true → readsString m h p cs →
    ∀ k c, cs[k]? = some c → c = Memory.read m (p.toNat + k) ∨
      ∃ n a, a.toNat = p.toNat + k ∧ .setText n a c ∈ h.takeWhile (fun x => !textStill [x])) ∧
  (∀ m h p cs, textStill h = true → (readsString m h p cs ↔ isString m p cs)) ∧
  (∀ m a b h p cs, textStill h = true →
    (readsString m (.setText 0 a b :: h) p cs ↔ isString (Memory.write m a.toNat b) p cs)) ∧
  (∀ m n a b h p cs, cs.length < n → (readsString m (.setText n a b :: h) p cs ↔ isString m p cs)) ∧
  (∀ (s : State) (n : Nat) (a : TextAddr) (b : Byte) (rest : List HostAct) (cs : List Byte),
    s.busy = true → s.host = .setText n a b :: rest → s.seq.todo = printLoop cs →
    (∀ ds, readsString s.text s.host s.tp ds → s.answersOk (4 * ds.length) →
      ∃ t, step s = .next t ∧ t.result = { kind := .ok, cause := 0x00 } ∧
        t.trace = s.trace ++ printEvents s.cfg.addr (s.blc &&& 0x08) s.tp ds ∧
        (t.text, t.host) = landed (ds.length + 1) s.text s.host) ∧
    ((∀ k, s.tp.toNat + k < 65536 → byteRead s.text s.host s.tp k ≠ 0x00) → step s = .refused .textUnterminated))

/-- The pulse sequencer's transitions (41_protocol R124, 10_state R31), one action of it each: what PH, NSEL and EB become, the
event it emits, and the abort where a write is answered with an error (60_exceptions R196; with CLEAR_WAIT_ON_ERROR false, log
12). That MSTEP is the step of the action that follows, and that NSEL stays after a pulse, is the model's choice (log 13). -/
def Obligations.PulseSequencerFollowsItsTable : Prop :=
  ∀ (s : State) (l : Line) (rest : List Line) (m : Nat), s.seq.todo = l :: rest →
    m = (match rest with
      | [] => l.mstep
      | l' :: _ => l'.mstep) →
    (∀ n rs nsel, l.act = .startPulse n rs nsel →
      tick s = { s with eb := compose s.readBlc n rs, seq := { mstep := m, nsel := nsel, ph := .wrHi, todo := rest } }) ∧
    (l.act = .enHigh →
      (s.answerAt 0 = .ok → (tick s).seq = { mstep := m, nsel := s.seq.nsel, ph := .hold, todo := rest } ∧
        (tick s).trace = s.trace ++ [.w s.cfg.addr (s.eb ||| 0x04) .ok] ∧ (tick s).xp = s.eb ||| 0x04) ∧
      (∀ c, s.answerAt 0 = .err c → (tick s).seq = { mstep := 0, nsel := false, ph := .idle, todo := [] } ∧
        (tick s).result = { kind := .busError, cause := c } ∧ (tick s).busy = false ∧
        (tick s).trace = s.trace ++ [.w s.cfg.addr (s.eb ||| 0x04) (.err c)])) ∧
    (l.act = .hold →
      tick s = { s with
        trace := s.trace ++ [.d 1], seq := { mstep := m, nsel := s.seq.nsel, ph := .wrLo, todo := rest } }) ∧
    (l.act = .enLow →
      (s.answerAt 0 = .ok → (tick s).seq = { mstep := m, nsel := s.seq.nsel, ph := .settle, todo := rest } ∧
        (tick s).trace = s.trace ++ [.w s.cfg.addr s.eb .ok] ∧ (tick s).xp = s.eb) ∧
      (∀ c, s.answerAt 0 = .err c → (tick s).seq = { mstep := 0, nsel := false, ph := .idle, todo := [] } ∧
        (tick s).result = { kind := .busError, cause := c } ∧ (tick s).busy = false ∧
        (tick s).trace = s.trace ++ [.w s.cfg.addr s.eb (.err c)])) ∧
    (l.act = .settle →
      tick s = { s with
        trace := s.trace ++ [.d 50], seq := { mstep := m, nsel := s.seq.nsel, ph := .idle, todo := rest } })

/-- The sequencer's positions during WRNIB and WRBYTE, every write delivered, as (MSTEP, NSEL, PH) after each action: PH by
41_protocol R124, the high nibble with NSEL 0, then the low with NSEL 1 (R122). The operation is the run of those actions. THE
MODEL'S CHOICES (log 13, DESIGN CHOICE): a called WRNIB counts under its caller's step; MSTEP is the step of the action that
follows, and stays at the last action's, 5 and 2, where R120 and R122 go on to the return, step 6 and step 3; NSEL keeps its
value until the next pulse begins, so it is 0 still at WRBYTE's step 2 before the low nibble's pulse. -/
def Obligations.PositionsOfWrnibAndWrbyte : Prop :=
  ∀ (val : Byte) (rs : Bool) (s : State), s.busInstalled = true →
    (exec (.wrnib val rs) s = .next (resume (s.load (wrnibBody val rs false))) ∧
      (s.answersOk 2 →
        [1, 2, 3, 4, 5].map (fun k => let q := (ticks k (s.load (wrnibBody val rs false))).seq; (q.mstep, q.nsel, q.ph)) =
          [(2, false, .wrHi), (3, false, .hold), (4, false, .wrLo), (5, false, .settle), (5, false, .idle)])) ∧
    (exec (.wrbyte val rs) s = .next (resume (s.load (wrbyteBody val rs))) ∧
      (s.answersOk 4 →
        [1, 2, 3, 4, 5, 6, 7, 8, 9, 10].map
            (fun k => let q := (ticks k (s.load (wrbyteBody val rs))).seq; (q.mstep, q.nsel, q.ph)) =
          [(1, false, .wrHi), (1, false, .hold), (1, false, .wrLo), (1, false, .settle), (2, false, .idle),
            (2, true, .wrHi), (2, true, .hold), (2, true, .wrLo), (2, true, .settle), (2, true, .idle)]))
end

