-- ==== Sys2Proof/Laws/Bits.lean ====
section
/-! SUPPORT. The bits of the expander byte (30_encoding R80 to R83) and of the operation word. -/

namespace Sys2Proof.Machine

theorem compose_eq (bl n : Byte) (rs : Bool) :
    compose bl n rs = (n &&& 0xF0) ||| bl ||| (if rs then 0x01 else 0x00) := by
  cases rs <;> rfl

theorem readBlc_eq (s : State) : s.readBlc = s.blc &&& 0x08 := rfl

theorem compose_hiNibble (bl v : Byte) (rs : Bool) : compose bl (hiNibble v) rs = highByte bl v rs := by
  rw [compose_eq, highByte, hiNibble]
  show (v &&& 0xF0) &&& 0xF0 ||| _ ||| _ = _
  rw [BitVec.and_assoc, BitVec.and_self]

theorem compose_loNibble (bl v : Byte) (rs : Bool) : compose bl (loNibble v) rs = lowByte bl v rs := by
  rw [compose_eq, lowByte, loNibble]
  show ((v <<< 4) &&& 0xF0) &&& 0xF0 ||| _ ||| _ = _
  rw [BitVec.and_assoc, BitVec.and_self]

/-- The byte with EN set has EN set. -/
theorem enPin_enHigh (b : Byte) : enPin (b ||| params.enBit) = true := by
  have h : ∀ b : Byte, enPin (b ||| params.enBit) = true := by decide
  exact h b

/-- The parts of an expander byte: EN and RW are 0, RS and the data pins are as asked, BL is BLC's live bit. -/
theorem compose_bits (bl n : Byte) (rs : Bool) :
    enPin (compose (bl &&& params.blBit) n rs) = false ∧
      rsPin (compose (bl &&& params.blBit) n rs) = rs ∧
      dataPins (compose (bl &&& params.blBit) n rs) = n.extractLsb' 4 4 ∧
      compose (bl &&& params.blBit) n rs &&& 0x02 = 0 ∧
      compose (bl &&& params.blBit) n rs &&& 0x08 = bl &&& 0x08 := by
  have hbl : bl &&& params.blBit = 0x00 ∨ bl &&& params.blBit = 0x08 := by
    have h : ∀ b : Byte, b &&& params.blBit = 0x00 ∨ b &&& params.blBit = 0x08 := by decide
    exact h bl
  have h8 : bl &&& 0x08 = bl &&& params.blBit := rfl
  rw [h8]
  rcases hbl with h | h <;> rw [h] <;> clear h h8 <;> revert n rs <;> decide

end Sys2Proof.Machine
end

