-- ==== Sys2Proof/Laws/State.lean ====
section
/-! SUPPORT. One lemma per field per update of State, each true by rfl, so that no proof unfolds a record update. -/

namespace Sys2Proof.Machine

@[simp] theorem emit_cfg (s : State) (e : Event) : (s.emit e).cfg = s.cfg := rfl
@[simp] theorem emit_busInstalled (s : State) (e : Event) : (s.emit e).busInstalled = s.busInstalled := rfl
@[simp] theorem emit_blc (s : State) (e : Event) : (s.emit e).blc = s.blc := rfl
@[simp] theorem emit_busy (s : State) (e : Event) : (s.emit e).busy = s.busy := rfl
@[simp] theorem emit_result (s : State) (e : Event) : (s.emit e).result = s.result := rfl
@[simp] theorem emit_resValid (s : State) (e : Event) : (s.emit e).resValid = s.resValid := rfl
@[simp] theorem emit_opr (s : State) (e : Event) : (s.emit e).opr = s.opr := rfl
@[simp] theorem emit_eb (s : State) (e : Event) : (s.emit e).eb = s.eb := rfl
@[simp] theorem emit_tp (s : State) (e : Event) : (s.emit e).tp = s.tp := rfl
@[simp] theorem emit_ch (s : State) (e : Event) : (s.emit e).ch = s.ch := rfl
@[simp] theorem emit_seq (s : State) (e : Event) : (s.emit e).seq = s.seq := rfl
@[simp] theorem emit_opBusCfg (s : State) (e : Event) : (s.emit e).opBusCfg = s.opBusCfg := rfl
@[simp] theorem emit_host (s : State) (e : Event) : (s.emit e).host = s.host := rfl
@[simp] theorem emit_answers (s : State) (e : Event) : (s.emit e).answers = s.answers := rfl
@[simp] theorem emit_text (s : State) (e : Event) : (s.emit e).text = s.text := rfl
@[simp] theorem emit_xp (s : State) (e : Event) : (s.emit e).xp = s.xp := rfl
@[simp] theorem emit_latched (s : State) (e : Event) : (s.emit e).latched = s.latched := rfl
@[simp] theorem emit_trace (s : State) (e : Event) : (s.emit e).trace = s.trace ++ [e] := rfl
@[simp] theorem emit_draws (s : State) (e : Event) : (s.emit e).draws = s.draws := rfl
@[simp] theorem emit_readBlc (s : State) (e : Event) : (s.emit e).readBlc = s.readBlc := rfl

@[simp] theorem drivePins_cfg (s : State) (v : Byte) : (s.drivePins v).cfg = s.cfg := rfl
@[simp] theorem drivePins_busInstalled (s : State) (v : Byte) : (s.drivePins v).busInstalled = s.busInstalled := rfl
@[simp] theorem drivePins_blc (s : State) (v : Byte) : (s.drivePins v).blc = s.blc := rfl
@[simp] theorem drivePins_busy (s : State) (v : Byte) : (s.drivePins v).busy = s.busy := rfl
@[simp] theorem drivePins_result (s : State) (v : Byte) : (s.drivePins v).result = s.result := rfl
@[simp] theorem drivePins_resValid (s : State) (v : Byte) : (s.drivePins v).resValid = s.resValid := rfl
@[simp] theorem drivePins_opr (s : State) (v : Byte) : (s.drivePins v).opr = s.opr := rfl
@[simp] theorem drivePins_eb (s : State) (v : Byte) : (s.drivePins v).eb = s.eb := rfl
@[simp] theorem drivePins_tp (s : State) (v : Byte) : (s.drivePins v).tp = s.tp := rfl
@[simp] theorem drivePins_ch (s : State) (v : Byte) : (s.drivePins v).ch = s.ch := rfl
@[simp] theorem drivePins_seq (s : State) (v : Byte) : (s.drivePins v).seq = s.seq := rfl
@[simp] theorem drivePins_opBusCfg (s : State) (v : Byte) : (s.drivePins v).opBusCfg = s.opBusCfg := rfl
@[simp] theorem drivePins_host (s : State) (v : Byte) : (s.drivePins v).host = s.host := rfl
@[simp] theorem drivePins_answers (s : State) (v : Byte) : (s.drivePins v).answers = s.answers := rfl
@[simp] theorem drivePins_text (s : State) (v : Byte) : (s.drivePins v).text = s.text := rfl
@[simp] theorem drivePins_xp (s : State) (v : Byte) : (s.drivePins v).xp = v := rfl
@[simp] theorem drivePins_latched (s : State) (v : Byte) : (s.drivePins v).latched = if enFalls s.xp v then s.latched ++ [(rsPin v, dataPins v)] else s.latched := rfl
@[simp] theorem drivePins_trace (s : State) (v : Byte) : (s.drivePins v).trace = s.trace := rfl
@[simp] theorem drivePins_draws (s : State) (v : Byte) : (s.drivePins v).draws = s.draws := rfl
@[simp] theorem drivePins_readBlc (s : State) (v : Byte) : (s.drivePins v).readBlc = s.readBlc := rfl

@[simp] theorem drivePinsIf_cfg (s : State) (reached : Bool) (v : Byte) : (s.drivePinsIf reached v).cfg = s.cfg := rfl
@[simp] theorem drivePinsIf_busInstalled (s : State) (reached : Bool) (v : Byte) : (s.drivePinsIf reached v).busInstalled = s.busInstalled := rfl
@[simp] theorem drivePinsIf_blc (s : State) (reached : Bool) (v : Byte) : (s.drivePinsIf reached v).blc = s.blc := rfl
@[simp] theorem drivePinsIf_busy (s : State) (reached : Bool) (v : Byte) : (s.drivePinsIf reached v).busy = s.busy := rfl
@[simp] theorem drivePinsIf_result (s : State) (reached : Bool) (v : Byte) : (s.drivePinsIf reached v).result = s.result := rfl
@[simp] theorem drivePinsIf_resValid (s : State) (reached : Bool) (v : Byte) : (s.drivePinsIf reached v).resValid = s.resValid := rfl
@[simp] theorem drivePinsIf_opr (s : State) (reached : Bool) (v : Byte) : (s.drivePinsIf reached v).opr = s.opr := rfl
@[simp] theorem drivePinsIf_eb (s : State) (reached : Bool) (v : Byte) : (s.drivePinsIf reached v).eb = s.eb := rfl
@[simp] theorem drivePinsIf_tp (s : State) (reached : Bool) (v : Byte) : (s.drivePinsIf reached v).tp = s.tp := rfl
@[simp] theorem drivePinsIf_ch (s : State) (reached : Bool) (v : Byte) : (s.drivePinsIf reached v).ch = s.ch := rfl
@[simp] theorem drivePinsIf_seq (s : State) (reached : Bool) (v : Byte) : (s.drivePinsIf reached v).seq = s.seq := rfl
@[simp] theorem drivePinsIf_opBusCfg (s : State) (reached : Bool) (v : Byte) : (s.drivePinsIf reached v).opBusCfg = s.opBusCfg := rfl
@[simp] theorem drivePinsIf_host (s : State) (reached : Bool) (v : Byte) : (s.drivePinsIf reached v).host = s.host := rfl
@[simp] theorem drivePinsIf_answers (s : State) (reached : Bool) (v : Byte) : (s.drivePinsIf reached v).answers = s.answers := rfl
@[simp] theorem drivePinsIf_text (s : State) (reached : Bool) (v : Byte) : (s.drivePinsIf reached v).text = s.text := rfl
@[simp] theorem drivePinsIf_xp (s : State) (reached : Bool) (v : Byte) : (s.drivePinsIf reached v).xp = if reached then v else s.xp := rfl
@[simp] theorem drivePinsIf_latched (s : State) (reached : Bool) (v : Byte) : (s.drivePinsIf reached v).latched = if reached && enFalls s.xp v then s.latched ++ [(rsPin v, dataPins v)] else s.latched := rfl
@[simp] theorem drivePinsIf_trace (s : State) (reached : Bool) (v : Byte) : (s.drivePinsIf reached v).trace = s.trace := rfl
@[simp] theorem drivePinsIf_draws (s : State) (reached : Bool) (v : Byte) : (s.drivePinsIf reached v).draws = s.draws := rfl
@[simp] theorem drivePinsIf_readBlc (s : State) (reached : Bool) (v : Byte) : (s.drivePinsIf reached v).readBlc = s.readBlc := rfl

@[simp] theorem useAnswer_cfg (s : State) : (s.useAnswer).cfg = s.cfg := rfl
@[simp] theorem useAnswer_busInstalled (s : State) : (s.useAnswer).busInstalled = s.busInstalled := rfl
@[simp] theorem useAnswer_blc (s : State) : (s.useAnswer).blc = s.blc := rfl
@[simp] theorem useAnswer_busy (s : State) : (s.useAnswer).busy = s.busy := rfl
@[simp] theorem useAnswer_result (s : State) : (s.useAnswer).result = s.result := rfl
@[simp] theorem useAnswer_resValid (s : State) : (s.useAnswer).resValid = s.resValid := rfl
@[simp] theorem useAnswer_opr (s : State) : (s.useAnswer).opr = s.opr := rfl
@[simp] theorem useAnswer_eb (s : State) : (s.useAnswer).eb = s.eb := rfl
@[simp] theorem useAnswer_tp (s : State) : (s.useAnswer).tp = s.tp := rfl
@[simp] theorem useAnswer_ch (s : State) : (s.useAnswer).ch = s.ch := rfl
@[simp] theorem useAnswer_seq (s : State) : (s.useAnswer).seq = s.seq := rfl
@[simp] theorem useAnswer_opBusCfg (s : State) : (s.useAnswer).opBusCfg = s.opBusCfg := rfl
@[simp] theorem useAnswer_host (s : State) : (s.useAnswer).host = s.host := rfl
@[simp] theorem useAnswer_answers (s : State) : (s.useAnswer).answers = s.answers.tail := rfl
@[simp] theorem useAnswer_text (s : State) : (s.useAnswer).text = s.text := rfl
@[simp] theorem useAnswer_xp (s : State) : (s.useAnswer).xp = s.xp := rfl
@[simp] theorem useAnswer_latched (s : State) : (s.useAnswer).latched = s.latched := rfl
@[simp] theorem useAnswer_trace (s : State) : (s.useAnswer).trace = s.trace := rfl
@[simp] theorem useAnswer_draws (s : State) : (s.useAnswer).draws = s.draws + 1 := rfl
@[simp] theorem useAnswer_readBlc (s : State) : (s.useAnswer).readBlc = s.readBlc := rfl

@[simp] theorem setPhase_cfg (s : State) (p : Phase) : (s.setPhase p).cfg = s.cfg := rfl
@[simp] theorem setPhase_busInstalled (s : State) (p : Phase) : (s.setPhase p).busInstalled = s.busInstalled := rfl
@[simp] theorem setPhase_blc (s : State) (p : Phase) : (s.setPhase p).blc = s.blc := rfl
@[simp] theorem setPhase_busy (s : State) (p : Phase) : (s.setPhase p).busy = s.busy := rfl
@[simp] theorem setPhase_result (s : State) (p : Phase) : (s.setPhase p).result = s.result := rfl
@[simp] theorem setPhase_resValid (s : State) (p : Phase) : (s.setPhase p).resValid = s.resValid := rfl
@[simp] theorem setPhase_opr (s : State) (p : Phase) : (s.setPhase p).opr = s.opr := rfl
@[simp] theorem setPhase_eb (s : State) (p : Phase) : (s.setPhase p).eb = s.eb := rfl
@[simp] theorem setPhase_tp (s : State) (p : Phase) : (s.setPhase p).tp = s.tp := rfl
@[simp] theorem setPhase_ch (s : State) (p : Phase) : (s.setPhase p).ch = s.ch := rfl
@[simp] theorem setPhase_seq (s : State) (p : Phase) : (s.setPhase p).seq = { s.seq with ph := p } := rfl
@[simp] theorem setPhase_opBusCfg (s : State) (p : Phase) : (s.setPhase p).opBusCfg = s.opBusCfg := rfl
@[simp] theorem setPhase_host (s : State) (p : Phase) : (s.setPhase p).host = s.host := rfl
@[simp] theorem setPhase_answers (s : State) (p : Phase) : (s.setPhase p).answers = s.answers := rfl
@[simp] theorem setPhase_text (s : State) (p : Phase) : (s.setPhase p).text = s.text := rfl
@[simp] theorem setPhase_xp (s : State) (p : Phase) : (s.setPhase p).xp = s.xp := rfl
@[simp] theorem setPhase_latched (s : State) (p : Phase) : (s.setPhase p).latched = s.latched := rfl
@[simp] theorem setPhase_trace (s : State) (p : Phase) : (s.setPhase p).trace = s.trace := rfl
@[simp] theorem setPhase_draws (s : State) (p : Phase) : (s.setPhase p).draws = s.draws := rfl
@[simp] theorem setPhase_readBlc (s : State) (p : Phase) : (s.setPhase p).readBlc = s.readBlc := rfl

@[simp] theorem atLine_cfg (s : State) (l : Line) : (s.atLine l).cfg = s.cfg := rfl
@[simp] theorem atLine_busInstalled (s : State) (l : Line) : (s.atLine l).busInstalled = s.busInstalled := rfl
@[simp] theorem atLine_blc (s : State) (l : Line) : (s.atLine l).blc = s.blc := rfl
@[simp] theorem atLine_busy (s : State) (l : Line) : (s.atLine l).busy = s.busy := rfl
@[simp] theorem atLine_result (s : State) (l : Line) : (s.atLine l).result = s.result := rfl
@[simp] theorem atLine_resValid (s : State) (l : Line) : (s.atLine l).resValid = s.resValid := rfl
@[simp] theorem atLine_opr (s : State) (l : Line) : (s.atLine l).opr = s.opr := rfl
@[simp] theorem atLine_eb (s : State) (l : Line) : (s.atLine l).eb = s.eb := rfl
@[simp] theorem atLine_tp (s : State) (l : Line) : (s.atLine l).tp = s.tp := rfl
@[simp] theorem atLine_ch (s : State) (l : Line) : (s.atLine l).ch = s.ch := rfl
@[simp] theorem atLine_seq (s : State) (l : Line) : (s.atLine l).seq = { s.seq with mstep := mstepOf l.mstep s.seq.todo.tail, todo := s.seq.todo.tail } := rfl
@[simp] theorem atLine_opBusCfg (s : State) (l : Line) : (s.atLine l).opBusCfg = s.opBusCfg := rfl
@[simp] theorem atLine_host (s : State) (l : Line) : (s.atLine l).host = s.host := rfl
@[simp] theorem atLine_answers (s : State) (l : Line) : (s.atLine l).answers = s.answers := rfl
@[simp] theorem atLine_text (s : State) (l : Line) : (s.atLine l).text = s.text := rfl
@[simp] theorem atLine_xp (s : State) (l : Line) : (s.atLine l).xp = s.xp := rfl
@[simp] theorem atLine_latched (s : State) (l : Line) : (s.atLine l).latched = s.latched := rfl
@[simp] theorem atLine_trace (s : State) (l : Line) : (s.atLine l).trace = s.trace := rfl
@[simp] theorem atLine_draws (s : State) (l : Line) : (s.atLine l).draws = s.draws := rfl
@[simp] theorem atLine_readBlc (s : State) (l : Line) : (s.atLine l).readBlc = s.readBlc := rfl

@[simp] theorem load_cfg (s : State) (ls : List Line) : (s.load ls).cfg = s.cfg := rfl
@[simp] theorem load_busInstalled (s : State) (ls : List Line) : (s.load ls).busInstalled = s.busInstalled := rfl
@[simp] theorem load_blc (s : State) (ls : List Line) : (s.load ls).blc = s.blc := rfl
@[simp] theorem load_busy (s : State) (ls : List Line) : (s.load ls).busy = s.busy := rfl
@[simp] theorem load_result (s : State) (ls : List Line) : (s.load ls).result = s.result := rfl
@[simp] theorem load_resValid (s : State) (ls : List Line) : (s.load ls).resValid = s.resValid := rfl
@[simp] theorem load_opr (s : State) (ls : List Line) : (s.load ls).opr = s.opr := rfl
@[simp] theorem load_eb (s : State) (ls : List Line) : (s.load ls).eb = s.eb := rfl
@[simp] theorem load_tp (s : State) (ls : List Line) : (s.load ls).tp = s.tp := rfl
@[simp] theorem load_ch (s : State) (ls : List Line) : (s.load ls).ch = s.ch := rfl
@[simp] theorem load_seq (s : State) (ls : List Line) : (s.load ls).seq = { s.seq with mstep := mstepOf s.seq.mstep ls, todo := ls } := rfl
@[simp] theorem load_opBusCfg (s : State) (ls : List Line) : (s.load ls).opBusCfg = s.opBusCfg := rfl
@[simp] theorem load_host (s : State) (ls : List Line) : (s.load ls).host = s.host := rfl
@[simp] theorem load_answers (s : State) (ls : List Line) : (s.load ls).answers = s.answers := rfl
@[simp] theorem load_text (s : State) (ls : List Line) : (s.load ls).text = s.text := rfl
@[simp] theorem load_xp (s : State) (ls : List Line) : (s.load ls).xp = s.xp := rfl
@[simp] theorem load_latched (s : State) (ls : List Line) : (s.load ls).latched = s.latched := rfl
@[simp] theorem load_trace (s : State) (ls : List Line) : (s.load ls).trace = s.trace := rfl
@[simp] theorem load_draws (s : State) (ls : List Line) : (s.load ls).draws = s.draws := rfl
@[simp] theorem load_readBlc (s : State) (ls : List Line) : (s.load ls).readBlc = s.readBlc := rfl

@[simp] theorem landText_cfg (s : State) : (s.landText).cfg = s.cfg := rfl
@[simp] theorem landText_busInstalled (s : State) : (s.landText).busInstalled = s.busInstalled := rfl
@[simp] theorem landText_blc (s : State) : (s.landText).blc = s.blc := rfl
@[simp] theorem landText_busy (s : State) : (s.landText).busy = s.busy := rfl
@[simp] theorem landText_result (s : State) : (s.landText).result = s.result := rfl
@[simp] theorem landText_resValid (s : State) : (s.landText).resValid = s.resValid := rfl
@[simp] theorem landText_opr (s : State) : (s.landText).opr = s.opr := rfl
@[simp] theorem landText_eb (s : State) : (s.landText).eb = s.eb := rfl
@[simp] theorem landText_tp (s : State) : (s.landText).tp = s.tp := rfl
@[simp] theorem landText_ch (s : State) : (s.landText).ch = s.ch := rfl
@[simp] theorem landText_seq (s : State) : (s.landText).seq = s.seq := rfl
@[simp] theorem landText_opBusCfg (s : State) : (s.landText).opBusCfg = s.opBusCfg := rfl
@[simp] theorem landText_host (s : State) : (s.landText).host = (landChanges s.text s.host).2 := rfl
@[simp] theorem landText_answers (s : State) : (s.landText).answers = s.answers := rfl
@[simp] theorem landText_text (s : State) : (s.landText).text = (landChanges s.text s.host).1 := rfl
@[simp] theorem landText_xp (s : State) : (s.landText).xp = s.xp := rfl
@[simp] theorem landText_latched (s : State) : (s.landText).latched = s.latched := rfl
@[simp] theorem landText_trace (s : State) : (s.landText).trace = s.trace := rfl
@[simp] theorem landText_draws (s : State) : (s.landText).draws = s.draws := rfl
@[simp] theorem landText_readBlc (s : State) : (s.landText).readBlc = s.readBlc := rfl

@[simp] theorem readAt_cfg (s : State) (a : TextAddr) : (s.readAt a).cfg = s.cfg := rfl
@[simp] theorem readAt_busInstalled (s : State) (a : TextAddr) : (s.readAt a).busInstalled = s.busInstalled := rfl
@[simp] theorem readAt_blc (s : State) (a : TextAddr) : (s.readAt a).blc = s.blc := rfl
@[simp] theorem readAt_busy (s : State) (a : TextAddr) : (s.readAt a).busy = s.busy := rfl
@[simp] theorem readAt_result (s : State) (a : TextAddr) : (s.readAt a).result = s.result := rfl
@[simp] theorem readAt_resValid (s : State) (a : TextAddr) : (s.readAt a).resValid = s.resValid := rfl
@[simp] theorem readAt_opr (s : State) (a : TextAddr) : (s.readAt a).opr = s.opr := rfl
@[simp] theorem readAt_eb (s : State) (a : TextAddr) : (s.readAt a).eb = s.eb := rfl
@[simp] theorem readAt_tp (s : State) (a : TextAddr) : (s.readAt a).tp = s.tp := rfl
@[simp] theorem readAt_ch (s : State) (a : TextAddr) : (s.readAt a).ch = Memory.read s.text a.toNat := rfl
@[simp] theorem readAt_seq (s : State) (a : TextAddr) : (s.readAt a).seq = s.seq := rfl
@[simp] theorem readAt_opBusCfg (s : State) (a : TextAddr) : (s.readAt a).opBusCfg = s.opBusCfg := rfl
@[simp] theorem readAt_host (s : State) (a : TextAddr) : (s.readAt a).host = s.host := rfl
@[simp] theorem readAt_answers (s : State) (a : TextAddr) : (s.readAt a).answers = s.answers := rfl
@[simp] theorem readAt_text (s : State) (a : TextAddr) : (s.readAt a).text = s.text := rfl
@[simp] theorem readAt_xp (s : State) (a : TextAddr) : (s.readAt a).xp = s.xp := rfl
@[simp] theorem readAt_latched (s : State) (a : TextAddr) : (s.readAt a).latched = s.latched := rfl
@[simp] theorem readAt_trace (s : State) (a : TextAddr) : (s.readAt a).trace = s.trace ++ [.t a (Memory.read s.text a.toNat)] := rfl
@[simp] theorem readAt_draws (s : State) (a : TextAddr) : (s.readAt a).draws = s.draws := rfl
@[simp] theorem readAt_readBlc (s : State) (a : TextAddr) : (s.readAt a).readBlc = s.readBlc := rfl

@[simp] theorem setCfg_cfg (s : State) (c : DisplayConfig) : (s.setCfg c).cfg = c := rfl
@[simp] theorem setCfg_busInstalled (s : State) (c : DisplayConfig) : (s.setCfg c).busInstalled = s.busInstalled := rfl
@[simp] theorem setCfg_blc (s : State) (c : DisplayConfig) : (s.setCfg c).blc = s.blc := rfl
@[simp] theorem setCfg_busy (s : State) (c : DisplayConfig) : (s.setCfg c).busy = s.busy := rfl
@[simp] theorem setCfg_result (s : State) (c : DisplayConfig) : (s.setCfg c).result = s.result := rfl
@[simp] theorem setCfg_resValid (s : State) (c : DisplayConfig) : (s.setCfg c).resValid = s.resValid := rfl
@[simp] theorem setCfg_opr (s : State) (c : DisplayConfig) : (s.setCfg c).opr = s.opr := rfl
@[simp] theorem setCfg_eb (s : State) (c : DisplayConfig) : (s.setCfg c).eb = s.eb := rfl
@[simp] theorem setCfg_tp (s : State) (c : DisplayConfig) : (s.setCfg c).tp = s.tp := rfl
@[simp] theorem setCfg_ch (s : State) (c : DisplayConfig) : (s.setCfg c).ch = s.ch := rfl
@[simp] theorem setCfg_seq (s : State) (c : DisplayConfig) : (s.setCfg c).seq = s.seq := rfl
@[simp] theorem setCfg_opBusCfg (s : State) (c : DisplayConfig) : (s.setCfg c).opBusCfg = s.opBusCfg := rfl
@[simp] theorem setCfg_host (s : State) (c : DisplayConfig) : (s.setCfg c).host = s.host := rfl
@[simp] theorem setCfg_answers (s : State) (c : DisplayConfig) : (s.setCfg c).answers = s.answers := rfl
@[simp] theorem setCfg_text (s : State) (c : DisplayConfig) : (s.setCfg c).text = s.text := rfl
@[simp] theorem setCfg_xp (s : State) (c : DisplayConfig) : (s.setCfg c).xp = s.xp := rfl
@[simp] theorem setCfg_latched (s : State) (c : DisplayConfig) : (s.setCfg c).latched = s.latched := rfl
@[simp] theorem setCfg_trace (s : State) (c : DisplayConfig) : (s.setCfg c).trace = s.trace := rfl
@[simp] theorem setCfg_draws (s : State) (c : DisplayConfig) : (s.setCfg c).draws = s.draws := rfl
@[simp] theorem setCfg_readBlc (s : State) (c : DisplayConfig) : (s.setCfg c).readBlc = s.readBlc := rfl

@[simp] theorem setBacklight_cfg (s : State) (on : Bool) : (s.setBacklight on).cfg = s.cfg := rfl
@[simp] theorem setBacklight_busInstalled (s : State) (on : Bool) : (s.setBacklight on).busInstalled = s.busInstalled := rfl
@[simp] theorem setBacklight_blc (s : State) (on : Bool) : (s.setBacklight on).blc = backlightByte on := rfl
@[simp] theorem setBacklight_busy (s : State) (on : Bool) : (s.setBacklight on).busy = s.busy := rfl
@[simp] theorem setBacklight_result (s : State) (on : Bool) : (s.setBacklight on).result = s.result := rfl
@[simp] theorem setBacklight_resValid (s : State) (on : Bool) : (s.setBacklight on).resValid = s.resValid := rfl
@[simp] theorem setBacklight_opr (s : State) (on : Bool) : (s.setBacklight on).opr = s.opr := rfl
@[simp] theorem setBacklight_eb (s : State) (on : Bool) : (s.setBacklight on).eb = s.eb := rfl
@[simp] theorem setBacklight_tp (s : State) (on : Bool) : (s.setBacklight on).tp = s.tp := rfl
@[simp] theorem setBacklight_ch (s : State) (on : Bool) : (s.setBacklight on).ch = s.ch := rfl
@[simp] theorem setBacklight_seq (s : State) (on : Bool) : (s.setBacklight on).seq = s.seq := rfl
@[simp] theorem setBacklight_opBusCfg (s : State) (on : Bool) : (s.setBacklight on).opBusCfg = s.opBusCfg := rfl
@[simp] theorem setBacklight_host (s : State) (on : Bool) : (s.setBacklight on).host = s.host := rfl
@[simp] theorem setBacklight_answers (s : State) (on : Bool) : (s.setBacklight on).answers = s.answers := rfl
@[simp] theorem setBacklight_text (s : State) (on : Bool) : (s.setBacklight on).text = s.text := rfl
@[simp] theorem setBacklight_xp (s : State) (on : Bool) : (s.setBacklight on).xp = s.xp := rfl
@[simp] theorem setBacklight_latched (s : State) (on : Bool) : (s.setBacklight on).latched = s.latched := rfl
@[simp] theorem setBacklight_trace (s : State) (on : Bool) : (s.setBacklight on).trace = s.trace := rfl
@[simp] theorem setBacklight_draws (s : State) (on : Bool) : (s.setBacklight on).draws = s.draws := rfl

@[simp] theorem setInstalled_cfg (s : State) : (s.setInstalled).cfg = s.cfg := rfl
@[simp] theorem setInstalled_busInstalled (s : State) : (s.setInstalled).busInstalled = true := rfl
@[simp] theorem setInstalled_blc (s : State) : (s.setInstalled).blc = s.blc := rfl
@[simp] theorem setInstalled_busy (s : State) : (s.setInstalled).busy = s.busy := rfl
@[simp] theorem setInstalled_result (s : State) : (s.setInstalled).result = s.result := rfl
@[simp] theorem setInstalled_resValid (s : State) : (s.setInstalled).resValid = s.resValid := rfl
@[simp] theorem setInstalled_opr (s : State) : (s.setInstalled).opr = s.opr := rfl
@[simp] theorem setInstalled_eb (s : State) : (s.setInstalled).eb = s.eb := rfl
@[simp] theorem setInstalled_tp (s : State) : (s.setInstalled).tp = s.tp := rfl
@[simp] theorem setInstalled_ch (s : State) : (s.setInstalled).ch = s.ch := rfl
@[simp] theorem setInstalled_seq (s : State) : (s.setInstalled).seq = s.seq := rfl
@[simp] theorem setInstalled_opBusCfg (s : State) : (s.setInstalled).opBusCfg = s.opBusCfg := rfl
@[simp] theorem setInstalled_host (s : State) : (s.setInstalled).host = s.host := rfl
@[simp] theorem setInstalled_answers (s : State) : (s.setInstalled).answers = s.answers := rfl
@[simp] theorem setInstalled_text (s : State) : (s.setInstalled).text = s.text := rfl
@[simp] theorem setInstalled_xp (s : State) : (s.setInstalled).xp = s.xp := rfl
@[simp] theorem setInstalled_latched (s : State) : (s.setInstalled).latched = s.latched := rfl
@[simp] theorem setInstalled_trace (s : State) : (s.setInstalled).trace = s.trace := rfl
@[simp] theorem setInstalled_draws (s : State) : (s.setInstalled).draws = s.draws := rfl
@[simp] theorem setInstalled_readBlc (s : State) : (s.setInstalled).readBlc = s.readBlc := rfl

@[simp] theorem setTp_cfg (s : State) (p : TextAddr) : (s.setTp p).cfg = s.cfg := rfl
@[simp] theorem setTp_busInstalled (s : State) (p : TextAddr) : (s.setTp p).busInstalled = s.busInstalled := rfl
@[simp] theorem setTp_blc (s : State) (p : TextAddr) : (s.setTp p).blc = s.blc := rfl
@[simp] theorem setTp_busy (s : State) (p : TextAddr) : (s.setTp p).busy = s.busy := rfl
@[simp] theorem setTp_result (s : State) (p : TextAddr) : (s.setTp p).result = s.result := rfl
@[simp] theorem setTp_resValid (s : State) (p : TextAddr) : (s.setTp p).resValid = s.resValid := rfl
@[simp] theorem setTp_opr (s : State) (p : TextAddr) : (s.setTp p).opr = s.opr := rfl
@[simp] theorem setTp_eb (s : State) (p : TextAddr) : (s.setTp p).eb = s.eb := rfl
@[simp] theorem setTp_tp (s : State) (p : TextAddr) : (s.setTp p).tp = p := rfl
@[simp] theorem setTp_ch (s : State) (p : TextAddr) : (s.setTp p).ch = s.ch := rfl
@[simp] theorem setTp_seq (s : State) (p : TextAddr) : (s.setTp p).seq = s.seq := rfl
@[simp] theorem setTp_opBusCfg (s : State) (p : TextAddr) : (s.setTp p).opBusCfg = s.opBusCfg := rfl
@[simp] theorem setTp_host (s : State) (p : TextAddr) : (s.setTp p).host = s.host := rfl
@[simp] theorem setTp_answers (s : State) (p : TextAddr) : (s.setTp p).answers = s.answers := rfl
@[simp] theorem setTp_text (s : State) (p : TextAddr) : (s.setTp p).text = s.text := rfl
@[simp] theorem setTp_xp (s : State) (p : TextAddr) : (s.setTp p).xp = s.xp := rfl
@[simp] theorem setTp_latched (s : State) (p : TextAddr) : (s.setTp p).latched = s.latched := rfl
@[simp] theorem setTp_trace (s : State) (p : TextAddr) : (s.setTp p).trace = s.trace := rfl
@[simp] theorem setTp_draws (s : State) (p : TextAddr) : (s.setTp p).draws = s.draws := rfl
@[simp] theorem setTp_readBlc (s : State) (p : TextAddr) : (s.setTp p).readBlc = s.readBlc := rfl

@[simp] theorem setCh_cfg (s : State) (b : Byte) : (s.setCh b).cfg = s.cfg := rfl
@[simp] theorem setCh_busInstalled (s : State) (b : Byte) : (s.setCh b).busInstalled = s.busInstalled := rfl
@[simp] theorem setCh_blc (s : State) (b : Byte) : (s.setCh b).blc = s.blc := rfl
@[simp] theorem setCh_busy (s : State) (b : Byte) : (s.setCh b).busy = s.busy := rfl
@[simp] theorem setCh_result (s : State) (b : Byte) : (s.setCh b).result = s.result := rfl
@[simp] theorem setCh_resValid (s : State) (b : Byte) : (s.setCh b).resValid = s.resValid := rfl
@[simp] theorem setCh_opr (s : State) (b : Byte) : (s.setCh b).opr = s.opr := rfl
@[simp] theorem setCh_eb (s : State) (b : Byte) : (s.setCh b).eb = s.eb := rfl
@[simp] theorem setCh_tp (s : State) (b : Byte) : (s.setCh b).tp = s.tp := rfl
@[simp] theorem setCh_ch (s : State) (b : Byte) : (s.setCh b).ch = b := rfl
@[simp] theorem setCh_seq (s : State) (b : Byte) : (s.setCh b).seq = s.seq := rfl
@[simp] theorem setCh_opBusCfg (s : State) (b : Byte) : (s.setCh b).opBusCfg = s.opBusCfg := rfl
@[simp] theorem setCh_host (s : State) (b : Byte) : (s.setCh b).host = s.host := rfl
@[simp] theorem setCh_answers (s : State) (b : Byte) : (s.setCh b).answers = s.answers := rfl
@[simp] theorem setCh_text (s : State) (b : Byte) : (s.setCh b).text = s.text := rfl
@[simp] theorem setCh_xp (s : State) (b : Byte) : (s.setCh b).xp = s.xp := rfl
@[simp] theorem setCh_latched (s : State) (b : Byte) : (s.setCh b).latched = s.latched := rfl
@[simp] theorem setCh_trace (s : State) (b : Byte) : (s.setCh b).trace = s.trace := rfl
@[simp] theorem setCh_draws (s : State) (b : Byte) : (s.setCh b).draws = s.draws := rfl
@[simp] theorem setCh_readBlc (s : State) (b : Byte) : (s.setCh b).readBlc = s.readBlc := rfl

@[simp] theorem beginPulse_cfg (s : State) (n : Byte) (rs nsel : Bool) : (s.beginPulse n rs nsel).cfg = s.cfg := rfl
@[simp] theorem beginPulse_busInstalled (s : State) (n : Byte) (rs nsel : Bool) : (s.beginPulse n rs nsel).busInstalled = s.busInstalled := rfl
@[simp] theorem beginPulse_blc (s : State) (n : Byte) (rs nsel : Bool) : (s.beginPulse n rs nsel).blc = s.blc := rfl
@[simp] theorem beginPulse_busy (s : State) (n : Byte) (rs nsel : Bool) : (s.beginPulse n rs nsel).busy = s.busy := rfl
@[simp] theorem beginPulse_result (s : State) (n : Byte) (rs nsel : Bool) : (s.beginPulse n rs nsel).result = s.result := rfl
@[simp] theorem beginPulse_resValid (s : State) (n : Byte) (rs nsel : Bool) : (s.beginPulse n rs nsel).resValid = s.resValid := rfl
@[simp] theorem beginPulse_opr (s : State) (n : Byte) (rs nsel : Bool) : (s.beginPulse n rs nsel).opr = s.opr := rfl
@[simp] theorem beginPulse_eb (s : State) (n : Byte) (rs nsel : Bool) : (s.beginPulse n rs nsel).eb = compose s.readBlc n rs := rfl
@[simp] theorem beginPulse_tp (s : State) (n : Byte) (rs nsel : Bool) : (s.beginPulse n rs nsel).tp = s.tp := rfl
@[simp] theorem beginPulse_ch (s : State) (n : Byte) (rs nsel : Bool) : (s.beginPulse n rs nsel).ch = s.ch := rfl
@[simp] theorem beginPulse_seq (s : State) (n : Byte) (rs nsel : Bool) : (s.beginPulse n rs nsel).seq = { s.seq with nsel := nsel, ph := .wrHi } := rfl
@[simp] theorem beginPulse_opBusCfg (s : State) (n : Byte) (rs nsel : Bool) : (s.beginPulse n rs nsel).opBusCfg = s.opBusCfg := rfl
@[simp] theorem beginPulse_host (s : State) (n : Byte) (rs nsel : Bool) : (s.beginPulse n rs nsel).host = s.host := rfl
@[simp] theorem beginPulse_answers (s : State) (n : Byte) (rs nsel : Bool) : (s.beginPulse n rs nsel).answers = s.answers := rfl
@[simp] theorem beginPulse_text (s : State) (n : Byte) (rs nsel : Bool) : (s.beginPulse n rs nsel).text = s.text := rfl
@[simp] theorem beginPulse_xp (s : State) (n : Byte) (rs nsel : Bool) : (s.beginPulse n rs nsel).xp = s.xp := rfl
@[simp] theorem beginPulse_latched (s : State) (n : Byte) (rs nsel : Bool) : (s.beginPulse n rs nsel).latched = s.latched := rfl
@[simp] theorem beginPulse_trace (s : State) (n : Byte) (rs nsel : Bool) : (s.beginPulse n rs nsel).trace = s.trace := rfl
@[simp] theorem beginPulse_draws (s : State) (n : Byte) (rs nsel : Bool) : (s.beginPulse n rs nsel).draws = s.draws := rfl
@[simp] theorem beginPulse_readBlc (s : State) (n : Byte) (rs nsel : Bool) : (s.beginPulse n rs nsel).readBlc = s.readBlc := rfl

@[simp] theorem conclude_cfg (s : State) (r : Result) : (conclude r s).cfg = s.cfg := rfl
@[simp] theorem conclude_busInstalled (s : State) (r : Result) : (conclude r s).busInstalled = s.busInstalled := rfl
@[simp] theorem conclude_blc (s : State) (r : Result) : (conclude r s).blc = s.blc := rfl
@[simp] theorem conclude_busy (s : State) (r : Result) : (conclude r s).busy = false := rfl
@[simp] theorem conclude_result (s : State) (r : Result) : (conclude r s).result = r := rfl
@[simp] theorem conclude_resValid (s : State) (r : Result) : (conclude r s).resValid = true := rfl
@[simp] theorem conclude_opr (s : State) (r : Result) : (conclude r s).opr = s.opr := rfl
@[simp] theorem conclude_eb (s : State) (r : Result) : (conclude r s).eb = s.eb := rfl
@[simp] theorem conclude_tp (s : State) (r : Result) : (conclude r s).tp = s.tp := rfl
@[simp] theorem conclude_ch (s : State) (r : Result) : (conclude r s).ch = s.ch := rfl
@[simp] theorem conclude_seq (s : State) (r : Result) : (conclude r s).seq = .idle := rfl
@[simp] theorem conclude_opBusCfg (s : State) (r : Result) : (conclude r s).opBusCfg = s.opBusCfg := rfl
@[simp] theorem conclude_host (s : State) (r : Result) : (conclude r s).host = s.host := rfl
@[simp] theorem conclude_answers (s : State) (r : Result) : (conclude r s).answers = s.answers := rfl
@[simp] theorem conclude_text (s : State) (r : Result) : (conclude r s).text = s.text := rfl
@[simp] theorem conclude_xp (s : State) (r : Result) : (conclude r s).xp = s.xp := rfl
@[simp] theorem conclude_latched (s : State) (r : Result) : (conclude r s).latched = s.latched := rfl
@[simp] theorem conclude_trace (s : State) (r : Result) : (conclude r s).trace = s.trace := rfl
@[simp] theorem conclude_draws (s : State) (r : Result) : (conclude r s).draws = s.draws := rfl
@[simp] theorem conclude_readBlc (s : State) (r : Result) : (conclude r s).readBlc = s.readBlc := rfl

@[simp] theorem accept_cfg (s : State) (w : OpWord) (bus : BusBundle) (rest : List HostAct) : (accept w bus rest s).cfg = s.cfg := rfl
@[simp] theorem accept_busInstalled (s : State) (w : OpWord) (bus : BusBundle) (rest : List HostAct) : (accept w bus rest s).busInstalled = s.busInstalled := rfl
@[simp] theorem accept_blc (s : State) (w : OpWord) (bus : BusBundle) (rest : List HostAct) : (accept w bus rest s).blc = s.blc := rfl
@[simp] theorem accept_busy (s : State) (w : OpWord) (bus : BusBundle) (rest : List HostAct) : (accept w bus rest s).busy = true := rfl
@[simp] theorem accept_result (s : State) (w : OpWord) (bus : BusBundle) (rest : List HostAct) : (accept w bus rest s).result = s.result := rfl
@[simp] theorem accept_resValid (s : State) (w : OpWord) (bus : BusBundle) (rest : List HostAct) : (accept w bus rest s).resValid = false := rfl
@[simp] theorem accept_opr (s : State) (w : OpWord) (bus : BusBundle) (rest : List HostAct) : (accept w bus rest s).opr = w := rfl
@[simp] theorem accept_eb (s : State) (w : OpWord) (bus : BusBundle) (rest : List HostAct) : (accept w bus rest s).eb = s.eb := rfl
@[simp] theorem accept_tp (s : State) (w : OpWord) (bus : BusBundle) (rest : List HostAct) : (accept w bus rest s).tp = s.tp := rfl
@[simp] theorem accept_ch (s : State) (w : OpWord) (bus : BusBundle) (rest : List HostAct) : (accept w bus rest s).ch = s.ch := rfl
@[simp] theorem accept_seq (s : State) (w : OpWord) (bus : BusBundle) (rest : List HostAct) : (accept w bus rest s).seq = s.seq := rfl
@[simp] theorem accept_opBusCfg (s : State) (w : OpWord) (bus : BusBundle) (rest : List HostAct) : (accept w bus rest s).opBusCfg = sampleBusCfg w bus s := rfl
@[simp] theorem accept_host (s : State) (w : OpWord) (bus : BusBundle) (rest : List HostAct) : (accept w bus rest s).host = rest := rfl
@[simp] theorem accept_answers (s : State) (w : OpWord) (bus : BusBundle) (rest : List HostAct) : (accept w bus rest s).answers = s.answers := rfl
@[simp] theorem accept_text (s : State) (w : OpWord) (bus : BusBundle) (rest : List HostAct) : (accept w bus rest s).text = s.text := rfl
@[simp] theorem accept_xp (s : State) (w : OpWord) (bus : BusBundle) (rest : List HostAct) : (accept w bus rest s).xp = s.xp := rfl
@[simp] theorem accept_latched (s : State) (w : OpWord) (bus : BusBundle) (rest : List HostAct) : (accept w bus rest s).latched = s.latched := rfl
@[simp] theorem accept_trace (s : State) (w : OpWord) (bus : BusBundle) (rest : List HostAct) : (accept w bus rest s).trace = s.trace := rfl
@[simp] theorem accept_draws (s : State) (w : OpWord) (bus : BusBundle) (rest : List HostAct) : (accept w bus rest s).draws = s.draws := rfl
@[simp] theorem accept_readBlc (s : State) (w : OpWord) (bus : BusBundle) (rest : List HostAct) : (accept w bus rest s).readBlc = s.readBlc := rfl

@[simp] theorem quiet_cfg (s : State) (rest : List HostAct) : (quiet rest s).cfg = s.cfg := rfl
@[simp] theorem quiet_busInstalled (s : State) (rest : List HostAct) : (quiet rest s).busInstalled = s.busInstalled := rfl
@[simp] theorem quiet_blc (s : State) (rest : List HostAct) : (quiet rest s).blc = s.blc := rfl
@[simp] theorem quiet_busy (s : State) (rest : List HostAct) : (quiet rest s).busy = s.busy := rfl
@[simp] theorem quiet_result (s : State) (rest : List HostAct) : (quiet rest s).result = s.result := rfl
@[simp] theorem quiet_resValid (s : State) (rest : List HostAct) : (quiet rest s).resValid = false := rfl
@[simp] theorem quiet_opr (s : State) (rest : List HostAct) : (quiet rest s).opr = s.opr := rfl
@[simp] theorem quiet_eb (s : State) (rest : List HostAct) : (quiet rest s).eb = s.eb := rfl
@[simp] theorem quiet_tp (s : State) (rest : List HostAct) : (quiet rest s).tp = s.tp := rfl
@[simp] theorem quiet_ch (s : State) (rest : List HostAct) : (quiet rest s).ch = s.ch := rfl
@[simp] theorem quiet_seq (s : State) (rest : List HostAct) : (quiet rest s).seq = s.seq := rfl
@[simp] theorem quiet_opBusCfg (s : State) (rest : List HostAct) : (quiet rest s).opBusCfg = s.opBusCfg := rfl
@[simp] theorem quiet_host (s : State) (rest : List HostAct) : (quiet rest s).host = rest := rfl
@[simp] theorem quiet_answers (s : State) (rest : List HostAct) : (quiet rest s).answers = s.answers := rfl
@[simp] theorem quiet_text (s : State) (rest : List HostAct) : (quiet rest s).text = s.text := rfl
@[simp] theorem quiet_xp (s : State) (rest : List HostAct) : (quiet rest s).xp = s.xp := rfl
@[simp] theorem quiet_latched (s : State) (rest : List HostAct) : (quiet rest s).latched = s.latched := rfl
@[simp] theorem quiet_trace (s : State) (rest : List HostAct) : (quiet rest s).trace = s.trace := rfl
@[simp] theorem quiet_draws (s : State) (rest : List HostAct) : (quiet rest s).draws = s.draws := rfl
@[simp] theorem quiet_readBlc (s : State) (rest : List HostAct) : (quiet rest s).readBlc = s.readBlc := rfl

@[simp] theorem pokeText_cfg (s : State) (a : TextAddr) (b : Byte) : (pokeText a b s).cfg = s.cfg := rfl
@[simp] theorem pokeText_busInstalled (s : State) (a : TextAddr) (b : Byte) : (pokeText a b s).busInstalled = s.busInstalled := rfl
@[simp] theorem pokeText_blc (s : State) (a : TextAddr) (b : Byte) : (pokeText a b s).blc = s.blc := rfl
@[simp] theorem pokeText_busy (s : State) (a : TextAddr) (b : Byte) : (pokeText a b s).busy = s.busy := rfl
@[simp] theorem pokeText_result (s : State) (a : TextAddr) (b : Byte) : (pokeText a b s).result = s.result := rfl
@[simp] theorem pokeText_resValid (s : State) (a : TextAddr) (b : Byte) : (pokeText a b s).resValid = s.resValid := rfl
@[simp] theorem pokeText_opr (s : State) (a : TextAddr) (b : Byte) : (pokeText a b s).opr = s.opr := rfl
@[simp] theorem pokeText_eb (s : State) (a : TextAddr) (b : Byte) : (pokeText a b s).eb = s.eb := rfl
@[simp] theorem pokeText_tp (s : State) (a : TextAddr) (b : Byte) : (pokeText a b s).tp = s.tp := rfl
@[simp] theorem pokeText_ch (s : State) (a : TextAddr) (b : Byte) : (pokeText a b s).ch = s.ch := rfl
@[simp] theorem pokeText_seq (s : State) (a : TextAddr) (b : Byte) : (pokeText a b s).seq = s.seq := rfl
@[simp] theorem pokeText_opBusCfg (s : State) (a : TextAddr) (b : Byte) : (pokeText a b s).opBusCfg = s.opBusCfg := rfl
@[simp] theorem pokeText_host (s : State) (a : TextAddr) (b : Byte) : (pokeText a b s).host = s.host := rfl
@[simp] theorem pokeText_answers (s : State) (a : TextAddr) (b : Byte) : (pokeText a b s).answers = s.answers := rfl
@[simp] theorem pokeText_text (s : State) (a : TextAddr) (b : Byte) : (pokeText a b s).text = Memory.write s.text a.toNat b := rfl
@[simp] theorem pokeText_xp (s : State) (a : TextAddr) (b : Byte) : (pokeText a b s).xp = s.xp := rfl
@[simp] theorem pokeText_latched (s : State) (a : TextAddr) (b : Byte) : (pokeText a b s).latched = s.latched := rfl
@[simp] theorem pokeText_trace (s : State) (a : TextAddr) (b : Byte) : (pokeText a b s).trace = s.trace := rfl
@[simp] theorem pokeText_draws (s : State) (a : TextAddr) (b : Byte) : (pokeText a b s).draws = s.draws := rfl
@[simp] theorem pokeText_readBlc (s : State) (a : TextAddr) (b : Byte) : (pokeText a b s).readBlc = s.readBlc := rfl

@[simp] theorem applyReset_cfg (s : State) : (applyReset s).cfg = .zero := rfl
@[simp] theorem applyReset_busInstalled (s : State) : (applyReset s).busInstalled = false := rfl
@[simp] theorem applyReset_blc (s : State) : (applyReset s).blc = 0 := rfl
@[simp] theorem applyReset_busy (s : State) : (applyReset s).busy = false := rfl
@[simp] theorem applyReset_result (s : State) : (applyReset s).result = { kind := .ok, cause := 0 } := rfl
@[simp] theorem applyReset_resValid (s : State) : (applyReset s).resValid = false := rfl
@[simp] theorem applyReset_opr (s : State) : (applyReset s).opr = 0 := rfl
@[simp] theorem applyReset_eb (s : State) : (applyReset s).eb = 0 := rfl
@[simp] theorem applyReset_tp (s : State) : (applyReset s).tp = 0 := rfl
@[simp] theorem applyReset_ch (s : State) : (applyReset s).ch = 0 := rfl
@[simp] theorem applyReset_seq (s : State) : (applyReset s).seq = .idle := rfl
@[simp] theorem applyReset_opBusCfg (s : State) : (applyReset s).opBusCfg = s.opBusCfg := rfl
@[simp] theorem applyReset_host (s : State) : (applyReset s).host = s.host := rfl
@[simp] theorem applyReset_answers (s : State) : (applyReset s).answers = s.answers := rfl
@[simp] theorem applyReset_text (s : State) : (applyReset s).text = s.text := rfl
@[simp] theorem applyReset_xp (s : State) : (applyReset s).xp = s.xp := rfl
@[simp] theorem applyReset_latched (s : State) : (applyReset s).latched = s.latched := rfl
@[simp] theorem applyReset_trace (s : State) : (applyReset s).trace = s.trace := rfl
@[simp] theorem applyReset_draws (s : State) : (applyReset s).draws = s.draws := rfl

end Sys2Proof.Machine
end

