-- ==== Sys2Proof/Laws/Ops.lean ====
section
/-! SUPPORT. What each shared operation can do, said once: the transport's answers, the bus write, one action, one line, the
run of a body, its end. Later proofs cite these and do not unfold the operations. -/

namespace Sys2Proof.Machine

/-! ### The answers of the transport -/

theorem nextAnswer_eq (s : State) : s.nextAnswer = s.answerAt 0 := by
  simp only [State.nextAnswer, State.answerAt, List.headD_eq_head?_getD, List.head?_eq_getElem?, Nat.add_zero]
  cases s.answers[0]? <;> rfl

/-- The answers depend on the list and the counter alone. -/
theorem answerAt_congr {s t : State} (ha : s.answers = t.answers) (hd : s.draws = t.draws) (k : Nat) :
    s.answerAt k = t.answerAt k := by
  simp only [State.answerAt, ha, hd]

theorem answersOk_congr {s t : State} (ha : s.answers = t.answers) (hd : s.draws = t.draws) {n : Nat} :
    s.answersOk n ↔ t.answersOk n := by
  simp only [State.answersOk, answerAt_congr ha hd]

theorem answerAt_drop {s t : State} {n : Nat} (ha : t.answers = s.answers.drop n) (hd : t.draws = s.draws + n)
    (k : Nat) : t.answerAt k = s.answerAt (n + k) := by
  simp only [State.answerAt, ha, hd, List.getElem?_drop, Nat.add_assoc]

theorem answersOk_drop {s t : State} {n m : Nat} (ha : t.answers = s.answers.drop n) (hd : t.draws = s.draws + n)
    (h : s.answersOk (n + m)) : t.answersOk m := fun k hk => by
  rw [answerAt_drop ha hd]; exact h _ (by omega)

theorem answersOk_mono {s : State} {n m : Nat} (h : s.answersOk n) (hm : m ≤ n) : s.answersOk m :=
  fun k hk => h k (by omega)

@[simp] theorem answerAt_emit (s : State) (e : Event) (k : Nat) : (s.emit e).answerAt k = s.answerAt k := rfl
@[simp] theorem answerAt_drivePins (s : State) (v : Byte) (k : Nat) : (s.drivePins v).answerAt k = s.answerAt k := rfl
@[simp] theorem answerAt_setPhase (s : State) (p : Phase) (k : Nat) : (s.setPhase p).answerAt k = s.answerAt k := rfl
@[simp] theorem answerAt_atLine (s : State) (l : Line) (k : Nat) : (s.atLine l).answerAt k = s.answerAt k := rfl
@[simp] theorem answerAt_load (s : State) (ls : List Line) (k : Nat) : (s.load ls).answerAt k = s.answerAt k := rfl
@[simp] theorem answerAt_setCfg (s : State) (c : DisplayConfig) (k : Nat) : (s.setCfg c).answerAt k = s.answerAt k := rfl
@[simp] theorem answerAt_setBacklight (s : State) (on : Bool) (k : Nat) : (s.setBacklight on).answerAt k = s.answerAt k := rfl
@[simp] theorem answerAt_setInstalled (s : State) (k : Nat) : (s.setInstalled).answerAt k = s.answerAt k := rfl
@[simp] theorem answerAt_setTp (s : State) (p : TextAddr) (k : Nat) : (s.setTp p).answerAt k = s.answerAt k := rfl
@[simp] theorem answerAt_setCh (s : State) (b : Byte) (k : Nat) : (s.setCh b).answerAt k = s.answerAt k := rfl
@[simp] theorem answerAt_beginPulse (s : State) (n : Byte) (rs nsel : Bool) (k : Nat) : (s.beginPulse n rs nsel).answerAt k = s.answerAt k := rfl
@[simp] theorem answerAt_pins (s : State) (v : Byte) (ns : List (Bool × Nibble)) (k : Nat) : (s.pins v ns).answerAt k = s.answerAt k := rfl

@[simp] theorem answerAt_useAnswer (s : State) (k : Nat) : s.useAnswer.answerAt k = s.answerAt (k + 1) := by
  rw [answerAt_drop (s := s) (n := 1) (by simp) rfl, Nat.add_comm]

@[simp] theorem answerAt_after (s : State) (n : Nat) (es : List Event) (k : Nat) :
    (s.after n es).answerAt k = s.answerAt (n + k) := answerAt_drop rfl rfl k

/-! ### The bus -/

/-- A write answered `ok` sets the pins. -/
theorem busWrite_ok {v : Byte} {s : State} (h : s.answerAt 0 = .ok) :
    busWrite v s = .ok ((s.useAnswer.emit (.w s.cfg.addr v .ok)).drivePins v) := by
  simp only [busWrite, nextAnswer_eq, h]

/-- Driving the pins where the byte reached them. -/
theorem drivePinsIf_eq (s : State) (reached : Bool) (v : Byte) :
    s.drivePinsIf reached v = if reached then s.drivePins v else s := by
  cases reached <;> simp [State.drivePinsIf, State.drivePins]

/-- A write answered with an error ends in that error; the pins are as before or driven, a free value. -/
theorem busWrite_err {v c : Byte} {s : State} (h : s.answerAt 0 = .err c) :
    busWrite v s = .err (resBusError c)
      (if Config.failedWriteReached s.draws then (s.useAnswer.emit (.w s.cfg.addr v (.err c))).drivePins v
       else s.useAnswer.emit (.w s.cfg.addr v (.err c))) := by
  simp only [busWrite, nextAnswer_eq, h, drivePinsIf_eq]

theorem busConfigure_ok {s : State} (h : s.answerAt 0 = .ok) :
    busConfigure s = .ok (s.useAnswer.emit (.cfg s.cfg.bus .ok)).setInstalled := by
  simp only [busConfigure, nextAnswer_eq, h]

theorem busConfigure_err {c : Byte} {s : State} (h : s.answerAt 0 = .err c) :
    busConfigure s = .err (resBusError c) (s.useAnswer.emit (.cfg s.cfg.bus (.err c))) := by
  simp only [busConfigure, nextAnswer_eq, h]

/-- One bus event, answered and recorded. -/
theorem useAnswer_emit (s : State) (e : Event) : s.useAnswer.emit e = s.after 1 [e] := by
  simp [State.useAnswer, State.emit, State.after]

/-- The backlight byte on the pins: EN is 0 in it, so it latches a nibble 0 with RS 0 exactly where EN was high (40_register
R111 (c), (d)). -/
theorem drivePins_backlight (s : State) (on : Bool) :
    s.drivePins (backlightByte on) = s.pins (if on then 0x08 else 0x00) (lowEdge s.xp) := by
  have h : ∀ x : Byte, ∀ on : Bool, enFalls x (backlightByte on) = decide (x &&& 0x04#8 ≠ 0#8) ∧
      rsPin (backlightByte on) = false ∧ dataPins (backlightByte on) = 0 := by decide
  obtain ⟨h1, h2, h3⟩ := h s.xp on
  by_cases hx : s.xp &&& 0x04#8 = 0#8 <;> cases on <;>
    simp_all [State.drivePins, State.pins, lowEdge, backlightByte, params]

theorem backlightByte_eq (on : Bool) : backlightByte on = if on then 0x08 else 0x00 := by cases on <;> rfl

/-- The write of the backlight byte, delivered. -/
theorem busWrite_backlight_ok {s : State} {on : Bool} (h : s.answerAt 0 = .ok) :
    busWrite (backlightByte on) s = .ok ((s.after 1 [.w s.cfg.addr (if on then 0x08 else 0x00) .ok]).pins
      (if on then 0x08 else 0x00) (lowEdge s.xp)) := by
  rw [busWrite_ok h, drivePins_backlight, useAnswer_emit, backlightByte_eq]; rfl

/-- The write of the backlight byte, failing: it reached the pins or not. -/
theorem busWrite_backlight_err {s : State} {on : Bool} {c : Byte} (h : s.answerAt 0 = .err c) :
    ∃ x ns, ((x = s.xp ∧ ns = []) ∨ (x = (if on then 0x08 else 0x00) ∧ ns = lowEdge s.xp)) ∧
      busWrite (backlightByte on) s = .err (resBusError c)
        ((s.after 1 [.w s.cfg.addr (if on then 0x08 else 0x00) (.err c)]).pins x ns) := by
  rw [busWrite_err h, drivePins_backlight, useAnswer_emit, backlightByte_eq]
  by_cases hr : Config.failedWriteReached s.draws = true
  · exact ⟨_, _, .inr ⟨rfl, rfl⟩, by rw [if_pos hr]; rfl⟩
  · exact ⟨s.xp, [], .inl ⟨rfl, rfl⟩, by rw [if_neg hr]; simp [State.pins, State.after]⟩

/-- What driving the pins can do: the pins take the byte, and at most one nibble is latched. -/
theorem drivePins_cases (s : State) (v : Byte) :
    s.drivePins v = s.pins v [] ∨ s.drivePins v = s.pins v [(rsPin v, dataPins v)] := by
  by_cases h : enFalls s.xp v = true
  · right; simp [State.drivePins, State.pins, h]
  · left; simp [State.drivePins, State.pins, h]

/-! ### Runs of lines -/

@[simp] theorem runLines_nil (s : State) : runLines [] s = .ok s := rfl

theorem runLines_cons_ok {l : Line} {rest : List Line} {s s' : State} (h : perform l.act (s.atLine l) = .ok s') :
    runLines (l :: rest) s = runLines rest s' := by
  simp only [runLines, performLine, h]

/-- A failing line ends the run; with the default parameter nothing follows the failing event, in CLEAR either (log 12). -/
theorem runLines_cons_err {l : Line} {rest : List Line} {s s' : State} {r : Result}
    (h : perform l.act (s.atLine l) = .err r s') : runLines (l :: rest) s = .err r s' := by
  have hp : params.clearWaitOnError = false := rfl
  simp only [runLines, performLine, h, hp, Bool.and_false, Bool.false_eq_true, if_false]

/-- A line is its action, at its place; with the default parameter nothing follows a failing event (log 12). -/
theorem performLine_eq (l : Line) (s : State) : performLine l s = perform l.act (s.atLine l) := by
  have hp : params.clearWaitOnError = false := rfl
  unfold performLine
  cases perform l.act (s.atLine l) <;> simp [hp]

/-- Two runs in a row are the run of both lists. -/
theorem runLines_append (xs ys : List Line) (s : State) :
    runLines (xs ++ ys) s = match runLines xs s with
      | .ok s' => runLines ys s'
      | .err r s' => .err r s' := by
  induction xs generalizing s with
  | nil => rfl
  | cons l xs ih =>
    simp only [List.cons_append, runLines]
    cases performLine l s with
    | ok s' => exact ih s'
    | err r s' => rfl

/-- The state an action ends in, whether it went well or not. -/
def ActEnd.state : ActEnd → State
  | .ok s => s
  | .err _ s => s

/-- A property that every action keeps, and the sequencer's own moves keep, holds at the end of a run. -/
theorem runLines_keeps {P : State → Prop} (hact : ∀ l s, P s → P (performLine l s).state) (ls : List Line) (s : State)
    (h : P s) : P (runLines ls s).state := by
  induction ls generalizing s with
  | nil => exact h
  | cons l rest ih =>
    have hl := hact l s h
    simp only [runLines]
    cases hp : performLine l s with
    | ok s' => rw [hp] at hl; exact ih s' hl
    | err r s' => rw [hp] at hl; exact hl

/-! ### The end of an operation -/

theorem conclude_eq_ended (r : Result) (s : State) : conclude r s = s.ended r := rfl

@[simp] theorem concludeRun_ok (s : State) : concludeRun (.ok s) = s.ended resOk := rfl
@[simp] theorem concludeRun_err (r : Result) (s : State) : concludeRun (.err r s) = s.ended r := rfl

/-- The end of an operation forgets where the sequencer was, what it ended with before, and BUSY. -/
theorem ended_congr (s : State) (q : Seq) (r : Result) : State.ended { s with seq := q } r = s.ended r := rfl

/-- However a body ends, the engine is idle and the strobe is up. -/
theorem concludeRun_idle (e : ActEnd) :
    (concludeRun e).busy = false ∧ (concludeRun e).seq = .idle ∧ (concludeRun e).resValid = true := by
  cases e <;> exact ⟨rfl, rfl, rfl⟩

/-! ### The gate -/

/-- The not-ready gate, closed (60_exceptions R194). -/
theorem gated_closed {body : State → Except Refusal (List Line)} {s : State} (h : s.busInstalled = false) :
    gated body s = .next (s.ended (resBusError causeNotReady)) := by
  simp [gated, h, conclude_eq_ended]

/-- The not-ready gate, open, with a body. -/
theorem gated_open {body : State → Except Refusal (List Line)} {s : State} {ls : List Line} (h : s.busInstalled = true)
    (hb : body s = .ok ls) : gated body s = .next (operate ls s) := by
  simp [gated, h, hb]

/-- All the gate can answer. -/
theorem gated_cases (body : State → Except Refusal (List Line)) (s : State) :
    (s.busInstalled = false ∧ gated body s = .next (s.ended (resBusError causeNotReady))) ∨
    (s.busInstalled = true ∧ ∃ ls, body s = .ok ls ∧ gated body s = .next (operate ls s)) ∨
    (s.busInstalled = true ∧ ∃ r, body s = .error r ∧ gated body s = .refused r) := by
  cases h : s.busInstalled with
  | false => exact .inl ⟨rfl, gated_closed h⟩
  | true =>
    cases hb : body s with
    | ok ls => exact .inr (.inl ⟨rfl, ls, rfl, gated_open h hb⟩)
    | error r => exact .inr (.inr ⟨rfl, r, rfl, by simp [gated, h, hb]⟩)

end Sys2Proof.Machine
end

