-- ==== Sys2Proof/Laws/Exec.lean ====
section
/-! SUPPORT. What exec is for each operation, and all that it can answer: one lemma per constructor, then one for all. -/

namespace Sys2Proof.Machine

theorem exec_wrnib (val : Byte) (rs : Bool) (s : State) :
    exec (.wrnib val rs) s = gated (fun _ => .ok (wrnibBody val rs false)) s := rfl
theorem exec_wrbyte (val : Byte) (rs : Bool) (s : State) :
    exec (.wrbyte val rs) s = gated (fun _ => .ok (wrbyteBody val rs)) s := rfl
theorem exec_setbl (on : Bool) (s : State) : exec (.setbl on) s = gated (fun _ => .ok (setblBody on)) s := rfl
theorem exec_clear (s : State) : exec .clear s = gated (fun _ => .ok clearBody) s := rfl
theorem exec_inithw (s : State) : exec .inithw s = gated (fun _ => .ok inithwBody) s := rfl
theorem exec_init (cols rows : Byte) (addr : DevAddr) (blon : Bool) (s : State) :
    exec (.init cols rows addr blon) s = .next (operate (initBody cols rows addr blon) s) := rfl
theorem exec_setcur (col row : Byte) (s : State) :
    exec (.setcur col row) s = gated (fun s => setcurBody s.cfg col row) s := rfl
theorem exec_print (p : TextAddr) (s : State) : exec (.print p) s = gated (fun s => printBody s.text s.host p) s := rfl
theorem exec_disptext (p : TextAddr) (s : State) :
    exec (.disptext p) s = gated (fun s => disptextBody s.cfg s.text s.host p) s := rfl

/-- The body of an operation in a state, as the sequencer gets it (log 8, log 9 for the two refusals). -/
def bodyOf : Instr → State → Except Refusal (List Line)
  | .wrnib val rs, _ => .ok (wrnibBody val rs false)
  | .wrbyte val rs, _ => .ok (wrbyteBody val rs)
  | .setbl on, _ => .ok (setblBody on)
  | .clear, _ => .ok clearBody
  | .inithw, _ => .ok inithwBody
  | .init cols rows addr blon, _ => .ok (initBody cols rows addr blon)
  | .setcur col row, s => setcurBody s.cfg col row
  | .print p, s => printBody s.text s.host p
  | .disptext p, s => disptextBody s.cfg s.text s.host p

/-- ALL THAT exec CAN ANSWER: the gate's NOT_READY, the run of the operation's body, or the refusal of a body the spec gives no
value. -/
theorem exec_cases (i : Instr) (s : State) :
    (isInit i = false ∧ s.busInstalled = false ∧ exec i s = .next (s.ended (resBusError causeNotReady))) ∨
    ((isInit i = true ∨ s.busInstalled = true) ∧ ∃ ls, bodyOf i s = .ok ls ∧ exec i s = .next (operate ls s)) ∨
    (isInit i = false ∧ s.busInstalled = true ∧ ∃ r, bodyOf i s = .error r ∧ exec i s = .refused r) := by
  have key : ∀ body, bodyOf i s = body s → exec i s = gated body s → isInit i = false →
      (isInit i = false ∧ s.busInstalled = false ∧ exec i s = .next (s.ended (resBusError causeNotReady))) ∨
      ((isInit i = true ∨ s.busInstalled = true) ∧ ∃ ls, bodyOf i s = .ok ls ∧ exec i s = .next (operate ls s)) ∨
      (isInit i = false ∧ s.busInstalled = true ∧ ∃ r, bodyOf i s = .error r ∧ exec i s = .refused r) := by
    intro body h1 h2 h3
    rw [h1, h2]
    rcases gated_cases body s with ⟨h, e⟩ | ⟨h, e⟩ | ⟨h, e⟩
    · exact .inl ⟨h3, h, e⟩
    · exact .inr (.inl ⟨.inr h, e⟩)
    · exact .inr (.inr ⟨h3, h, e⟩)
  cases i with
  | init cols rows addr blon => exact .inr (.inl ⟨.inl rfl, _, rfl, rfl⟩)
  | wrnib val rs => exact key _ rfl (exec_wrnib val rs s) rfl
  | wrbyte val rs => exact key _ rfl (exec_wrbyte val rs s) rfl
  | setbl on => exact key _ rfl (exec_setbl on s) rfl
  | clear => exact key _ rfl (exec_clear s) rfl
  | inithw => exact key _ rfl (exec_inithw s) rfl
  | setcur col row => exact key (fun s => setcurBody s.cfg col row) rfl (exec_setcur col row s) rfl
  | print p => exact key (fun s => printBody s.text s.host p) rfl (exec_print p s) rfl
  | disptext p => exact key (fun s => disptextBody s.cfg s.text s.host p) rfl (exec_disptext p s) rfl

/-- An operation that answers a next state ended in one of two ways. -/
theorem exec_next_cases {i : Instr} {s t : State} (h : exec i s = .next t) :
    (isInit i = false ∧ s.busInstalled = false ∧ t = s.ended (resBusError causeNotReady)) ∨
    ((isInit i = true ∨ s.busInstalled = true) ∧ ∃ ls, bodyOf i s = .ok ls ∧ t = operate ls s) := by
  rcases exec_cases i s with ⟨a, b, e⟩ | ⟨a, ls, b, e⟩ | ⟨-, -, r, -, e⟩ <;> rw [e] at h
  · exact .inl ⟨a, b, (Host.Outcome.next.inj h).symm⟩
  · exact .inr ⟨a, ls, b, (Host.Outcome.next.inj h).symm⟩
  · cases h

end Sys2Proof.Machine
end

