-- ==== Sys2Proof/Laws/Memory.lean ====
section
/-! SUPPORT. The text space: reading after a write, the canonical form, the string at a pointer. -/

namespace Sys2Proof.Machine

theorem textSize_eq : textSize = 65536 := rfl

/-- The bounds of the values whose width is a parameter (00_scope R5), as numbers. -/
theorem textAddr_lt (p : TextAddr) : p.toNat < 65536 := p.isLt
theorem rowCount_lt (r : RowCount) : r.toNat < 256 := r.isLt
theorem colCount_lt (c : ColCount) : c.toNat < 256 := c.isLt

theorem wfFrom_mono {m : Memory} {lo lo' : Nat} (h : Memory.wfFrom lo m = true) (hl : lo' ≤ lo) :
    Memory.wfFrom lo' m = true := by
  cases m with
  | nil => rfl
  | cons kb rest =>
    obtain ⟨k, b⟩ := kb
    simp only [Memory.wfFrom, Bool.and_eq_true, decide_eq_true_eq] at h ⊢
    exact ⟨⟨⟨by omega, h.1.1.2⟩, h.1.2⟩, h.2⟩

/-- Below its first address a memory in canonical form lists nothing. -/
theorem read_below {m : Memory} {lo a : Nat} (h : Memory.wfFrom lo m = true) (ha : a < lo) :
    Memory.read m a = unlistedByte := by
  induction m generalizing lo with
  | nil => rfl
  | cons kb rest ih =>
    obtain ⟨k, b⟩ := kb
    simp only [Memory.wfFrom, Bool.and_eq_true, decide_eq_true_eq] at h
    rw [Memory.read, if_neg (by omega)]
    exact ih h.2 (by omega)

/-- A write keeps the canonical form. -/
theorem wfFrom_write {m : Memory} {lo a : Nat} {b : Byte} (h : Memory.wfFrom lo m = true) (ha : lo ≤ a)
    (hs : a < textSize) : Memory.wfFrom lo (Memory.write m a b) = true := by
  induction m generalizing lo with
  | nil =>
    rw [Memory.write]
    by_cases hb : b = unlistedByte
    · simp [hb, Memory.wfFrom]
    · simp [hb, Memory.wfFrom, ha, hs]
  | cons kb rest ih =>
    obtain ⟨k, v⟩ := kb
    have h' := h
    simp only [Memory.wfFrom, Bool.and_eq_true, decide_eq_true_eq] at h
    obtain ⟨⟨⟨h1, h2⟩, h3⟩, h4⟩ := h
    rw [Memory.write]
    by_cases hlt : a < k
    · rw [if_pos hlt]
      by_cases hb : b = unlistedByte
      · rw [if_pos hb]; exact h'
      · rw [if_neg hb]
        simp only [Memory.wfFrom, Bool.and_eq_true, decide_eq_true_eq]
        exact ⟨⟨⟨ha, hs⟩, hb⟩, ⟨⟨by omega, h2⟩, h3⟩, h4⟩
    · rw [if_neg hlt]
      by_cases heq : a = k
      · subst heq
        rw [if_pos rfl]
        by_cases hb : b = unlistedByte
        · rw [if_pos hb]; exact wfFrom_mono h4 (by omega)
        · rw [if_neg hb]
          simp only [Memory.wfFrom, Bool.and_eq_true, decide_eq_true_eq]
          exact ⟨⟨⟨ha, hs⟩, hb⟩, h4⟩
      · rw [if_neg heq]
        simp only [Memory.wfFrom, Bool.and_eq_true, decide_eq_true_eq]
        exact ⟨⟨⟨h1, h2⟩, h3⟩, ih h4 (by omega)⟩

/-- Every memory operation keeps the canonical form: the one that writes. -/
theorem wf_write {m : Memory} {a : Nat} {b : Byte} (h : Memory.wf m = true) (hs : a < textSize) :
    Memory.wf (Memory.write m a b) = true := wfFrom_write h (Nat.zero_le _) hs

/-- The byte written reads back. -/
theorem read_write_same {m : Memory} {lo a : Nat} {b : Byte} (h : Memory.wfFrom lo m = true) :
    Memory.read (Memory.write m a b) a = b := by
  induction m generalizing lo with
  | nil =>
    rw [Memory.write]
    by_cases hb : b = unlistedByte
    · rw [if_pos hb, hb]; rfl
    · rw [if_neg hb, Memory.read, if_pos rfl]
  | cons kb rest ih =>
    obtain ⟨k, v⟩ := kb
    simp only [Memory.wfFrom, Bool.and_eq_true, decide_eq_true_eq] at h
    rw [Memory.write]
    by_cases hlt : a < k
    · rw [if_pos hlt]
      by_cases hb : b = unlistedByte
      · rw [if_pos hb, Memory.read, if_neg (by omega), read_below h.2 (by omega), hb]
      · rw [if_neg hb, Memory.read, if_pos rfl]
    · rw [if_neg hlt]
      by_cases heq : a = k
      · subst heq
        rw [if_pos rfl]
        by_cases hb : b = unlistedByte
        · rw [if_pos hb, read_below h.2 (by omega), hb]
        · rw [if_neg hb, Memory.read, if_pos rfl]
      · rw [if_neg heq, Memory.read, if_neg (by omega)]
        exact ih h.2

/-- Every other byte is unchanged. -/
theorem read_write_other {m : Memory} {a x : Nat} {b : Byte} (hx : x ≠ a) :
    Memory.read (Memory.write m a b) x = Memory.read m x := by
  have hx' : ¬ a = x := fun e => hx e.symm
  induction m with
  | nil =>
    rw [Memory.write]
    by_cases hb : b = unlistedByte
    · rw [if_pos hb]
    · simp [hb, Memory.read, hx']
  | cons kb rest ih =>
    obtain ⟨k, v⟩ := kb
    rw [Memory.write]
    by_cases hlt : a < k
    · rw [if_pos hlt]
      by_cases hb : b = unlistedByte
      · rw [if_pos hb]
      · rw [if_neg hb, Memory.read, if_neg hx']
    · rw [if_neg hlt]
      by_cases heq : a = k
      · subst heq
        rw [if_pos rfl]
        by_cases hb : b = unlistedByte
        · rw [if_pos hb, Memory.read, if_neg hx']
        · rw [if_neg hb, Memory.read, if_neg hx', Memory.read, if_neg hx']
      · rw [if_neg heq, Memory.read, ih, ← Memory.read]

/-! ### The host's changes, and the strings that reads return -/

/-- A text space that holds still is read as it stands. -/
theorem landChanges_still {m : Memory} {h : List HostAct} (hs : textStill h = true) : landChanges m h = (m, h) := by
  rcases h with _ | ⟨_ | _ | ⟨_ | _, _, _⟩ | _, _⟩ <;> first | rfl | cases hs

theorem landed_still {m : Memory} {h : List HostAct} (hs : textStill h = true) (n : Nat) : landed n m h = (m, h) := by
  induction n with
  | zero => rfl
  | succ n ih => rw [landed, landChanges_still hs, ih]

/-- So many reads, and so many more. -/
theorem landed_add (j k : Nat) (m : Memory) (h : List HostAct) :
    landed (j + k) m h = landed k (landed j m h).1 (landed j m h).2 := by
  induction j generalizing m h with
  | zero => rw [Nat.zero_add]; rfl
  | succ j ih => rw [Nat.succ_add, landed, ih]; rfl

/-- The host's changes keep the canonical form. -/
theorem wf_landChanges {m : Memory} (h : List HostAct) (hm : Memory.wf m = true) : Memory.wf (landChanges m h).1 = true := by
  induction h generalizing m with
  | nil => exact hm
  | cons x h ih =>
    cases x with
    | setText n a b =>
      cases n with
      | zero => exact ih (wf_write hm (textAddr_lt a))
      | succ n => exact hm
    | issue w b => exact hm
    | rst => exact hm
    | otherMaster v => exact hm

theorem wf_landed (n : Nat) {m : Memory} (h : List HostAct) (hm : Memory.wf m = true) : Memory.wf (landed n m h).1 = true := by
  induction n generalizing m h with
  | zero => exact hm
  | succ n ih => exact ih _ (wf_landChanges h hm)

/-- With a text space that holds still the string read is the one that stands there. -/
theorem readsString_still {m : Memory} {h : List HostAct} {p : TextAddr} {cs : List Byte} (hs : textStill h = true) :
    readsString m h p cs ↔ isString m p cs := by
  simp only [readsString, isString, byteRead, landed_still hs]

/-- The bytes read from address `a` within the next `n` addresses: none the terminator, then the terminator. -/
theorem stringFrom_eq_some {m : Memory} {h : List HostAct} {n a : Nat} {cs : List Byte} :
    stringFrom m h n a = some cs ↔
      cs.length < n ∧ (∀ k c, cs[k]? = some c → Memory.read (landed (k + 1) m h).1 (a + k) = c ∧ c ≠ 0x00) ∧
        Memory.read (landed (cs.length + 1) m h).1 (a + cs.length) = 0x00 := by
  have ht : params.textTerm = 0x00 := rfl
  induction n generalizing m h a cs with
  | zero => simp [stringFrom]
  | succ n ih =>
    rw [stringFrom, ht]
    by_cases h0 : Memory.read (landChanges m h).1 a = 0x00
    · rw [if_pos h0]
      cases cs with
      | nil => simp [h0, landed]
      | cons c cs =>
        constructor
        · intro h; cases h
        · rintro ⟨-, h, -⟩
          have := h 0 c rfl
          exact absurd (this.1.symm.trans h0) this.2
    · rw [if_neg h0]
      cases cs with
      | nil =>
        constructor
        · intro h; simp at h
        · rintro ⟨-, -, h⟩; exact absurd h h0
      | cons c cs =>
        have key : (stringFrom (landChanges m h).1 (landChanges m h).2 n (a + 1) = some cs ∧
              Memory.read (landChanges m h).1 a = c) ↔
            (stringFrom (landChanges m h).1 (landChanges m h).2 n (a + 1)).map (Memory.read (landChanges m h).1 a :: ·) =
              some (c :: cs) := by
          cases stringFrom (landChanges m h).1 (landChanges m h).2 n (a + 1) <;> simp [and_comm]
        rw [← key]
        refine (and_congr_left' (ih (a := a + 1) (cs := cs))).trans ?_
        constructor
        · rintro ⟨⟨h1, h2, h3⟩, rfl⟩
          refine ⟨by simp; omega, ?_, ?_⟩
          · intro k c hk
            cases k with
            | zero => simp only [List.getElem?_cons_zero, Option.some.injEq] at hk; subst hk; exact ⟨rfl, h0⟩
            | succ k =>
              rw [List.getElem?_cons_succ] at hk
              have := h2 k c hk
              rwa [show a + 1 + k = a + (k + 1) by omega] at this
          · rw [List.length_cons, show a + (cs.length + 1) = a + 1 + cs.length by omega]; exact h3
        · rintro ⟨h1, h2, h3⟩
          refine ⟨⟨by simp at h1; omega, ?_, ?_⟩, (h2 0 c rfl).1⟩
          · intro k d hk
            have := h2 (k + 1) d (by rwa [List.getElem?_cons_succ])
            rwa [show a + 1 + k = a + (k + 1) by omega]
          · rw [List.length_cons, show a + (cs.length + 1) = a + 1 + cs.length by omega] at h3; exact h3

/-- Where no terminator is read at the addresses, there is no string. -/
theorem stringFrom_eq_none {m : Memory} {h : List HostAct} {n a : Nat} :
    stringFrom m h n a = none ↔ ∀ k, k < n → Memory.read (landed (k + 1) m h).1 (a + k) ≠ 0x00 := by
  have ht : params.textTerm = 0x00 := rfl
  induction n generalizing m h a with
  | zero => simp [stringFrom]
  | succ n ih =>
    rw [stringFrom, ht]
    by_cases h0 : Memory.read (landChanges m h).1 a = 0x00
    · rw [if_pos h0]
      constructor
      · intro h; cases h
      · intro h; exact absurd h0 (h 0 (by omega))
    · rw [if_neg h0]
      rw [Option.map_eq_none_iff]
      refine (ih (a := a + 1)).trans ?_
      constructor
      · intro h k hk
        cases k with
        | zero => exact h0
        | succ k => rw [show a + (k + 1) = a + 1 + k by omega]; exact h k (by omega)
      · intro h k hk
        rw [show a + 1 + k = a + (k + 1) by omega]; exact h (k + 1) (by omega)

/-- The string read at a pointer is what 20_memory R65 says. -/
theorem stringAt_eq_some {m : Memory} {h : List HostAct} {p : TextAddr} {cs : List Byte} :
    stringAt m h p = some cs ↔ readsString m h p cs := by
  rw [stringAt, stringFrom_eq_some, readsString, textSize_eq]
  have hp := textAddr_lt p
  constructor
  · rintro ⟨h1, h2, h3⟩; exact ⟨by omega, h2, h3⟩
  · rintro ⟨h1, h2, h3⟩; exact ⟨by omega, h2, h3⟩

/-- There is no string at a pointer exactly where no terminator is read from it to the top (20_memory R66). -/
theorem stringAt_eq_none {m : Memory} {h : List HostAct} {p : TextAddr} :
    stringAt m h p = none ↔ ∀ k, p.toNat + k < 65536 → byteRead m h p k ≠ 0x00 := by
  rw [stringAt, stringFrom_eq_none, textSize_eq]
  have hp := textAddr_lt p
  exact ⟨fun h k hk => h k (by omega), fun h k hk => h k (by omega)⟩

/-- What follows the first character of a string read is the string that the reads to come return. -/
theorem readsString_tail {m : Memory} {h : List HostAct} {p : TextAddr} {c : Byte} {cs : List Byte}
    (hr : readsString m h p (c :: cs)) :
    Memory.read (landChanges m h).1 p.toNat = c ∧ (p + 1).toNat = p.toNat + 1 ∧
      readsString (landChanges m h).1 (landChanges m h).2 (p + 1) cs := by
  obtain ⟨h1, h2, h3⟩ := hr
  have hp : (p + 1).toNat = p.toNat + 1 := by
    rw [List.length_cons] at h1
    rw [BitVec.toNat_add]
    show (p.toNat + 1) % 65536 = _
    omega
  refine ⟨(h2 0 c rfl).1, hp, ?_, ?_, ?_⟩
  · rw [hp]; rw [List.length_cons] at h1; omega
  · intro k d hk
    have := h2 (k + 1) d (by rwa [List.getElem?_cons_succ])
    rw [byteRead, hp, show p.toNat + 1 + k = p.toNat + (k + 1) by omega]; exact this
  · rw [byteRead, hp, show p.toNat + 1 + cs.length = p.toNat + (c :: cs).length by rw [List.length_cons]; omega]; exact h3

end Sys2Proof.Machine
end

