-- ==== Sys2Proof/Laws/Pulse.lean ====
section
/-! SUPPORT. What the parts of a body send when every write is delivered: one pulse, one byte, CLEAR, the bring-up, the
characters of a string. Each is one lemma that a proof about an operation cites. -/

namespace Sys2Proof.Machine

/-- The state after these events with `n` bus events answered, the last byte on the pins and in EB being `v`. -/
def State.sent (s : State) (n : Nat) (es : List Event) (v : Byte) (ns : List (Bool × Nibble)) : State :=
  { (s.after n es).pins v ns with eb := v }

/-- The sequencer's position, overwritten. -/
def State.atSeq (s : State) (q : Seq) : State := { s with seq := q }

@[simp] theorem atSeq_ended (s : State) (q : Seq) (r : Result) : (s.atSeq q).ended r = s.ended r := rfl

/-- To agree but for the sequencer's position. -/
theorem exists_seq {s t : State} (h : s.atSeq .idle = t.atSeq .idle) : ∃ q, ActEnd.ok s = .ok (t.atSeq q) := by
  refine ⟨s.seq, ?_⟩
  have h' := congrArg (fun x => State.atSeq x s.seq) h
  exact congrArg _ h'

theorem sent_sent (s : State) (n m : Nat) (es fs : List Event) (v u : Byte) (ns ms : List (Bool × Nibble)) (q q' : Seq) :
    ((((s.sent n es v ns).atSeq q).sent m fs u ms).atSeq q') = (s.sent (n + m) (es ++ fs) u (ns ++ ms)).atSeq q' := by
  simp only [State.sent, State.atSeq, State.after, State.pins, List.drop_drop, List.append_assoc, Nat.add_assoc]

/-- The actions of a body, their tags (MSTEP, CLEAR) left out: those are the sequencer's business alone. -/
abbrev actsOf (ls : List Line) : List Act := ls.map Line.act

/-- The actions `as` send: a body of them, run from any state at address `a` and with backlight byte `bl` whose next `n`
answers are `ok`, goes through, emits `es`, leaves `v` on the pins and makes the controller latch `ns`. Where the sequencer
stands is left open: the operation's end forgets it. -/
def Sends (a : DevAddr) (bl : Byte) (as : List Act) (n : Nat) (es : List Event) (v : Byte)
    (ns : List (Bool × Nibble)) : Prop :=
  ∀ (ls : List Line) (s : State), actsOf ls = as → s.cfg.addr = a → s.blc &&& 0x08 = bl → s.answersOk n →
    ∃ q, runLines ls s = .ok ((s.sent n es v ns).atSeq q)

theorem Sends.append {a : DevAddr} {bl : Byte} {as bs : List Act} {n m : Nat} {es fs : List Event} {v u : Byte}
    {ns os : List (Bool × Nibble)} (h1 : Sends a bl as n es v ns) (h2 : Sends a bl bs m fs u os) :
    Sends a bl (as ++ bs) (n + m) (es ++ fs) u (ns ++ os) := by
  intro ls s hl ha hb hok
  obtain ⟨l1, l2, rfl, rfl, rfl⟩ := List.map_eq_append_iff.1 hl
  obtain ⟨q, hq⟩ := h1 l1 s rfl ha hb (answersOk_mono hok (by omega))
  obtain ⟨q', hq'⟩ := h2 l2 ((s.sent n es v ns).atSeq q) rfl ha hb (answersOk_drop rfl rfl hok)
  refine ⟨q', ?_⟩
  rw [runLines_append, hq, ← sent_sent s n m es fs v u ns os q]
  exact hq'

/-- A delay after what was sent. -/
theorem Sends.thenDelay {a : DevAddr} {bl : Byte} {as : List Act} {n : Nat} {es : List Event} {v : Byte}
    {ns : List (Bool × Nibble)} (h : Sends a bl as n es v ns) (us : Nat) :
    Sends a bl (as ++ [.delay us]) n (es ++ [.d us]) v ns := by
  intro ls s hl ha hb hok
  obtain ⟨l1, l2, rfl, rfl, h2⟩ := List.map_eq_append_iff.1 hl
  obtain ⟨l, rfl, hl2⟩ := List.map_eq_singleton_iff.1 h2
  obtain ⟨q, hq⟩ := h l1 s rfl ha hb hok
  rw [runLines_append, hq]
  simp only
  rw [runLines_cons_ok (by rw [hl2]; rfl), runLines_nil]
  refine exists_seq ?_
  simp [State.sent, State.atSeq, State.after, State.pins, State.emit, State.atLine]

/-- A delay before what is sent. -/
theorem Sends.afterDelay {a : DevAddr} {bl : Byte} {as : List Act} {n : Nat} {es : List Event} {v : Byte}
    {ns : List (Bool × Nibble)} (h : Sends a bl as n es v ns) (us : Nat) :
    Sends a bl (.delay us :: as) n (.d us :: es) v ns := by
  intro ls s hl ha hb hok
  obtain ⟨l, l2, rfl, hl1, rfl⟩ := List.map_eq_cons_iff.1 hl
  obtain ⟨q, hq⟩ := h l2 ((s.atLine l).emit (.d us)) rfl ha hb hok
  refine ⟨q, ?_⟩
  rw [runLines_cons_ok (by rw [hl1]; rfl), hq]
  simp [State.sent, State.atSeq, State.after, State.pins, State.emit, State.atLine]

/-- The five actions of a pulse (41_protocol R120). -/
abbrev pulseActs (n : Byte) (rs nsel : Bool) : List Act := [.startPulse n rs nsel, .enHigh, .hold, .enLow, .settle]

theorem enFalls_rise (x b : Byte) : enFalls x (b ||| params.enBit) = false := by
  simp [enFalls, enPin_enHigh]

/-- ONE PULSE (41_protocol R120, 10_state R36): two writes, two delays, and the controller latches one nibble, whatever was on
the pins before. -/
theorem sends_pulse (a : DevAddr) (bl n : Byte) (rs nsel : Bool) (hbl : bl &&& 0x08 = bl) :
    Sends a bl (pulseActs n rs nsel) 2 (pulseEvents a (compose bl n rs)) (compose bl n rs)
      [(rs, n.extractLsb' 4 4)] := by
  intro ls s hl ha hb hok
  obtain ⟨l1, r1, rfl, h1, hl⟩ := List.map_eq_cons_iff.1 hl
  obtain ⟨l2, r2, rfl, h2, hl⟩ := List.map_eq_cons_iff.1 hl
  obtain ⟨l3, r3, rfl, h3, hl⟩ := List.map_eq_cons_iff.1 hl
  obtain ⟨l4, r4, rfl, h4, hl⟩ := List.map_eq_cons_iff.1 hl
  obtain ⟨l5, r5, rfl, h5, hl⟩ := List.map_eq_cons_iff.1 hl
  obtain rfl := List.map_eq_nil_iff.1 hl
  have hr : s.readBlc = bl := hb
  obtain ⟨b1, b2, b3, -, -⟩ := compose_bits bl n rs
  rw [show bl &&& params.blBit = bl from hbl] at b1 b2 b3
  set b := compose bl n rs with hbdef
  have a0 := hok 0 (by omega)
  have a1 := hok 1 (by omega)
  have e1 := runLines_cons_ok (l := l1) (rest := l2 :: l3 :: l4 :: l5 :: []) (s := s)
    (s' := (s.atLine l1).beginPulse n rs nsel) (by rw [h1]; rfl)
  rw [e1]
  have w1 := busWrite_ok (v := b ||| params.enBit) (s := ((s.atLine l1).beginPulse n rs nsel).atLine l2) a0
  have heb : (((s.atLine l1).beginPulse n rs nsel).atLine l2).eb = b := by simp [hr, hbdef]
  rw [runLines_cons_ok (by rw [h2]; simp only [perform]; rw [heb, w1]; rfl)]
  rw [runLines_cons_ok (by rw [h3]; rfl)]
  rw [runLines_cons_ok (l := l4) (by
    rw [h4]; simp only [perform]
    rw [busWrite_ok (by
      rw [answerAt_drop (s := s) (n := 1) (by simp) (by simp)]; exact a1)]
    rfl)]
  rw [runLines_cons_ok (by rw [h5]; rfl), runLines_nil]
  have hfall : enFalls (b ||| params.enBit) b = true := by simp [enFalls, enPin_enHigh, b1]
  refine exists_seq ?_
  ext1 <;> simp [State.sent, State.atSeq, State.after, State.pins, pulseEvents, hr, ← hbdef, enFalls_rise, hfall, b2, b3, ha]
  · simp [← List.drop_one]
  · exact ⟨rfl, rfl, rfl⟩

/-- ONE LOGICAL BYTE (41_protocol R122, R123): two pulses, high nibble first. -/
theorem sends_byte (a : DevAddr) (bl v : Byte) (rs : Bool) (hbl : bl &&& 0x08 = bl) :
    Sends a bl (actsOf (wrbyteBody v rs)) 4 (byteEvents a bl v rs) (lowByte bl v rs) (byteNibbles v rs) := by
  have h := (sends_pulse a bl (hiNibble v) rs false hbl).append (sends_pulse a bl (loNibble v) rs true hbl)
  have hn : ∀ v : Byte, (hiNibble v).extractLsb' 4 4 = v.extractLsb' 4 4 ∧
      (loNibble v).extractLsb' 4 4 = v.extractLsb' 0 4 := by decide
  rw [compose_hiNibble, compose_loNibble, (hn v).1, (hn v).2] at h
  exact h

/-- A retagged body has the same actions. -/
theorem actsOf_callAt (n : Nat) (ls : List Line) : actsOf (callAt n ls) = actsOf ls := by
  simp [actsOf, callAt, Function.comp_def]

theorem actsOf_markClear (ls : List Line) : actsOf (markClear ls) = actsOf ls := by
  simp [actsOf, markClear, Function.comp_def]

theorem sends_cmd (a : DevAddr) (bl v : Byte) (hbl : bl &&& 0x08 = bl) :
    Sends a bl (actsOf (cmdBody v)) 4 (byteEvents a bl v false) (lowByte bl v false) (byteNibbles v false) := by
  rw [cmdBody, actsOf_callAt]; exact sends_byte a bl v false hbl

theorem sends_data (a : DevAddr) (bl v : Byte) (hbl : bl &&& 0x08 = bl) :
    Sends a bl (actsOf (dataBody v)) 4 (byteEvents a bl v true) (lowByte bl v true) (byteNibbles v true) := by
  rw [dataBody, actsOf_callAt]; exact sends_byte a bl v true hbl

/-- CLEAR (42_command R142). -/
theorem sends_clear (a : DevAddr) (bl : Byte) (hbl : bl &&& 0x08 = bl) :
    Sends a bl (actsOf clearBody) 4 (clearEvents a bl) (lowByte bl 0x01 false) (byteNibbles 0x01 false) := by
  have h := (sends_cmd a bl 0x01 hbl).thenDelay 2000
  rw [clearBody, actsOf, List.map_append, ← actsOf, actsOf_markClear, actsOf_callAt]
  exact h

/-- The bring-up (42_command R144, R146). -/
theorem sends_bringUp (a : DevAddr) (bl : Byte) (hbl : bl &&& 0x08 = bl) :
    Sends a bl (actsOf inithwBody) 28 (bringUpEvents a bl) (lowByte bl 0x0C false) bringUpNibbles := by
  have p (n : Byte) := sends_pulse a bl n false false hbl
  have hp (n : Byte) (h : n &&& 0xF0 = n) : compose bl n false = highByte bl n false := by
    rw [compose_eq, highByte, h]
  have h := (((((((((p 0x30).thenDelay 5000).append (p 0x30)).thenDelay 1000).append (p 0x30)).thenDelay 1000).append
    (p 0x20)).thenDelay 1000).append (sends_cmd a bl 0x28 hbl)).append (sends_cmd a bl 0x08 hbl)
  have h := (((h.append (sends_clear a bl hbl)).append (sends_cmd a bl 0x06 hbl)).append
    (sends_cmd a bl 0x0C hbl)).afterDelay 50000
  rw [hp 0x30 (by decide), hp 0x20 (by decide)] at h
  simp only [List.append_assoc] at h ⊢
  simp only [inithwBody, actsOf, List.map_append, List.append_assoc] at h ⊢
  exact h

end Sys2Proof.Machine
end

