-- ==== Sys2Proof/Laws/Text.lean ====
section
/-! SUPPORT. PRINT's loop over a string, every write delivered (43_text_api R166). -/

namespace Sys2Proof.Machine

theorem lastByte_cons (bl v c : Byte) (cs : List Byte) :
    lastByte bl v (c :: cs) = lastByte bl (lowByte bl c true) cs := by
  cases cs with
  | nil => rfl
  | cons d ds =>
    rw [lastByte, lastByte, List.getLast?_cons_cons]
    cases h : (d :: ds).getLast? with
    | some e => rfl
    | none => exact absurd (List.getLast?_eq_none_iff.1 h) (by simp)

/-- The state after PRINT's loop over `cs` from the pointer `p`. -/
def State.printed (s : State) (p : TextAddr) (cs : List Byte) : State :=
  { (s.after (4 * cs.length) (printEvents s.cfg.addr (s.blc &&& 0x08) p cs)).pins (lastByte (s.blc &&& 0x08) s.xp cs)
      (cs.flatMap (fun c => byteNibbles c true)) with
    eb := lastByte (s.blc &&& 0x08) s.eb cs
    tp := p + BitVec.ofNat 16 cs.length
    ch := 0x00
    text := (landed (cs.length + 1) s.text s.host).1
    host := (landed (cs.length + 1) s.text s.host).2 }

/-- PRINT's loop, run at the string's first character. -/
theorem run_printLoop (cs : List Byte) : ∀ (ls : List Line) (s : State) (p : TextAddr), actsOf ls = actsOf (printLoop cs) →
    s.tp = p → readsString s.text s.host p cs → s.answersOk (4 * cs.length) →
    ∃ q, runLines ls s = .ok ((s.printed p cs).atSeq q) := by
  induction cs with
  | nil =>
    intro ls s p hl hp hs _
    obtain ⟨l, r, rfl, hl1, hr⟩ := List.map_eq_cons_iff.1 hl
    obtain rfl := List.map_eq_nil_iff.1 hr
    rw [runLines_cons_ok (by rw [hl1]; rfl), runLines_nil]
    refine exists_seq ?_
    have h0 : Memory.read (landChanges s.text s.host).1 p.toNat = 0x00 := hs.2.2
    ext1 <;> simp [State.printed, textRead, State.atSeq, State.after, State.pins, lastByte, printEvents, landed, hp, h0]
  | cons c cs ih =>
    intro ls s p hl hp hs hok
    obtain ⟨hc, hp1, htail⟩ := readsString_tail hs
    rw [List.length_cons] at hok
    have hsplit : actsOf (printLoop (c :: cs)) =
        .readText :: (actsOf (dataBody c) ++ .nextChar :: actsOf (printLoop cs)) := by
      rw [← actsOf_callAt 3 (dataBody c)]
      simp [printLoop, actsOf, line]
    rw [hsplit] at hl
    obtain ⟨l1, r1, rfl, hl1, hl⟩ := List.map_eq_cons_iff.1 hl
    obtain ⟨l2, r2, rfl, hl2, hl⟩ := List.map_eq_append_iff.1 hl
    obtain ⟨l3, r3, rfl, hl3, hl⟩ := List.map_eq_cons_iff.1 hl
    rw [runLines_cons_ok (by rw [hl1]; rfl)]
    set s1 := textRead (s.atLine l1) with hs1
    obtain ⟨q, hq⟩ := sends_data s.cfg.addr (s.blc &&& 0x08) c (by rw [BitVec.and_assoc, BitVec.and_self]) l2 s1 hl2
      rfl rfl (fun k hk => hok k (by omega))
    rw [runLines_append, hq]
    simp only
    rw [runLines_cons_ok (by rw [hl3]; rfl)]
    set s2 := State.setTp _ _ with hs2
    have e2 : s2.atSeq .idle = State.atSeq
        { (s.after 4 (.t p c :: byteEvents s.cfg.addr (s.blc &&& 0x08) c true)).pins
            (lowByte (s.blc &&& 0x08) c true) (byteNibbles c true) with
          eb := lowByte (s.blc &&& 0x08) c true
          tp := p + 1
          ch := c
          text := (landChanges s.text s.host).1
          host := (landChanges s.text s.host).2 } .idle := by
      simp [hs2, hs1, textRead, State.atSeq, State.sent, State.after, State.pins, State.setTp, State.atLine, State.emit,
        State.setCh, State.landText, State.readAt, hp, hc]
    clear_value s2
    have htext : s2.text = (landChanges s.text s.host).1 := by have h := congrArg State.text e2; exact h
    have hhost : s2.host = (landChanges s.text s.host).2 := by have h := congrArg State.host e2; exact h
    obtain ⟨q', hq'⟩ := ih r3 s2 (p + 1) hl (congrArg State.tp e2) (by rw [htext, hhost]; exact htail)
      (answersOk_drop (congrArg State.answers e2) (congrArg State.draws e2)
        (by rw [show 4 + 4 * cs.length = 4 * (cs.length + 1) by omega]; exact hok))
    rw [hq']
    refine exists_seq ?_
    have e3 : ((s2.printed (p + 1) cs).atSeq q').atSeq .idle = ((s2.atSeq .idle).printed (p + 1) cs).atSeq .idle := rfl
    rw [e3, e2]
    ext1 <;> simp only [State.printed, State.atSeq, State.after, State.pins, lastByte_cons, List.length_cons, List.drop_drop,
      List.flatMap_cons, printEvents, List.append_assoc, List.cons_append]
    case tp =>
      rw [BitVec.add_assoc, show (1 : TextAddr) = BitVec.ofNat 16 1 from rfl, ← BitVec.ofNat_add, Nat.add_comm]
    case answers => congr 1; omega
    case draws => omega
    case host => rfl
    case text => rfl

end Sys2Proof.Machine
end

