-- ==== Sys2Proof/Laws/Bodies.lean ====
section
/-! SUPPORT. What the bodies of the text API are where they are given one, and what running a whole body comes to. -/

namespace Sys2Proof.Machine

/-- The backlight bit of a backlight bit. -/
theorem backlight_idem (x : Byte) : (x &&& 0x08) &&& 0x08 = x &&& 0x08 := by
  rw [BitVec.and_assoc, BitVec.and_self]

theorem backlight_of_flag (on : Bool) : (if on then (0x08 : Byte) else 0x00) &&& 0x08 = if on then 0x08 else 0x00 := by
  cases on <;> rfl

/-- An operation whose body sends something goes through and ends `OK`. -/
theorem operate_sends {a : DevAddr} {bl : Byte} {ls : List Line} {n : Nat} {es : List Event} {v : Byte}
    {ns : List (Bool × Nibble)} {s : State} (h : Sends a bl (actsOf ls) n es v ns) (ha : s.cfg.addr = a)
    (hb : s.blc &&& 0x08 = bl) (hok : s.answersOk n) : operate ls s = (s.sent n es v ns).ended resOk := by
  obtain ⟨q, hq⟩ := h ls (s.load ls) rfl ha hb hok
  rw [operate, hq]; rfl

/-! ### The cursor address -/

/-- Where ROWS is not 0, the clamped row as a number. -/
theorem clampRow_eq {rows row : RowCount} (h : rows ≠ 0) :
    ∃ r, clampRow rows row = some r ∧ r.toNat = if row.toNat ≥ rows.toNat then rows.toNat - 1 else row.toNat := by
  have hn : rows.toNat ≠ 0 := fun e => h (BitVec.eq_of_toNat_eq (by simpa using e))
  rw [clampRow]
  by_cases hr : row.toNat ≥ rows.toNat
  · refine ⟨_, by rw [if_pos hr, if_neg h], ?_⟩
    rw [if_pos hr]
    have h1 : (rows - 1).toNat = (256 - 1 + rows.toNat) % 256 := BitVec.toNat_sub rows 1
    have := rowCount_lt rows
    omega
  · exact ⟨row, if_neg hr, by rw [if_neg hr]⟩

/-- The cursor address of a legal row (43_text_api R163). -/
theorem cursorAddr_legal {cfg : DisplayConfig} {col : ColCount} {row : RowCount} (h : rowLegal cfg.rows row) :
    cursorAddr cfg col row = some ((if col.toNat ≥ cfg.cols.toNat then 0 else col) +
      ([0x00, 0x40, 0x14, 0x54] : List Byte).getD
        (if row.toNat ≥ cfg.rows.toNat then cfg.rows.toNat - 1 else row.toNat) 0) := by
  obtain ⟨h0, h1⟩ := h
  obtain ⟨r, hr, hn⟩ := clampRow_eq (row := row) h0
  rw [cursorAddr, hr]
  simp only [hn]
  generalize (if row.toNat ≥ cfg.rows.toNat then cfg.rows.toNat - 1 else row.toNat) = n at *
  have : n = 0 ∨ n = 1 ∨ n = 2 ∨ n = 3 := by omega
  rcases this with rfl | rfl | rfl | rfl <;> rfl

/-- An illegal row has none (43_text_api R165 (e), U4). -/
theorem cursorAddr_illegal {cfg : DisplayConfig} {col : ColCount} {row : RowCount} (h : ¬ rowLegal cfg.rows row) :
    cursorAddr cfg col row = none := by
  rw [rowLegal, not_and_or] at h
  by_cases h0 : cfg.rows = 0
  · rw [cursorAddr, clampRow, if_pos (by simp [h0]), if_pos h0]
  · obtain ⟨r, hr, hn⟩ := clampRow_eq (row := row) h0
    have h1 := h.resolve_left (by simpa using h0)
    rw [cursorAddr, hr]
    simp only [hn]
    rw [List.getElem?_eq_none]
    show 4 ≤ _
    omega

/-- Row 0 is legal as soon as there is a row. -/
theorem rowLegal_zero {rows : RowCount} (h : rows ≠ 0) : rowLegal rows 0 := by
  have hn : rows.toNat ≠ 0 := fun e => h (BitVec.eq_of_toNat_eq (by simpa using e))
  refine ⟨h, ?_⟩
  split
  · simp at *; omega
  · simp

/-- SETCUR(0, 0) is the command 0x80 (43_text_api R169). -/
theorem setcurBody_home {cfg : DisplayConfig} (h : cfg.rows ≠ 0) :
    setcurBody cfg 0 0 = .ok (callAt 4 (cmdBody 0x80)) := by
  have hn : cfg.rows.toNat ≠ 0 := fun e => h (BitVec.eq_of_toNat_eq (by simpa using e))
  have hh : ¬ (0 : Byte).toNat ≥ cfg.rows.toNat := by simp; omega
  rw [setcurBody, cursorAddr_legal (rowLegal_zero h), if_neg hh]
  simp only [ite_self]
  rfl

/-! ### PRINT's body -/

theorem printBody_null (m : Memory) (h : List HostAct) : printBody m h 0 = .ok [line 1 (.testNull 0)] := rfl

theorem printBody_string {m : Memory} {acts : List HostAct} {p : TextAddr} {cs : List Byte} (hp : p ≠ 0)
    (h : readsString m acts p cs) : printBody m acts p = .ok (line 1 (.testNull p) :: line 2 (.setPointer p) :: printLoop cs) := by
  have hp' : ¬ p = params.textNull := hp
  rw [printBody, if_neg hp', stringAt_eq_some.2 h]

theorem printBody_unterminated {m : Memory} {acts : List HostAct} {p : TextAddr} (hp : p ≠ 0)
    (h : ∀ k, p.toNat + k < 65536 → byteRead m acts p k ≠ 0x00) : printBody m acts p = .error .textUnterminated := by
  have hp' : ¬ p = params.textNull := hp
  rw [printBody, if_neg hp', stringAt_eq_none.2 h]

/-! ### Parts of INIT and DISPTEXT -/

/-- What DISPTEXT sends before its string: CLEAR and the cursor command 0x80 (43_text_api R169). -/
theorem sends_clearHome (a : DevAddr) (bl : Byte) (hbl : bl &&& 0x08 = bl) :
    Sends a bl (actsOf (callAt 1 clearBody ++ callAt 2 (callAt 4 (cmdBody 0x80)))) 8
      (clearEvents a bl ++ byteEvents a bl 0x80 false) (lowByte bl 0x80 false)
      (byteNibbles 0x01 false ++ byteNibbles 0x80 false) := by
  have h := (sends_clear a bl hbl).append (sends_cmd a bl 0x80 hbl)
  rw [actsOf, List.map_append, ← actsOf, ← actsOf, actsOf_callAt, actsOf_callAt, actsOf_callAt]
  exact h

/-- INIT from its backlight write on, every write delivered (43_text_api R160 steps 4 and 5). -/
theorem run_initTail {addr : DevAddr} {blon : Bool} {s : State} (hadr : s.cfg.addr = addr)
    (hblc : s.blc = if blon then 0x08 else 0x00) (hok : s.answersOk 29) :
    ∃ q, runLines (line 4 .writeBacklight :: callAt 5 inithwBody) s = .ok (State.atSeq
      { (s.after 29 (.w addr (if blon then 0x08 else 0x00) .ok :: bringUpEvents addr (if blon then 0x08 else 0x00))).pins
          (lowByte (if blon then 0x08 else 0x00) 0x0C false) (lowEdge s.xp ++ bringUpNibbles) with
        eb := lowByte (if blon then 0x08 else 0x00) 0x0C false } q) := by
  have hrb : s.readBlc = backlightByte blon := by rw [readBlc_eq, hblc, backlight_of_flag, backlightByte_eq]
  rw [runLines_cons_ok (by
    simp only [line, perform, atLine_readBlc, hrb]
    exact busWrite_backlight_ok (by simpa using hok 0 (by omega)))]
  obtain ⟨q, hq⟩ := sends_bringUp addr (if blon then 0x08 else 0x00) (backlight_of_flag blon) (callAt 5 inithwBody)
    (((s.atLine (line 4 .writeBacklight)).after 1 [.w s.cfg.addr (if blon then 0x08 else 0x00) .ok]).pins
      (if blon then 0x08 else 0x00) (lowEdge s.xp)) (actsOf_callAt _ _) hadr
    (by show s.blc &&& 8 = _; rw [hblc, backlight_of_flag])
    (answersOk_drop (n := 1) (s := s) rfl rfl hok)
  refine ⟨q, ?_⟩
  refine Eq.trans hq ?_
  simp [State.sent, State.after, State.pins, State.atSeq, hadr]

end Sys2Proof.Machine
end

