-- ==== Sys2Proof/Laws/PerInstr.lean ====
section
/-! SUPPORT. The opcode map: no word selects two rows, and the word the encoder gives an operation selects the operation's own
row, one lemma per constructor. -/

namespace Sys2Proof

/-- The opcode field, where a row fixes it. -/
theorem opcode_of_selects {w m p : OpWord} (h : w &&& m = p) (hm : m &&& 0xF0000000 = 0xF0000000) :
    w &&& 0xF0000000 = p &&& 0xF0000000 := by
  rw [← h, BitVec.and_assoc, hm]

/-- Every row's mask covers the opcode field, and the pattern of no two rows agrees in it (30_encoding R91). -/
theorem opcodeTable_disjoint : (∀ r ∈ opcodeTable, r.mask &&& 0xF0000000 = 0xF0000000) ∧
    opcodeTable.Pairwise (fun r r' => r.pattern &&& 0xF0000000 ≠ r'.pattern &&& 0xF0000000) := by decide

/-- Decoding is unambiguous: a row that a word selects is the row found. -/
theorem selectRow_of_selects {r : Row} {w : OpWord} (hr : r ∈ opcodeTable) (h : w &&& r.mask = r.pattern) :
    selectRow w = some r := by
  obtain ⟨hm, hp⟩ := opcodeTable_disjoint
  have hsel : r.selects w = true := by simp [Row.selects, h]
  cases hf : selectRow w with
  | none =>
    have := List.find?_eq_none.1 hf r hr
    exact absurd hsel this
  | some r' =>
    have hr' : r' ∈ opcodeTable := List.mem_of_find?_eq_some hf
    have h' : w &&& r'.mask = r'.pattern := by simpa [Row.selects] using List.find?_some hf
    have e := (opcode_of_selects h (hm r hr)).symm.trans (opcode_of_selects h' (hm r' hr'))
    by_contra hne
    have hne' : r ≠ r' := fun e => hne (by rw [e])
    rcases List.pairwise_iff_getElem.1 hp with hp
    obtain ⟨i, hi, rfl⟩ := List.getElem_of_mem hr
    obtain ⟨j, hj, rfl⟩ := List.getElem_of_mem hr'
    rcases Nat.lt_trichotomy i j with hij | hij | hij
    · exact hp i j hi hj hij e
    · subst hij; exact hne' rfl
    · exact hp j i hj hi hij e.symm

namespace Laws.EncodesInRow

/-- The encoder's word selects the operation's own row (30_encoding R85 to R91). -/
def Statement (i : Instr) : Prop := (selectRow (encode i)).map Row.op = some (rowOf i)

/-- A word of a row of the opcode map selects it. -/
theorem of_selects (op : Op) (mn : String) (p m : OpWord) (hr : (⟨op, mn, p, m⟩ : Row) ∈ opcodeTable) {w : OpWord}
    (h : w &&& m = p) : (selectRow w).map Row.op = some op := by
  rw [selectRow_of_selects hr h]; rfl

/-! The bits of each word with operands, at the width 32 written out, so that literals compute. -/

/-- Bits that a mask leaves out do not reach the masked word. -/
theorem or_and_of_masked {p v m : BitVec 32} (hp : p &&& m = p) (hv : v &&& m = 0) : (p ||| v) &&& m = p := by
  have h : (p ||| v) &&& m = (p &&& m) ||| (v &&& m) := by
    ext i hi
    simp [Bool.and_or_distrib_right]
  rw [h, hp, hv]; exact BitVec.or_zero

theorem nib_bits (p : BitVec 32) (hp : p &&& 0xFFFFFE00 = p) (val : BitVec 8) (rs : Bool) :
    (p ||| ((if rs then 1 else 0 : BitVec 32) <<< 8) ||| val.setWidth 32) &&& 0xFFFFFE00 = p := by
  have h : (((if rs then 1 else 0 : BitVec 32) <<< 8) ||| val.setWidth 32) &&& 0xFFFFFE00 = 0 := by
    cases rs <;> ext i hi <;> interval_cases i <;> simp
  rw [BitVec.or_assoc, or_and_of_masked hp h]

theorem init_bits (cols rows : BitVec 8) (addr : BitVec 7) (blon : Bool) :
    (0x60000000 ||| ((if blon then 1 else 0 : BitVec 32) <<< 23) ||| (addr.setWidth 32 <<< 16) ||| (rows.setWidth 32 <<< 8) |||
      cols.setWidth 32) &&& 0xFF000000 = (0x60000000 : BitVec 32) := by
  cases blon <;> ext i hi <;> interval_cases i <;> simp

theorem setcur_bits (col row : BitVec 8) :
    (0x70000000 ||| (row.setWidth 32 <<< 8) ||| col.setWidth 32) &&& 0xFFFF0000 = (0x70000000 : BitVec 32) := by
  ext i hi
  interval_cases i <;> simp

theorem text_bits (p : BitVec 32) (hp : p &&& 0xFFFF0000 = p) (tptr : BitVec 16) :
    (p ||| tptr.setWidth 32) &&& 0xFFFF0000 = p := by
  have h : tptr.setWidth 32 &&& 0xFFFF0000 = (0 : BitVec 32) := by
    ext i hi
    interval_cases i <;> simp
  rw [or_and_of_masked hp h]

theorem wrnib (val : Byte) (rs : Bool) : Statement (.wrnib val rs) :=
  of_selects .wrnib "WRNIB" 0x10000000 0xFFFFFE00 (by decide) (nib_bits 0x10000000 rfl val rs)

theorem wrbyte (val : Byte) (rs : Bool) : Statement (.wrbyte val rs) :=
  of_selects .wrbyte "WRBYTE" 0x20000000 0xFFFFFE00 (by decide) (nib_bits 0x20000000 rfl val rs)

theorem setbl (on : Bool) : Statement (.setbl on) :=
  of_selects .setbl "SETBL" 0x30000000 0xFFFFFFFE (by decide) (by cases on <;> decide)

theorem clear : Statement .clear := of_selects .clear "CLEAR" 0x40000000 0xFFFFFFFF (by decide) (by decide)

theorem inithw : Statement .inithw := of_selects .inithw "INITHW" 0x50000000 0xFFFFFFFF (by decide) (by decide)

theorem init (cols : ColCount) (rows : RowCount) (addr : DevAddr) (blon : Bool) : Statement (.init cols rows addr blon) :=
  of_selects .init "INIT" 0x60000000 0xFF000000 (by decide) (init_bits cols rows addr blon)

theorem setcur (col : ColCount) (row : RowCount) : Statement (.setcur col row) :=
  of_selects .setcur "SETCUR" 0x70000000 0xFFFF0000 (by decide) (setcur_bits col row)

theorem print (tptr : TextAddr) : Statement (.print tptr) :=
  of_selects .print "PRINT" 0x80000000 0xFFFF0000 (by decide) (text_bits 0x80000000 rfl tptr)

theorem disptext (tptr : TextAddr) : Statement (.disptext tptr) :=
  of_selects .disptext "DISPTEXT" 0x90000000 0xFFFF0000 (by decide) (text_bits 0x90000000 rfl tptr)

end Laws.EncodesInRow

end Sys2Proof
end

