-- ==== Sys2Proof/Laws/Run.lean ====
section
/-! SUPPORT. What one action and a run of lines can do: the events they add, how they end, what they leave unchanged. -/

namespace Sys2Proof.Machine

/-! ### Events and ends -/

/-- THE EVENTS OF ONE ACTION: it goes well with at most one event, which is no failure; or its one event is answered with the
error it ends in; or it is a null test that fails (60_exceptions R191, R192). -/
theorem perform_cases (a : Act) (s : State) :
    (∃ s' es, perform a s = .ok s' ∧ s'.trace = s.trace ++ es ∧ es.length ≤ 1 ∧ ∀ e ∈ es, e.failCause = none) ∨
    (∃ s' e c, perform a s = .err (resBusError c) s' ∧ s'.trace = s.trace ++ [e] ∧ e.failCause = some c) ∨
    (a = .testNull 0 ∧ perform a s = .err resInvalidArgument s) := by
  have write : ∀ (v : Byte) (f : State → State), (∀ s, (f s).trace = s.trace) →
      (∃ s' es, (busWrite v s).thenDo f = .ok s' ∧ s'.trace = s.trace ++ es ∧ es.length ≤ 1 ∧ ∀ e ∈ es, e.failCause = none) ∨
      (∃ s' e c, (busWrite v s).thenDo f = .err (resBusError c) s' ∧ s'.trace = s.trace ++ [e] ∧ e.failCause = some c) := by
    intro v f hf
    cases h : s.answerAt 0 with
    | ok => exact .inl ⟨_, [.w s.cfg.addr v .ok], by rw [busWrite_ok h]; rfl, by simp [hf], by simp, by simp [Event.failCause]⟩
    | err c =>
      refine .inr ⟨_, .w s.cfg.addr v (.err c), c, by rw [busWrite_err h]; rfl, ?_, rfl⟩
      split <;> simp
  cases a with
  | storeConfig cols rows addr blon => exact .inl ⟨_, [], rfl, by simp, by simp, by simp⟩
  | seedBacklight on => exact .inl ⟨_, [], rfl, by simp, by simp, by simp⟩
  | configureBus =>
    cases hi : s.busInstalled with
    | true => exact .inl ⟨_, [], by rw [perform, if_pos hi], by simp, by simp, by simp⟩
    | false =>
      have hn : ¬ s.busInstalled = true := by simp [hi]
      cases h : s.answerAt 0 with
      | ok =>
        exact .inl ⟨_, [.cfg s.cfg.bus .ok], by rw [perform, if_neg hn, busConfigure_ok h], by simp, by simp,
          by simp [Event.failCause]⟩
      | err c =>
        exact .inr (.inl ⟨_, .cfg s.cfg.bus (.err c), c, by rw [perform, if_neg hn, busConfigure_err h], by simp, rfl⟩)
  | writeBacklight =>
    have h := write s.readBlc id (fun _ => rfl)
    have he : (busWrite s.readBlc s).thenDo id = perform .writeBacklight s := by
      rw [perform]; cases busWrite s.readBlc s <;> rfl
    rw [he] at h
    exact h.imp id .inl
  | delay us => exact .inl ⟨_, [.d us], rfl, by simp, by simp, by simp [Event.failCause]⟩
  | startPulse n rs nsel => exact .inl ⟨_, [], rfl, by simp, by simp, by simp⟩
  | enHigh => exact (write (s.eb ||| params.enBit) _ (fun _ => by simp)).imp id .inl
  | hold => exact .inl ⟨_, [.d params.tEnHoldUs], rfl, by simp, by simp, by simp [Event.failCause]⟩
  | enLow => exact (write s.eb _ (fun _ => by simp)).imp id .inl
  | settle => exact .inl ⟨_, [.d params.tSettleUs], rfl, by simp, by simp, by simp [Event.failCause]⟩
  | testNull p =>
    by_cases hp : p = params.textNull
    · subst hp; exact .inr (.inr ⟨rfl, rfl⟩)
    · exact .inl ⟨s, [], if_neg hp, by simp, by simp, by simp⟩
  | setPointer p => exact .inl ⟨_, [], rfl, by simp, by simp, by simp⟩
  | readText =>
    exact .inl ⟨_, [.t s.tp (Memory.read s.landText.text s.tp.toNat)], rfl, by simp [textRead], by simp,
      by simp [Event.failCause]⟩
  | nextChar => exact .inl ⟨_, [], rfl, by simp, by simp, by simp⟩

/-- THE EVENTS OF A RUN: none fails where the run goes through; a failing event is the last, and gives the run its error. -/
theorem runLines_cases (ls : List Line) (s : State) :
    (∃ s' es, runLines ls s = .ok s' ∧ s'.trace = s.trace ++ es ∧ ∀ e ∈ es, e.failCause = none) ∨
    (∃ s' es e c, runLines ls s = .err (resBusError c) s' ∧ s'.trace = s.trace ++ es ++ [e] ∧ e.failCause = some c ∧
      ∀ e ∈ es, e.failCause = none) ∨
    (∃ s' es, runLines ls s = .err resInvalidArgument s' ∧ s'.trace = s.trace ++ es ∧ ∀ e ∈ es, e.failCause = none) := by
  induction ls generalizing s with
  | nil => exact .inl ⟨s, [], rfl, by simp, by simp⟩
  | cons l ls ih =>
    rcases perform_cases l.act (s.atLine l) with ⟨s1, es1, h1, ht1, -, hf1⟩ | ⟨s1, e, c, h1, ht1, hf⟩ | ⟨-, h1⟩
    · rw [runLines_cons_ok h1]
      rw [atLine_trace] at ht1
      have hcat : ∀ es : List Event, (∀ e ∈ es, e.failCause = none) → ∀ e ∈ es1 ++ es, e.failCause = none := by
        intro es hes e he
        rcases List.mem_append.1 he with he | he
        · exact hf1 e he
        · exact hes e he
      rcases ih s1 with ⟨s', es, h, ht, hf⟩ | ⟨s', es, e, c, h, ht, hc, hf⟩ | ⟨s', es, h, ht, hf⟩
      · exact .inl ⟨s', es1 ++ es, h, by rw [ht, ht1, List.append_assoc], hcat es hf⟩
      · exact .inr (.inl ⟨s', es1 ++ es, e, c, h, by rw [ht, ht1, List.append_assoc s.trace], hc, hcat es hf⟩)
      · exact .inr (.inr ⟨s', es1 ++ es, h, by rw [ht, ht1, List.append_assoc], hcat es hf⟩)
    · rw [runLines_cons_err h1]
      exact .inr (.inl ⟨s1, [], e, c, rfl, by simpa using ht1, hf, by simp⟩)
    · rw [runLines_cons_err h1]
      exact .inr (.inr ⟨_, [], rfl, by simp, by simp⟩)

/-! ### What an action leaves unchanged -/

/-- Which actions write which register. -/
def Act.writesCfg : Act → Bool
  | .storeConfig _ _ _ _ => true
  | _ => false
def Act.writesBlc : Act → Bool
  | .seedBacklight _ => true
  | _ => false
def Act.writesInstalled : Act → Bool
  | .configureBus => true
  | _ => false
def Act.writesEb : Act → Bool
  | .startPulse _ _ _ => true
  | _ => false
def Act.writesText : Act → Bool
  | .setPointer _ => true
  | .readText => true
  | .nextChar => true
  | _ => false

/-- `s'` differs from `s` in nothing but what actions with these writes may write. -/
structure Frame (cfg blc inst eb txt : Bool) (s s' : State) : Prop where
  busy : s'.busy = s.busy
  result : s'.result = s.result
  resValid : s'.resValid = s.resValid
  opr : s'.opr = s.opr
  opBusCfg : s'.opBusCfg = s.opBusCfg
  host : txt = false → s'.host = s.host
  text : txt = false → s'.text = s.text
  landed : ∃ n, (s'.text, s'.host) = Machine.landed n s.text s.host
  cfg : cfg = false → s'.cfg = s.cfg
  blc : blc = false → s'.blc = s.blc
  installed : inst = false → s'.busInstalled = s.busInstalled
  mono : s.busInstalled = true → s'.busInstalled = true
  eb : eb = false → s'.eb = s.eb
  tp : txt = false → s'.tp = s.tp
  ch : txt = false → s'.ch = s.ch
  latched : ∃ ns, s'.latched = s.latched ++ ns

/-- A bus write changes the side of the machine that the bus belongs to. -/
theorem busWrite_frame (v : Byte) (s : State) : Frame false false false false false s (busWrite v s).state ∧
    (busWrite v s).state.seq = s.seq := by
  have pins : ∀ s' : State, (∃ ns, (s'.drivePins v).latched = s'.latched ++ ns) := by
    intro s'
    rcases drivePins_cases s' v with h | h <;> rw [h]
    · exact ⟨[], by simp [State.pins]⟩
    · exact ⟨_, rfl⟩
  cases h : s.answerAt 0 with
  | ok =>
    rw [busWrite_ok h]
    refine ⟨?_, rfl⟩
    constructor <;> first | (intros; rfl) | exact ⟨0, rfl⟩ | exact pins _ | (intro h; exact h)
  | err c =>
    rw [busWrite_err h]
    show Frame _ _ _ _ _ s (ite _ _ _) ∧ State.seq (ite _ _ _) = _
    split
    · refine ⟨?_, rfl⟩
      constructor <;> first | (intros; rfl) | exact ⟨0, rfl⟩ | exact pins _ | (intro h; exact h)
    · refine ⟨?_, rfl⟩
      constructor <;> first | (intros; rfl) | exact ⟨0, rfl⟩ | exact ⟨[], by simp⟩ | (intro h; exact h)

/-- A bus configuration. -/
theorem busConfigure_frame (s : State) : Frame false false true false false s (busConfigure s).state ∧
    (busConfigure s).state.seq = s.seq := by
  cases h : s.answerAt 0 with
  | ok =>
    rw [busConfigure_ok h]
    refine ⟨?_, rfl⟩
    constructor <;> first | (intros; rfl) | exact ⟨0, rfl⟩ | exact ⟨[], by simp [ActEnd.state]⟩ | (intro h; cases h)
  | err c =>
    rw [busConfigure_err h]
    refine ⟨?_, rfl⟩
    constructor <;> first | (intros; rfl) | exact ⟨0, rfl⟩ | exact ⟨[], by simp [ActEnd.state]⟩ | (intro h; exact h)

/-- THE FRAME OF ONE ACTION, and of the sequencer: an action never touches what is still to do. -/
theorem perform_frame (a : Act) (s : State) :
    Frame a.writesCfg a.writesBlc a.writesInstalled a.writesEb a.writesText s (perform a s).state ∧
      (perform a s).state.seq.todo = s.seq.todo ∧ (perform a s).state.seq.mstep = s.seq.mstep := by
  have then_ : ∀ (e : ActEnd) (p : Phase), (Frame false false false false false s e.state ∧ e.state.seq = s.seq) →
      Frame false false false false false s (e.thenDo (State.setPhase · p)).state ∧
        (e.thenDo (State.setPhase · p)).state.seq.todo = s.seq.todo ∧
        (e.thenDo (State.setPhase · p)).state.seq.mstep = s.seq.mstep := by
    rintro e p ⟨hf, hs⟩
    cases e with
    | ok s' =>
      refine ⟨⟨hf.busy, hf.result, hf.resValid, hf.opr, hf.opBusCfg, hf.host, hf.text, hf.landed, hf.cfg, hf.blc,
        hf.installed, hf.mono,
        hf.eb, hf.tp, hf.ch, hf.latched⟩, ?_, ?_⟩
      · have h2 : s'.seq.todo = s.seq.todo := congrArg Seq.todo hs
        exact h2
      · have h2 : s'.seq.mstep = s.seq.mstep := congrArg Seq.mstep hs
        exact h2
    | err r s' => exact ⟨hf, congrArg Seq.todo hs, congrArg Seq.mstep hs⟩
  cases a with
  | configureBus =>
    by_cases hi : s.busInstalled = true
    · rw [perform, if_pos hi]
      exact ⟨by constructor <;> first | (intros; rfl) | exact ⟨0, rfl⟩ | exact ⟨[], by simp [ActEnd.state]⟩ | (intro h; exact h), rfl, rfl⟩
    · rw [perform, if_neg hi]
      obtain ⟨hf, hs⟩ := busConfigure_frame s
      exact ⟨hf, congrArg Seq.todo hs, congrArg Seq.mstep hs⟩
  | writeBacklight =>
    obtain ⟨hf, hs⟩ := busWrite_frame s.readBlc s
    exact ⟨hf, congrArg Seq.todo hs, congrArg Seq.mstep hs⟩
  | enHigh => exact then_ _ _ (busWrite_frame _ s)
  | enLow => exact then_ _ _ (busWrite_frame _ s)
  | testNull p =>
    have e : (perform (.testNull p) s).state = s := by
      rw [perform]; split <;> rfl
    rw [e]
    exact ⟨by constructor <;> first | (intros; rfl) | exact ⟨0, rfl⟩ | exact ⟨[], by simp⟩ | (intro h; exact h), rfl, rfl⟩
  | storeConfig _ _ _ _ | seedBacklight _ | delay _ | startPulse _ _ _ | hold | settle | setPointer _ | readText | nextChar =>
    refine ⟨?_, rfl, rfl⟩
    constructor <;> first | (intros; rfl) | exact ⟨0, rfl⟩ | exact ⟨1, rfl⟩ |
      exact ⟨[], by simp [ActEnd.state, perform, textRead]⟩ | (intro h; first | exact h | cases h)

theorem Frame.refl (c b i e t : Bool) (s : State) : Frame c b i e t s s := by
  constructor <;> first | (intros; rfl) | exact ⟨0, rfl⟩ | exact ⟨[], by simp⟩ | (intro h; exact h)

theorem Frame.trans {c b i e t c' b' i' e' t' : Bool} {s s' s'' : State} (h : Frame c b i e t s s')
    (h' : Frame c' b' i' e' t' s' s'') : Frame (c || c') (b || b') (i || i') (e || e') (t || t') s s'' := by
  obtain ⟨ns, hn⟩ := h.latched
  obtain ⟨ns', hn'⟩ := h'.latched
  obtain ⟨j, hj⟩ := h.landed
  obtain ⟨k, hk⟩ := h'.landed
  have hl : (s''.text, s''.host) = Machine.landed (j + k) s.text s.host := by rw [landed_add, ← hj]; exact hk
  refine ⟨h'.busy.trans h.busy, h'.result.trans h.result, h'.resValid.trans h.resValid, h'.opr.trans h.opr,
    h'.opBusCfg.trans h.opBusCfg, ?_, ?_, ⟨_, hl⟩, ?_, ?_, ?_, fun hi => h'.mono (h.mono hi),
    ?_, ?_, ?_, ⟨ns ++ ns', by rw [hn', hn, List.append_assoc]⟩⟩ <;>
    intro hf <;> rw [Bool.or_eq_false_iff] at hf
  · exact (h'.host hf.2).trans (h.host hf.1)
  · exact (h'.text hf.2).trans (h.text hf.1)
  · exact (h'.cfg hf.2).trans (h.cfg hf.1)
  · exact (h'.blc hf.2).trans (h.blc hf.1)
  · exact (h'.installed hf.2).trans (h.installed hf.1)
  · exact (h'.eb hf.2).trans (h.eb hf.1)
  · exact (h'.tp hf.2).trans (h.tp hf.1)
  · exact (h'.ch hf.2).trans (h.ch hf.1)

/-- Where nothing reads text, or the text holds still, the text space and the host's acts are as they were. -/
theorem Frame.still {c b i e t : Bool} {s s' : State} (h : Frame c b i e t s s')
    (hs : t = false ∨ textStill s.host = true) : s'.host = s.host ∧ s'.text = s.text := by
  rcases hs with ht | hs
  · exact ⟨h.host ht, h.text ht⟩
  · obtain ⟨n, hn⟩ := h.landed
    rw [landed_still hs] at hn
    exact ⟨congrArg Prod.snd hn, congrArg Prod.fst hn⟩

/-- The canonical form of the text space is kept. -/
theorem Frame.wf {c b i e t : Bool} {s s' : State} (h : Frame c b i e t s s') (hm : Memory.wf s.text = true) :
    Memory.wf s'.text = true := by
  obtain ⟨n, hn⟩ := h.landed
  rw [show s'.text = (Machine.landed n s.text s.host).1 from congrArg Prod.fst hn]
  exact wf_landed n _ hm

/-- The sequencer's own move touches nothing but its position. -/
theorem atLine_frame (s : State) (l : Line) : Frame false false false false false s (s.atLine l) := by
  constructor <;> first | (intros; rfl) | exact ⟨0, rfl⟩ | exact ⟨[], by simp⟩ | (intro h; exact h)

/-- THE FRAME OF A RUN: of what its actions write, and no more. -/
theorem runLines_frame (ls : List Line) (s : State) :
    Frame (ls.any (·.act.writesCfg)) (ls.any (·.act.writesBlc)) (ls.any (·.act.writesInstalled))
      (ls.any (·.act.writesEb)) (ls.any (·.act.writesText)) s (runLines ls s).state := by
  induction ls generalizing s with
  | nil => exact Frame.refl _ _ _ _ _ s
  | cons l ls ih =>
    have h1 := (atLine_frame s l).trans (perform_frame l.act (s.atLine l)).1
    simp only [Bool.false_or] at h1
    simp only [List.any_cons]
    cases hp : perform l.act (s.atLine l) with
    | ok s1 =>
      rw [runLines_cons_ok hp]
      rw [hp] at h1
      exact h1.trans (ih s1)
    | err r s1 =>
      rw [runLines_cons_err hp]
      rw [hp] at h1
      have h2 := h1.trans (Frame.refl (ls.any (·.act.writesCfg)) (ls.any (·.act.writesBlc)) (ls.any (·.act.writesInstalled))
        (ls.any (·.act.writesEb)) (ls.any (·.act.writesText)) s1)
      exact h2

/-- A run adds events to the trace and takes none away. -/
theorem runLines_trace (ls : List Line) (s : State) : ∃ es, (runLines ls s).state.trace = s.trace ++ es := by
  rcases runLines_cases ls s with ⟨s', es, h, ht, -⟩ | ⟨s', es, e, c, h, ht, -⟩ | ⟨s', es, h, ht, -⟩ <;> rw [h]
  · exact ⟨es, ht⟩
  · exact ⟨es ++ [e], by rw [← List.append_assoc]; exact ht⟩
  · exact ⟨es, ht⟩

/-- The end of an operation is the end of its run with a result. -/
theorem concludeRun_eq (e : ActEnd) : ∃ r, concludeRun e = e.state.ended r := by
  cases e <;> exact ⟨_, rfl⟩

/-! ### What the bodies write -/

theorem any_callAt (n : Nat) (ls : List Line) (f : Act → Bool) :
    (callAt n ls).any (fun l => f l.act) = ls.any (fun l => f l.act) := by
  simp [callAt, List.any_map, Function.comp_def]

theorem printLoop_writes (cs : List Byte) :
    (printLoop cs).any (·.act.writesCfg) = false ∧ (printLoop cs).any (·.act.writesBlc) = false ∧
      (printLoop cs).any (·.act.writesInstalled) = false := by
  induction cs with
  | nil => exact ⟨rfl, rfl, rfl⟩
  | cons c cs ih =>
    simp only [printLoop, List.any_cons, List.any_append, any_callAt, ih.1, ih.2.1, ih.2.2, List.cons_append]
    exact ⟨rfl, rfl, rfl⟩

/-- SETCUR's body, where there is one, is a command write. -/
theorem setcurBody_ok {cfg : DisplayConfig} {col row : Byte} {ls : List Line} (h : setcurBody cfg col row = .ok ls) :
    ∃ v, ls = callAt 4 (cmdBody v) := by
  rw [setcurBody] at h
  cases hc : cursorAddr cfg col row with
  | none => rw [hc] at h; cases h
  | some a => rw [hc] at h; cases h; exact ⟨_, rfl⟩

theorem printBody_writes {m : Memory} {acts : List HostAct} {p : TextAddr} {ls : List Line} (h : printBody m acts p = .ok ls) :
    ls.any (·.act.writesCfg) = false ∧ ls.any (·.act.writesBlc) = false ∧ ls.any (·.act.writesInstalled) = false := by
  rw [printBody] at h
  split at h
  · cases h; exact ⟨rfl, rfl, rfl⟩
  · cases hs : stringAt m acts p with
    | none => rw [hs] at h; cases h
    | some cs =>
      rw [hs] at h; cases h
      simp only [List.any_cons, printLoop_writes cs]
      exact ⟨rfl, rfl, rfl⟩

/-- DISPTEXT's body, where there is one, in its three parts. -/
theorem disptextBody_ok {cfg : DisplayConfig} {m : Memory} {acts : List HostAct} {p : TextAddr} {ls : List Line}
    (h : disptextBody cfg m acts p = .ok ls) :
    ∃ home pr, setcurBody cfg 0 0 = .ok home ∧ printBody m acts p = .ok pr ∧
      ls = callAt 1 clearBody ++ callAt 2 home ++ callAt 3 pr := by
  rw [disptextBody] at h
  cases hc : setcurBody cfg 0 0 with
  | error r => rw [hc] at h; cases h
  | ok home =>
    cases hq : printBody m acts p with
    | error r => rw [hc, hq] at h; cases h
    | ok pr => rw [hc, hq] at h; cases h; exact ⟨home, pr, rfl, rfl, rfl⟩

/-- CFG and BUS_INSTALLED are INIT's, BLC is SETBL's and INIT's, TP and CH are the text operations', EB is not SETBL's
(10_state R33). -/
theorem bodyOf_writes {i : Instr} {s : State} {ls : List Line} (h : bodyOf i s = .ok ls) :
    (isInit i = false → ls.any (·.act.writesCfg) = false ∧ ls.any (·.act.writesInstalled) = false) ∧
    (writesBacklight i = false → ls.any (·.act.writesBlc) = false) ∧
    (readsTextSpace i = false → ls.any (·.act.writesText) = false) ∧
    (∀ on, i = .setbl on → ls.any (·.act.writesEb) = false) := by
  cases i with
  | wrnib _ _ | wrbyte _ _ | clear | inithw =>
    cases h; exact ⟨fun _ => ⟨rfl, rfl⟩, fun _ => rfl, fun _ => rfl, fun _ h => (nomatch h)⟩
  | setbl on => cases h; exact ⟨fun _ => ⟨rfl, rfl⟩, fun h => (nomatch h), fun _ => rfl, fun _ _ => rfl⟩
  | init cols rows addr blon => cases h; exact ⟨fun h => (nomatch h), fun h => (nomatch h), fun _ => rfl, fun _ h => (nomatch h)⟩
  | setcur col row =>
    obtain ⟨v, rfl⟩ := setcurBody_ok h
    exact ⟨fun _ => ⟨rfl, rfl⟩, fun _ => rfl, fun _ => rfl, fun _ h => (nomatch h)⟩
  | print p =>
    obtain ⟨h1, h2, h3⟩ := printBody_writes h
    exact ⟨fun _ => ⟨h1, h3⟩, fun _ => h2, fun h => (nomatch h), fun _ h => (nomatch h)⟩
  | disptext p =>
    obtain ⟨home, pr, hc, hq, rfl⟩ := disptextBody_ok h
    obtain ⟨h1, h2, h3⟩ := printBody_writes hq
    obtain ⟨v, rfl⟩ := setcurBody_ok hc
    simp only [List.any_append, any_callAt, h1, h2, h3]
    exact ⟨fun _ => ⟨rfl, rfl⟩, fun _ => rfl, fun h => (nomatch h), fun _ h => (nomatch h)⟩

end Sys2Proof.Machine
end

