-- ==== Sys2Proof/Laws/Port.lean ====
section
/-! SUPPORT. What a step of a busy engine can do, what acceptance samples, what becomes of the rest of a body when the text under
it changes, and what its reads then return. -/

namespace Sys2Proof.Machine

/-! ### The actions still to do, laid out anew -/

/-- Actions that read no text stay as they are. -/
theorem replan_of_no_read (m : Memory) (acts : List HostAct) (ls : List Line) (p : TextAddr)
    (h : ∀ l ∈ ls, l.act ≠ .readText) : replan m acts p ls = .ok ls := by
  induction ls generalizing p with
  | nil => rfl
  | cons l rest ih =>
    rw [replan, if_neg (h l (by simp)), ih _ (fun l' hl' => h l' (by simp [hl']))]

/-- What PRINT's loop becomes: the loop over the string that is read at the pointer. -/
theorem replan_printLoop (m : Memory) (acts : List HostAct) (p : TextAddr) (cs : List Byte) :
    replan m acts p (printLoop cs) = match stringAt m acts p with
      | none => .error .textUnterminated
      | some ds => .ok (printLoop ds) := by
  cases cs <;> rfl

/-- Actions before the first text read stay, and move the pointer. -/
theorem replan_append (m : Memory) (acts : List HostAct) (xs ys : List Line) (p : TextAddr)
    (h : ∀ l ∈ xs, l.act ≠ .readText) :
    replan m acts p (xs ++ ys) = (replan m acts (xs.foldl (fun p l => l.act.pointer p) p) ys).map (xs ++ ·) := by
  induction xs generalizing p with
  | nil => cases h : replan m acts p ys <;> simp [h, Except.map]
  | cons l xs ih =>
    rw [List.cons_append, replan, if_neg (h l (by simp)), ih _ (fun l' hl' => h l' (by simp [hl'])), List.foldl_cons]
    cases replan m acts (xs.foldl (fun p l => l.act.pointer p) (l.act.pointer p)) ys <;> rfl

/-! ### Actions that read no text do the same over any text, whatever the host does next -/

/-- The same end, over another text space and with other acts of the host's to come. -/
def ActEnd.withText (m : Memory) (h : List HostAct) : ActEnd → ActEnd
  | .ok s => .ok { s with text := m, host := h }
  | .err r s => .err r { s with text := m, host := h }

theorem busWrite_withText (v : Byte) (m : Memory) (acts : List HostAct) (s : State) :
    busWrite v { s with text := m, host := acts } = (busWrite v s).withText m acts := by
  have ha : State.answerAt { s with text := m, host := acts } 0 = s.answerAt 0 := answerAt_congr rfl rfl 0
  cases h : s.answerAt 0 with
  | ok => rw [busWrite_ok h, busWrite_ok (ha.trans h)]; rfl
  | err c =>
    rw [busWrite_err h, busWrite_err (ha.trans h)]
    simp only
    split <;> rfl

theorem busConfigure_withText (m : Memory) (acts : List HostAct) (s : State) :
    busConfigure { s with text := m, host := acts } = (busConfigure s).withText m acts := by
  have ha : State.answerAt { s with text := m, host := acts } 0 = s.answerAt 0 := answerAt_congr rfl rfl 0
  cases h : s.answerAt 0 with
  | ok => rw [busConfigure_ok h, busConfigure_ok (ha.trans h)]; rfl
  | err c => rw [busConfigure_err h, busConfigure_err (ha.trans h)]; rfl

theorem perform_withText (a : Act) (h : a ≠ .readText) (m : Memory) (acts : List HostAct) (s : State) :
    perform a { s with text := m, host := acts } = (perform a s).withText m acts := by
  cases a with
  | readText => exact absurd rfl h
  | configureBus =>
    rw [perform, perform, busConfigure_withText]
    show (if s.busInstalled = true then _ else _) = _
    split <;> rfl
  | writeBacklight => exact busWrite_withText _ m acts s
  | enHigh => rw [perform, perform, busWrite_withText]; cases busWrite _ s <;> rfl
  | enLow => rw [perform, perform, busWrite_withText]; cases busWrite _ s <;> rfl
  | testNull p => by_cases hp : p = params.textNull <;> simp [perform, hp, ActEnd.withText]
  | storeConfig cols rows addr blon => rfl
  | seedBacklight on => rfl
  | delay us => rfl
  | startPulse n rs nsel => rfl
  | hold => rfl
  | settle => rfl
  | setPointer p => rfl
  | nextChar => rfl

theorem runLines_withText (ls : List Line) (h : ∀ l ∈ ls, l.act ≠ .readText) (m : Memory) (acts : List HostAct) (s : State) :
    runLines ls { s with text := m, host := acts } = (runLines ls s).withText m acts := by
  induction ls generalizing s with
  | nil => rfl
  | cons l ls ih =>
    have hp : performLine l { s with text := m, host := acts } = (performLine l s).withText m acts := by
      rw [performLine_eq, performLine_eq]
      exact perform_withText l.act (h l (by simp)) m acts (s.atLine l)
    rw [runLines, runLines, hp]
    cases performLine l s with
    | ok s' => exact ih (fun l' hl' => h l' (by simp [hl'])) s'
    | err r s' => rfl

/-! ### The side input -/

/-- Only INIT's word samples the side input (30_encoding R90). -/
@[simp] theorem sampleBusCfg_instr {w : OpWord} {i : Instr} (h : decode w = .instr i) (b : BusBundle) (s : State) :
    sampleBusCfg w b s = if isInit i then b else s.opBusCfg := by rw [sampleBusCfg, h]

@[simp] theorem sampleBusCfg_reject {w : OpWord} {r : Reject} (h : decode w = .reject r) (b : BusBundle) (s : State) :
    sampleBusCfg w b s = s.opBusCfg := by rw [sampleBusCfg, h]

/-! ### A step of a busy engine -/

/-- The actions still to do, loaded again: nothing but where the sequencer says it stands. -/
theorem resume_load (s : State) : resume (s.load s.seq.todo) = resume s := by
  rcases h : s.seq.todo with _ | ⟨l, ls⟩
  · simp only [resume, load_seq, h]; rfl
  · have e : (s.load (l :: ls)).atLine l = s.atLine l := by simp [State.load, State.atLine, h]
    simp only [resume, load_seq, h, runLines, performLine, e]

/-- ALL THAT A STEP OVER CHANGES OF THE TEXT CAN DO: it runs the actions laid out anew, or is refused where what is still to be
read has no terminator. -/
theorem resumeOverChanges_cases (s : State) :
    (∃ ls, replan s.text s.host s.tp s.seq.todo = .ok ls ∧ resumeOverChanges s = .next (resume (s.load ls))) ∨
    (∃ r, replan s.text s.host s.tp s.seq.todo = .error r ∧ resumeOverChanges s = .refused r) := by
  rw [resumeOverChanges]
  cases replan s.text s.host s.tp s.seq.todo with
  | ok ls => exact .inl ⟨ls, rfl, rfl⟩
  | error r => exact .inr ⟨r, rfl, rfl⟩

/-- With no act of the host's, or a word waiting, the operation runs to its end. -/
theorem step_busy_none {s : State} (h : s.busy = true) (hh : s.host = []) : step s = .next (resume s) := by
  simp [step, h, busyStep, hh]

theorem step_busy_issue {s : State} {w : OpWord} {b : BusBundle} {rest : List HostAct} (h : s.busy = true)
    (hh : s.host = .issue w b :: rest) : step s = .next (resume s) := by
  simp [step, h, busyStep, hh]

/-- With a change of the text space next, over the changes. -/
theorem step_busy_setText {s : State} {n : Nat} {a : TextAddr} {b : Byte} {rest : List HostAct} (h : s.busy = true)
    (hh : s.host = .setText n a b :: rest) : step s = resumeOverChanges s := by
  simp [step, h, busyStep, hh]

/-- An operation that reads no more text lets the host's changes wait. -/
theorem resumeOverChanges_of_no_read {s : State} (h : ∀ l ∈ s.seq.todo, l.act ≠ .readText) :
    resumeOverChanges s = .next (resume s) := by
  rw [resumeOverChanges, replan_of_no_read _ _ _ _ h]
  exact congrArg _ (resume_load s)

/-! ### Old bytes or new -/

/-- A byte after the changes that are due: the one before, or one that a change puts there. -/
theorem read_landChanges {m : Memory} (h : List HostAct) (hm : Memory.wf m = true) (x : Nat) :
    Memory.read (landChanges m h).1 x = Memory.read m x ∨
      ∃ n a, a.toNat = x ∧
        HostAct.setText n a (Memory.read (landChanges m h).1 x) ∈ h.takeWhile (fun y => !textStill [y]) := by
  induction h generalizing m with
  | nil => exact .inl rfl
  | cons y h ih =>
    cases y with
    | setText n a b =>
      cases n with
      | succ n => exact .inl rfl
      | zero =>
        rw [landChanges]
        rcases ih (wf_write hm (textAddr_lt a)) with e | ⟨n, a', ha, hmem⟩
        · by_cases hx : x = a.toNat
          · right
            refine ⟨0, a, hx.symm, ?_⟩
            rw [e, hx, read_write_same hm]
            simp [textStill]
          · exact .inl (e.trans (read_write_other hx))
        · exact .inr ⟨n, a', ha, by simp [textStill] at hmem ⊢; exact .inr hmem⟩
    | issue w b => exact .inl rfl
    | rst => exact .inl rfl
    | otherMaster v => exact .inl rfl

/-- The changes left after those that are due are changes that were there. -/
theorem landChanges_left {m : Memory} {h : List HostAct} {n : Nat} {a : TextAddr} {b : Byte}
    (hmem : HostAct.setText n a b ∈ (landChanges m h).2.takeWhile (fun y => !textStill [y])) :
    ∃ n', HostAct.setText n' a b ∈ h.takeWhile (fun y => !textStill [y]) := by
  induction h generalizing m with
  | nil => simp [landChanges] at hmem
  | cons y h ih =>
    cases y with
    | setText k c d =>
      cases k with
      | zero =>
        rw [landChanges] at hmem
        obtain ⟨n', h'⟩ := ih hmem
        exact ⟨n', by simp [textStill] at h' ⊢; exact .inr h'⟩
      | succ k =>
        simp only [landChanges, textStill, Bool.not_false, List.takeWhile_cons_of_pos, List.mem_cons, HostAct.setText.injEq] at hmem
        rcases hmem with ⟨-, rfl, rfl⟩ | hmem
        · exact ⟨k + 1, by simp [textStill]⟩
        · exact ⟨n, by simp [textStill] at hmem ⊢; exact .inr hmem⟩
    | issue w b => exact ⟨n, hmem⟩
    | rst => exact ⟨n, hmem⟩
    | otherMaster v => exact ⟨n, hmem⟩

/-- A byte after any number of reads: the one before, or one that a change puts there. -/
theorem read_landed (k : Nat) {m : Memory} (h : List HostAct) (hm : Memory.wf m = true) (x : Nat) :
    Memory.read (landed k m h).1 x = Memory.read m x ∨
      ∃ n a, a.toNat = x ∧ HostAct.setText n a (Memory.read (landed k m h).1 x) ∈ h.takeWhile (fun y => !textStill [y]) := by
  induction k generalizing m h with
  | zero => exact .inl rfl
  | succ k ih =>
    rw [landed]
    rcases ih (landChanges m h).2 (wf_landChanges h hm) with e | ⟨n, a, ha, hmem⟩
    · rw [e]; exact read_landChanges h hm x
    · obtain ⟨n', h'⟩ := landChanges_left hmem
      exact .inr ⟨n', a, ha, h'⟩

/-- A change that is due after `n` more reads has not landed before. -/
theorem landed_waiting (j n : Nat) (m : Memory) (a : TextAddr) (b : Byte) (h : List HostAct) :
    landed j m (.setText (n + j) a b :: h) = (m, .setText n a b :: h) := by
  induction j with
  | zero => rfl
  | succ j ih => exact ih

end Sys2Proof.Machine
end

