-- ==== Sys2Proof/Laws/Writes.lean ====
section
/-! SUPPORT. Every byte a run puts on the bus carries the backlight bit and goes to CFG.ADDR (10_state R26). -/

namespace Sys2Proof.Machine

/-- In a list of actions the writes of a pulse come after the composition of its byte (`b`: one has been composed), and
nothing writes CFG or BLC. -/
def pulsesComposed : Bool → List Act → Bool
  | _, [] => true
  | _, .startPulse _ _ _ :: as => pulsesComposed true as
  | f, .enHigh :: as => f && pulsesComposed f as
  | f, .enLow :: as => f && pulsesComposed f as
  | _, .storeConfig _ _ _ _ :: _ => false
  | _, .seedBacklight _ :: _ => false
  | f, .configureBus :: as => pulsesComposed f as
  | f, .writeBacklight :: as => pulsesComposed f as
  | f, .delay _ :: as => pulsesComposed f as
  | f, .hold :: as => pulsesComposed f as
  | f, .settle :: as => pulsesComposed f as
  | f, .testNull _ :: as => pulsesComposed f as
  | f, .setPointer _ :: as => pulsesComposed f as
  | f, .readText :: as => pulsesComposed f as
  | f, .nextChar :: as => pulsesComposed f as

/-- Bus writes that carry CFG.ADDR, the backlight bit, and RW 0 (10_state R26, 30_encoding R81). -/
def writesAsState (s : State) (es : List Event) : Prop := ∀ a v ans, Event.w a v ans ∈ es → a = s.cfg.addr ∧ v &&& 0x08 = s.blc &&& 0x08 ∧ v &&& 0x02 = 0x00
/-- EB carries the backlight bit, and RW 0. -/
def ebAsState (s : State) : Prop := s.eb &&& 0x08 = s.blc &&& 0x08 ∧ s.eb &&& 0x02 = 0x00

/-- A bus write of a byte with the backlight bit and RW 0. -/
theorem busWrite_asState (v : Byte) (s : State) (h : v &&& 0x08 = s.blc &&& 0x08 ∧ v &&& 0x02 = 0x00) : ∃ es, (busWrite v s).state.trace = s.trace ++ es ∧ writesAsState s es := by
  cases ha : s.answerAt 0 with
  | ok => rw [busWrite_ok ha]; exact ⟨[.w s.cfg.addr v .ok], rfl, by intro a v ans hm; simp at hm; obtain ⟨rfl, rfl, rfl⟩ := hm; exact ⟨rfl, h⟩⟩
  | err c => rw [busWrite_err ha]; refine ⟨[.w s.cfg.addr v (.err c)], ?_, by intro a v ans hm; simp at hm; obtain ⟨rfl, rfl, rfl⟩ := hm; exact ⟨rfl, h⟩⟩
             show State.trace (ite _ _ _) = _; split <;> rfl

/-- THE BUS WRITES OF A RUN: each goes to CFG.ADDR with the backlight bit of BLC and RW 0; CFG and BLC are kept. -/
theorem runLines_writes (ls : List Line) : ∀ (s : State) (f : Bool), pulsesComposed f (actsOf ls) = true → (f = true → ebAsState s) →
    ∃ es, (runLines ls s).state.trace = s.trace ++ es ∧ writesAsState s es ∧ (runLines ls s).state.cfg = s.cfg ∧ (runLines ls s).state.blc = s.blc := by
  induction ls with
  | nil => intro s f _ _; exact ⟨[], by simp [ActEnd.state], by intro _ _ _ h; simp at h, rfl, rfl⟩
  | cons l ls ih =>
    intro s f hg hf
    -- one step
    have step : ∃ f', pulsesComposed f' (actsOf ls) = true ∧ (∀ s', perform l.act (s.atLine l) = .ok s' → f' = true → ebAsState s') ∧
       (∃ es, (perform l.act (s.atLine l)).state.trace = s.trace ++ es ∧ writesAsState s es) ∧ l.act.writesCfg = false ∧ l.act.writesBlc = false := by
      rcases l with ⟨m, c, a⟩
      have keep : ∀ s' : State, s'.eb = s.eb → s'.blc = s.blc → (f = true → ebAsState s') := by
        intro s' h1 h2 h; have := hf h; rw [ebAsState, h1, h2]; exact this
      have nil : ∀ t : List Event, t = s.trace → ∃ es, t = s.trace ++ es ∧ writesAsState s es := fun t h => ⟨[], by simp [h], by intro _ _ _ h; simp at h⟩
      have one : ∀ (t : List Event) (e : Event), e.isWrite = false → t = s.trace ++ [e] → ∃ es, t = s.trace ++ es ∧ writesAsState s es := 
        fun t e he h => ⟨[e], h, by intro _ _ _ h; simp at h; subst h; cases he⟩
      cases a with
      | storeConfig _ _ _ _ => simp [actsOf, pulsesComposed] at hg
      | seedBacklight _ => simp [actsOf, pulsesComposed] at hg
      | startPulse n rs nsel =>
        refine ⟨true, hg, ?_, nil _ rfl, rfl, rfl⟩
        intro s' h _
        simp only [perform, ActEnd.ok.injEq] at h; subst h
        have := compose_bits s.blc n rs
        exact ⟨this.2.2.2.2, this.2.2.2.1⟩
      | enHigh =>
        simp [actsOf, pulsesComposed] at hg
        have hw := busWrite_asState (s.eb ||| params.enBit) (s.atLine ⟨m, c, .enHigh⟩) (by
          have := hf hg.1
          have k : ∀ e : Byte, (e ||| params.enBit) &&& 0x08 = e &&& 0x08 ∧ (e ||| params.enBit) &&& 2 = e &&& 2 := by decide
          exact ⟨(k s.eb).1.trans this.1, (k s.eb).2.trans this.2⟩)
        have hfr := busWrite_frame (s.eb ||| params.enBit) (s.atLine ⟨m, c, .enHigh⟩)
        refine ⟨f, by simpa using hg.2, ?_, ?_, rfl, rfl⟩
        · intro s' h
          simp only [perform] at h
          cases hb : busWrite (s.eb ||| params.enBit) (s.atLine ⟨m, c, .enHigh⟩) with
          | ok s1 => 
            have h : (busWrite (s.eb ||| params.enBit) (s.atLine ⟨m, c, .enHigh⟩)).thenDo _ = _ := h
            rw [hb] at h hfr; cases h; exact keep _ (hfr.1.eb rfl) (hfr.1.blc rfl)
          | err r s1 => 
            have h : (busWrite (s.eb ||| params.enBit) (s.atLine ⟨m, c, .enHigh⟩)).thenDo _ = _ := h
            rw [hb] at h; cases h
        · simp only [perform]
          show ∃ es, State.trace (ActEnd.state ((busWrite (s.eb ||| params.enBit) (s.atLine ⟨m, c, .enHigh⟩)).thenDo _)) = _ ∧ _
          cases hb : busWrite (s.eb ||| params.enBit) (s.atLine ⟨m, c, .enHigh⟩) <;> rw [hb] at hw <;> exact hw
      | enLow =>
        simp [actsOf, pulsesComposed] at hg
        have hw := busWrite_asState (s.eb) (s.atLine ⟨m, c, .enLow⟩) (hf hg.1)
        have hfr := busWrite_frame (s.eb) (s.atLine ⟨m, c, .enLow⟩)
        refine ⟨f, by simpa using hg.2, ?_, ?_, rfl, rfl⟩
        · intro s' h
          simp only [perform] at h
          cases hb : busWrite (s.eb) (s.atLine ⟨m, c, .enLow⟩) with
          | ok s1 => 
            have h : (busWrite (s.eb) (s.atLine ⟨m, c, .enLow⟩)).thenDo _ = _ := h
            rw [hb] at h hfr; cases h; exact keep _ (hfr.1.eb rfl) (hfr.1.blc rfl)
          | err r s1 => 
            have h : (busWrite (s.eb) (s.atLine ⟨m, c, .enLow⟩)).thenDo _ = _ := h
            rw [hb] at h; cases h
        · simp only [perform]
          show ∃ es, State.trace (ActEnd.state ((busWrite (s.eb) (s.atLine ⟨m, c, .enLow⟩)).thenDo _)) = _ ∧ _
          cases hb : busWrite (s.eb) (s.atLine ⟨m, c, .enLow⟩) <;> rw [hb] at hw <;> exact hw
      | configureBus =>
        have hfr := perform_frame .configureBus (s.atLine ⟨m, c, .configureBus⟩)
        refine ⟨f, hg, ?_, ?_, rfl, rfl⟩
        · intro s' h; rw [h] at hfr; exact keep _ (hfr.1.eb rfl) (hfr.1.blc rfl)
        · simp only [perform]
          split
          · exact nil _ rfl
          · cases ha : s.answerAt 0 with
            | ok => rw [busConfigure_ok (s := s.atLine ⟨m, c, .configureBus⟩) ha]; exact one _ (.cfg s.cfg.bus .ok) rfl rfl
            | err c' => rw [busConfigure_err (s := s.atLine ⟨m, c, .configureBus⟩) ha]; exact one _ (.cfg s.cfg.bus (.err c')) rfl rfl
      | writeBacklight =>
        have hfr := perform_frame .writeBacklight (s.atLine ⟨m, c, .writeBacklight⟩)
        refine ⟨f, hg, ?_, ?_, rfl, rfl⟩
        · intro s' h; rw [h] at hfr; exact keep _ (hfr.1.eb rfl) (hfr.1.blc rfl)
        · exact busWrite_asState s.readBlc (s.atLine _) (by
            have k : ∀ e : Byte, (e &&& params.blBit) &&& 0x08 = e &&& 0x08 ∧ (e &&& params.blBit) &&& 2 = 0 := by decide
            exact k s.blc)
      | testNull p =>
        refine ⟨f, hg, ?_, ?_, rfl, rfl⟩
        · intro s' h; simp only [perform] at h; split at h <;> cases h; exact keep _ rfl rfl
        · simp only [perform]; split <;> exact nil _ rfl
      | delay _ => exact ⟨f, hg, fun s' h => by cases h; exact keep _ rfl rfl, one _ _ rfl rfl, rfl, rfl⟩
      | hold => exact ⟨f, hg, fun s' h => by cases h; exact keep _ rfl rfl, one _ _ rfl rfl, rfl, rfl⟩
      | settle => exact ⟨f, hg, fun s' h => by cases h; exact keep _ rfl rfl, one _ _ rfl rfl, rfl, rfl⟩
      | readText => exact ⟨f, hg, fun s' h => by cases h; exact keep _ rfl rfl, one _ _ rfl rfl, rfl, rfl⟩
      | setPointer _ => exact ⟨f, hg, fun s' h => by cases h; exact keep _ rfl rfl, nil _ rfl, rfl, rfl⟩
      | nextChar => exact ⟨f, hg, fun s' h => by cases h; exact keep _ rfl rfl, nil _ rfl, rfl, rfl⟩
    obtain ⟨f', hg', hok, ⟨es, ht, hw⟩, hc, hb⟩ := step
    have hfr := (perform_frame l.act (s.atLine l)).1
    have h1 := hfr.cfg hc; have h2 := hfr.blc hb
    cases hp : perform l.act (s.atLine l) with
    | ok s1 =>
      rw [hp] at ht h1 h2
      obtain ⟨es', ht', hw', hc', hb'⟩ := ih s1 f' hg' (hok s1 hp)
      rw [runLines_cons_ok hp]
      refine ⟨es ++ es', by rw [ht', ← List.append_assoc]; exact congrArg (· ++ es') ht, ?_, hc'.trans h1, hb'.trans h2⟩
      intro a v ans hm
      rcases List.mem_append.1 hm with hm | hm
      · exact hw a v ans hm
      · have := hw' a v ans hm
        have e1 : s1.cfg = s.cfg := h1
        have e2 : s1.blc = s.blc := h2
        rwa [e1, e2] at this
    | err r s1 =>
      rw [hp] at ht h1 h2
      rw [runLines_cons_err hp]
      exact ⟨es, ht, hw, h1, h2⟩

theorem pulsesComposed_append (as bs : List Act) : ∀ f, pulsesComposed f as = true → pulsesComposed false bs = true → pulsesComposed f (as ++ bs) = true := by
  have mono : ∀ bs f, pulsesComposed false bs = true → pulsesComposed f bs = true := by
    intro bs
    induction bs with
    | nil => intros; rfl
    | cons b bs ih =>
      intro f h; cases f <;> cases b <;> simp_all [pulsesComposed]
  induction as with
  | nil => intro f _ h; exact mono _ _ h
  | cons a as ih =>
    intro f h hb
    cases f <;> cases a <;> simp_all [pulsesComposed]

theorem pulsesComposed_printLoop (cs : List Byte) : pulsesComposed false (actsOf (printLoop cs)) = true := by
  induction cs with
  | nil => rfl
  | cons c cs ih =>
    have hsplit : actsOf (printLoop (c :: cs)) =
        .readText :: (actsOf (dataBody c) ++ .nextChar :: actsOf (printLoop cs)) := by
      rw [← actsOf_callAt 3 (dataBody c)]
      simp [printLoop, actsOf, line]
    rw [hsplit]
    show pulsesComposed false _ = true
    exact pulsesComposed_append _ _ _ rfl ih

theorem pulsesComposed_printBody {m : Memory} {acts : List HostAct} {p : TextAddr} {ls : List Line} (h : printBody m acts p = .ok ls) : pulsesComposed false (actsOf ls) = true := by
  rw [printBody] at h
  split at h
  · cases h; rfl
  · cases hs : stringAt m acts p with
    | none => rw [hs] at h; cases h
    | some cs => rw [hs] at h; cases h; exact pulsesComposed_printLoop cs

/-- Every body that does not write BLC is of this form. -/
theorem pulsesComposed_bodyOf (i : Instr) (s : State) (ls : List Line) (h : bodyOf i s = .ok ls) (hw : writesBacklight i = false) : pulsesComposed false (actsOf ls) = true := by
  cases i with
  | setbl _ | init _ _ _ _ => cases hw
  | wrnib _ _ | wrbyte _ _ | clear | inithw => cases h; rfl
  | setcur _ _ => obtain ⟨v, rfl⟩ := setcurBody_ok h; rfl
  | print p => exact pulsesComposed_printBody h
  | disptext p => 
    obtain ⟨home, pr, hc, hq, rfl⟩ := disptextBody_ok h
    obtain ⟨v, rfl⟩ := setcurBody_ok hc
    rw [actsOf, List.map_append]
    refine pulsesComposed_append _ _ _ rfl ?_
    have := actsOf_callAt 3 pr
    rw [actsOf] at this; rw [this]; exact pulsesComposed_printBody hq

end Sys2Proof.Machine
end

