-- ==== Sys2Proof/Tests/Slice0.lean ====
section
/-! SUPPORT. Tests: the checks of WellFormed, words decoded, one step per test against the vectors of 95_test_vectors, and a
witness for the hypotheses of every statement. Every expected value is transcribed from the spec. -/

namespace Sys2Proof.Tests

open Sys2Proof.Machine

/-! ### Helpers -/

/-- A bundle. Its width has no value in Lean, so equations with it are closed by `rfl`, not by `decide`. -/
def bus0 : BusBundle := BitVec.ofNat Config.busCfgW 0xB5

/-- An engine with a configured bus, its pins at 0, a word on its port. -/
def ready (cols rows blc : Byte) (answers : List BusAnswer) (text : Memory) (word : OpWord) : State :=
  { State.reset with
    cfg := { addr := 0x27, cols := cols, rows := rows, blon := true, bus := bus0 }
    busInstalled := true
    blc := blc
    xp := 0
    answers := answers
    text := text
    host := [.issue word bus0] }

/-- The machine right after reset, its pins at 0, a word on its port. -/
def fresh (answers : List BusAnswer) (word : OpWord) : State :=
  { State.reset with xp := 0, answers := answers, host := [.issue word bus0] }

/-- A ready engine in the middle of a pulse, about to perform `a`, one delivery to come. -/
def midPulse (a : Act) (host : List HostAct) : State :=
  { ready 16 2 0x08 [.ok] [] 0 with
    busy := true
    eb := 0x38
    host := host
    seq := { mstep := 3, nsel := false, ph := .hold, todo := [line 3 a, line 5 .settle] } }

/-- `n` deliveries. -/
def oks (n : Nat) : List BusAnswer := List.replicate n .ok

/-- The state an outcome goes on with, the one given where it does not go on. -/
def nextOf (s : State) : Out → State
  | .next t => t
  | .fault _ => s
  | .refused _ => s

/-- The trace of one step. -/
def traceOf (s : State) : List Event := (nextOf s (step s)).trace

/-- The result of one step. -/
def resultOf (s : State) : Result := (nextOf s (step s)).result

/-- A delivered write to the expander 0x27. -/
def W (v : Byte) : Event := .w 0x27 v .ok
/-- A failed one, with cause ADDR_NACK. -/
def F (v : Byte) : Event := .w 0x27 v (.err 0x01)
/-- A delay. -/
def D (n : Nat) : Event := .d n
/-- A text read. -/
def T (a : TextAddr) (b : Byte) : Event := .t a b

def okResult : Result := { kind := .ok, cause := 0x00 }
def nackResult : Result := { kind := .busError, cause := 0x01 }
def notReady : Result := { kind := .busError, cause := 0x04 }
def invalid : Result := { kind := .invalidArgument, cause := 0x00 }

/-- The text `48 69 00` at 0x0100, `41 00` at 0x0200, `61 62 63 64 65 00` at 0x0300, and a byte at the top of the space. -/
def text0 : Memory := [(0x0100, 0x48), (0x0101, 0x69), (0x0200, 0x41), (0x0300, 0x61), (0x0301, 0x62), (0x0302, 0x63),
  (0x0303, 0x64), (0x0304, 0x65), (0xFFFD, 0x42), (0xFFFF, 0x21)]

/-- A ready engine whose PRINT is about to read the first of the characters `cs` at `p`, eight deliveries to come. -/
def readerAt (p : TextAddr) (cs : List Byte) (host : List HostAct) : State :=
  { ready 16 2 0x08 (oks 8) text0 0 with
    busy := true
    tp := p
    host := host
    seq := { mstep := 3, nsel := false, ph := .idle, todo := printLoop cs } }

/-! ### The checks of WellFormed -/

/-- R23, R161 (d): ROWS = 0 is not a legal configuration. -/
theorem test_duty_refuses_no_rows : (Instr.init 16 0 0x27 true).meetsDuty = false := by decide
/-- R23: ROWS = 5 is not either; 1 and 4 are the ends of the legal range. -/
theorem test_duty_refuses_five_rows : (Instr.init 16 5 0x27 true).meetsDuty = false ∧
    (Instr.init 16 4 0x27 true).meetsDuty = true ∧ (Instr.init 0 1 0x27 true).meetsDuty = true := by decide
/-- R93: no operand makes an operation ill formed; INIT with an illegal configuration is well formed. -/
theorem test_wellFormed_init_no_rows : (Instr.init 16 0 0x27 true).wellFormed = true := by decide

/-! ### Decoding: words of 95_test_vectors sections 2 and 3 -/

theorem test_decode_wrnib : decode 0b0001_0000000000000000000_0_00110000#32 = .instr (.wrnib 0x30 false) ∧
    decode 0x100001AB = .instr (.wrnib 0xAB true) := by decide
theorem test_decode_wrbyte : decode 0b0010_0000000000000000000_1_10100101#32 = .instr (.wrbyte 0xA5 true) ∧
    decode 0x2000000F = .instr (.wrbyte 0x0F false) := by decide
theorem test_decode_setbl : decode 0b0011_000000000000000000000000000_1#32 = .instr (.setbl true) ∧
    decode 0x30000000 = .instr (.setbl false) := by decide
theorem test_decode_clear : decode 0b0100_0000000000000000000000000000#32 = .instr .clear := by decide
theorem test_decode_inithw : decode 0b0101_0000000000000000000000000000#32 = .instr .inithw := by decide
theorem test_decode_init : decode 0b0110_0000_1_0100111_00000010_00010000#32 = .instr (.init 16 2 0x27 true) ∧
    decode 0x603F0414 = .instr (.init 20 4 0x3F false) := by decide
theorem test_decode_setcur : decode 0b0111_000000000000_00000001_00000101#32 = .instr (.setcur 5 1) ∧
    decode 0x7000FFC8 = .instr (.setcur 200 255) := by decide
theorem test_decode_print : decode 0b1000_000000000000_0000000100000000#32 = .instr (.print 0x0100) := by decide
theorem test_decode_disptext : decode 0b1001_000000000000_0000001000000000#32 = .instr (.disptext 0x0200) := by decide
theorem test_decode_reserved_opcodes : decode 0x00000000 = .reject (.reservedOpcode 0x0) ∧
    decode 0xA0000000 = .reject (.reservedOpcode 0xA) ∧ decode 0xFFFFFFFF = .reject (.reservedOpcode 0xF) := by decide
theorem test_decode_reserved_bits : decode 0x10000200 = .reject (.reservedBits 0x1) ∧
    decode 0x18000030 = .reject (.reservedBits 0x1) ∧ decode 0x30000002 = .reject (.reservedBits 0x3) ∧
    decode 0x40000001 = .reject (.reservedBits 0x4) ∧ decode 0x50000100 = .reject (.reservedBits 0x5) ∧
    decode 0x61A70210 = .reject (.reservedBits 0x6) ∧ decode 0x70010000 = .reject (.reservedBits 0x7) ∧
    decode 0x80010100 = .reject (.reservedBits 0x8) := by decide
theorem test_decodeTableWord : decodeTableWord 32 0x60A70210 = some (.init 16 2 0x27 true) ∧
    decodeTableWord 32 0x61A70210 = none := by decide
/-- R91's map is the table the decoder searches, and the encoder writes the words of section 2. -/
theorem test_encode : encode (.wrnib 0x5F true) = 0x1000015F ∧ encode (.init 8 1 0x20 true) = 0x60A00108 ∧
    encode (.setcur 254 3) = 0x700003FE ∧ encode (Instr.data 0x48) = 0x20000148 := by decide

/-! ### One step -/

/-- 2.2: WRNIB 0xAB, 1 with BLC = 0x08. -/
theorem test_wrnib : traceOf (ready 16 2 0x08 (oks 2) [] 0x100001AB) = [W 0xAD, D 1, W 0xA9, D 50] := by decide
/-- 2.2: its second write failing. -/
theorem test_wrnib_second_write_fails :
    traceOf (ready 16 2 0x08 [.ok, .err 0x01] [] 0x10000030) = [W 0x3C, D 1, F 0x38] ∧
    resultOf (ready 16 2 0x08 [.ok, .err 0x01] [] 0x10000030) = nackResult := by decide
/-- S6: WRBYTE 0xA5, 1 with BLC = 0x08, and the nibbles it latches. -/
theorem test_wrbyte : traceOf (ready 16 2 0x08 (oks 4) [] 0x200001A5) =
      [W 0xAD, D 1, W 0xA9, D 50, W 0x5D, D 1, W 0x59, D 50] ∧
    (nextOf State.reset (step (ready 16 2 0x08 (oks 4) [] 0x200001A5))).latched = [(true, 0xA), (true, 0x5)] := by decide
/-- 2.3: the third write failing leaves the controller with the high nibble. -/
theorem test_wrbyte_third_write_fails :
    traceOf (ready 16 2 0x08 [.ok, .ok, .err 0x01] [] 0x200001A5) = [W 0xAD, D 1, W 0xA9, D 50, F 0x5D] := by decide
/-- 2.1: SETBL 1 with BLC = 0x08 writes again. -/
theorem test_setbl : traceOf (ready 16 2 0x08 (oks 1) [] 0x30000001) = [W 0x08] ∧
    (nextOf State.reset (step (ready 16 2 0x08 (oks 1) [] 0x30000000))).blc = 0x00 := by decide
/-- 2.1: SETBL 1 failing with TIMEOUT keeps the new BLC. -/
theorem test_setbl_fails : resultOf (ready 16 2 0x00 [.err 0x03] [] 0x30000001) = { kind := .busError, cause := 0x03 } ∧
    (nextOf State.reset (step (ready 16 2 0x00 [.err 0x03] [] 0x30000001))).blc = 0x08 := by decide
/-- 2.4: CLEAR with BLC = 0x08. -/
theorem test_clear : traceOf (ready 16 2 0x08 (oks 4) [] 0x40000000) =
    [W 0x0C, D 1, W 0x08, D 50, W 0x1C, D 1, W 0x18, D 50, D 2000] := by decide
/-- 2.4: write 4 failing: no D 2000. -/
theorem test_clear_last_write_fails : traceOf (ready 16 2 0x08 [.ok, .ok, .ok, .err 0x01] [] 0x40000000) =
    [W 0x0C, D 1, W 0x08, D 50, W 0x1C, D 1, F 0x18] := by decide
/-- 2.5: INITHW with BLC = 0x00. -/
theorem test_inithw : traceOf (ready 16 2 0x00 (oks 28) [] 0x50000000) =
    [D 50000, W 0x34, D 1, W 0x30, D 50, D 5000, W 0x34, D 1, W 0x30, D 50, D 1000, W 0x34, D 1, W 0x30, D 50, D 1000,
      W 0x24, D 1, W 0x20, D 50, D 1000]
    ++ [W 0x24, D 1, W 0x20, D 50, W 0x84, D 1, W 0x80, D 50, W 0x04, D 1, W 0x00, D 50, W 0x84, D 1, W 0x80, D 50,
      W 0x04, D 1, W 0x00, D 50, W 0x14, D 1, W 0x10, D 50, D 2000]
    ++ [W 0x04, D 1, W 0x00, D 50, W 0x64, D 1, W 0x60, D 50, W 0x04, D 1, W 0x00, D 50, W 0xC4, D 1, W 0xC0, D 50] := by
  decide +kernel
/-- 2.6: INIT from reset, its second bus write failing: BUS_INSTALLED, CFG and BLC keep what was written. -/
theorem test_init_write_two_fails :
    traceOf (fresh [.ok, .ok, .err 0x01] 0x60A70210) = [.cfg bus0 .ok, W 0x08, D 50000, F 0x3C] ∧
    (nextOf State.reset (step (fresh [.ok, .ok, .err 0x01] 0x60A70210))).busInstalled = true ∧
    (nextOf State.reset (step (fresh [.ok, .ok, .err 0x01] 0x60A70210))).cfg =
      { addr := 0x27, cols := 16, rows := 2, blon := true, bus := bus0 } := ⟨rfl, rfl, rfl⟩
/-- 2.6: a second INIT goes to its own new address, with no CFG event. -/
theorem test_init_again : (traceOf (ready 16 2 0x08 (oks 29) [] 0x603F0414)).take 3 =
    [.w 0x3F 0x00 .ok, .d 50000, .w 0x3F 0x34 .ok] := by decide +kernel
/-- 2.7: SETCUR 5, 1 on a 16 by 2 display with BLC = 0x08. -/
theorem test_setcur : traceOf (ready 16 2 0x08 (oks 4) [] 0x70000105) =
    [W 0xCC, D 1, W 0xC8, D 50, W 0x5C, D 1, W 0x58, D 50] := by decide
/-- 2.7: both clamps (0xC0), the wrap of the 8-bit sum (0xD2), and the refusals. -/
theorem test_cursorAddr : cursorAddr { DisplayConfig.zero with cols := 16, rows := 2 } 200 255 = some 0x40 ∧
    cursorAddr { DisplayConfig.zero with cols := 255, rows := 4 } 254 3 = some 0x52 ∧
    cursorAddr { DisplayConfig.zero with cols := 0, rows := 1 } 0 0 = some 0x00 ∧
    cursorAddr { DisplayConfig.zero with cols := 16, rows := 0 } 0 0 = none ∧
    cursorAddr { DisplayConfig.zero with cols := 16, rows := 5 } 0 4 = none := by decide
/-- 2.8: PRINT of `48 69 00` with BLC = 0x08. -/
theorem test_print : traceOf (ready 16 2 0x08 (oks 8) text0 0x80000100) =
    [T 0x0100 0x48, W 0x4D, D 1, W 0x49, D 50, W 0x8D, D 1, W 0x89, D 50, T 0x0101 0x69, W 0x6D, D 1, W 0x69, D 50,
      W 0x9D, D 1, W 0x99, D 50, T 0x0102 0x00] := by decide
/-- S9: PRINT of "abcde" with the 12th write failing. -/
theorem test_print_low_nibble_fails : traceOf (ready 16 2 0x08 (oks 11 ++ [.err 0x01]) text0 0x80000300) =
    [T 0x0300 0x61, W 0x6D, D 1, W 0x69, D 50, W 0x1D, D 1, W 0x19, D 50, T 0x0301 0x62, W 0x6D, D 1, W 0x69, D 50,
      W 0x2D, D 1, W 0x29, D 50, T 0x0302 0x63, W 0x6D, D 1, W 0x69, D 50, W 0x3D, D 1, F 0x39] := by decide
/-- 2.9: DISPTEXT of `41 00` with BLC = 0x00 and CFG = (20, 4). -/
theorem test_disptext : traceOf (ready 20 4 0x00 (oks 12) text0 0x90000200) =
    [W 0x04, D 1, W 0x00, D 50, W 0x14, D 1, W 0x10, D 50, D 2000, W 0x84, D 1, W 0x80, D 50, W 0x04, D 1, W 0x00, D 50,
      T 0x0200 0x41, W 0x45, D 1, W 0x41, D 50, W 0x15, D 1, W 0x11, D 50, T 0x0201 0x00] := by decide
/-- 2.9: DISPTEXT NULL clears and homes first; 3: PRINT NULL sends nothing. -/
theorem test_null_text : resultOf (ready 16 2 0x08 (oks 8) [] 0x90000000) = invalid ∧
    (traceOf (ready 16 2 0x08 (oks 8) [] 0x90000000)).length = 17 ∧
    resultOf (ready 16 2 0x08 [] [] 0x80000000) = invalid ∧ traceOf (ready 16 2 0x08 [] [] 0x80000000) = [] := by decide
/-- 3: an illegal word before the gate, and the gate before everything else. -/
theorem test_illegal_and_gate : resultOf (fresh [] 0xFFFFFFFF) = { kind := .illegalOp, cause := 0x00 } ∧
    resultOf (fresh [] 0x80000000) = notReady ∧ resultOf (fresh [] 0x30000001) = notReady ∧
    (nextOf State.reset (step (fresh [] 0x30000001))).blc = 0x00 := by decide
/-- R198, R111 (d): a SETBL after EN was left high latches nibble 0 with RS 0. -/
theorem test_setbl_after_en_high :
    (nextOf State.reset (step { ready 16 2 0x08 (oks 1) [] 0x30000001 with xp := 0x3C })).latched = [(false, 0)] := by decide

/-- R90: the side input is sampled with INIT's word, and not with another operation's or an illegal word of INIT's opcode. -/
theorem test_side_input : (nextOf State.reset (step (fresh [.err 0x01] 0x60A70210))).opBusCfg = bus0 ∧
    (nextOf State.reset (step (fresh [] 0x30000001))).opBusCfg = BusBundle.zero ∧
    (nextOf State.reset (step (fresh [] 0x61A70210))).opBusCfg = BusBundle.zero := ⟨rfl, rfl, rfl⟩

/-- R74: from reset on, a change made after the word is issued is seen by the read it is due at: the first byte new, the second old,
the change of it landing one read too late. -/
theorem test_text_changes_under_print :
    traceOf { ready 16 2 0x08 (oks 8) text0 0 with
      host := [.issue 0x80000100 bus0, .setText 0 0x0100 0x4A, .setText 2 0x0101 0x6B] } =
      [T 0x0100 0x4A, W 0x4D, D 1, W 0x49, D 50, W 0xAD, D 1, W 0xA9, D 50, T 0x0101 0x69, W 0x6D, D 1, W 0x69, D 50,
        W 0x9D, D 1, W 0x99, D 50, T 0x0102 0x00] ∧
    stringAt text0 [.setText 0 0x0100 0x4A, .setText 1 0x0101 0x6B] 0x0100 = some [0x4A, 0x6B] := by decide

/-! ### The result's codes -/

/-- R29. -/
theorem test_codes : kindCode .ok = 0 ∧ kindCode .busError = 1 ∧ kindCode .invalidArgument = 2 ∧ kindCode .illegalOp = 3 ∧
    causeAddrNack = 0x01 ∧ causeArbLost = 0x02 ∧ causeTimeout = 0x03 := by decide

/-! ### Witnesses: a state and operands that meet the hypotheses of each statement, at the ends of their ranges -/

/-- WRNIB, WRBYTE (PositionsOfWrnibAndWrbyte too), CLEAR, INITHW, SETCUR, PRINT, DISPTEXT: a ready engine with enough deliveries. -/
theorem witness_ready : (ready 16 2 0x08 (oks 28) text0 0).busInstalled = true ∧ (ready 16 2 0x08 (oks 28) text0 0).cfg.rows ≠ 0 ∧
    ∀ k, k < 28 → (ready 16 2 0x08 (oks 28) text0 0).answerAt k = .ok := by decide

/-- EncodeDecodeAgree: a word of each end of the map. -/
theorem witness_decode : decode 0x100001FF = .instr (.wrnib 0xFF true) ∧ decode 0x9000FFFF = .instr (.disptext 0xFFFF) := by
  decide

/-- IllegalWordsAreTheReservedOnes: an idle engine with an illegal word, one of each kind. -/
theorem witness_illegal : (fresh [] 0xA0000000).busy = false ∧ (fresh [] 0xA0000000).host = [.issue 0xA0000000 bus0] ∧
    decode 0xA0000000 = .reject (.reservedOpcode 0xA) ∧ decode 0x10000200 = .reject (.reservedBits 0x1) := ⟨rfl, rfl, by decide, by decide⟩

/-- ComposeBuildsTheExpanderByte: both legal values of BLC. -/
theorem witness_compose : ((0x00 : Byte) = 0x00 ∨ (0x00 : Byte) = 0x08) ∧ ((0x08 : Byte) = 0x00 ∨ (0x08 : Byte) = 0x08) ∧
    (ready 16 2 0x08 [] [] 0).busInstalled = true := by decide

/-- StepRunsTheDecodedOperation: an idle engine with a legal word, INIT's and another's. -/
theorem witness_step : (ready 16 2 0x08 (oks 1) [] 0x30000001).busy = false ∧
    (ready 16 2 0x08 (oks 1) [] 0x30000001).host = [.issue 0x30000001 bus0] ∧ decode 0x30000001 = .instr (.setbl true) ∧
    (fresh [] 0x60A70210).host = [.issue 0x60A70210 bus0] ∧ decode 0x60A70210 = .instr (.init 16 2 0x27 true) :=
  ⟨rfl, rfl, by decide, rfl, by decide⟩

/-- GateAnswersNotReady: an operation that is no INIT, a bus not configured. -/
theorem witness_gate : isInit (.print 0) = false ∧ (fresh [] 0x80000000).busInstalled = false := by decide

/-- BusyPortHoldsTheWord, TicksReachTheEndOfTheOperation: an engine in the middle of a pulse, a second word waiting, and none. -/
theorem witness_busy : (midPulse .hold [.issue 0x40000000 bus0]).busy = true ∧
    (midPulse .hold [.issue 0x40000000 bus0]).host = [.issue 0x40000000 bus0] ∧ (midPulse .hold []).busy = true ∧
    (midPulse .hold []).host = [] ∧ textStill (midPulse .hold [.issue 0x40000000 bus0]).host = true :=
  ⟨rfl, rfl, rfl, rfl, rfl⟩

/-- TextChangeIsHarmlessToOtherOperations: an engine in the middle of a pulse, the first and the last byte changing. -/
theorem witness_harmless : (midPulse .hold [.setText 0 0 0x41]).busy = true ∧
    (midPulse .hold [.setText 0 0 0x41]).host = [.setText 0 0 0x41] ∧
    (midPulse .hold [.setText 2 0xFFFF 0x41]).host = [.setText 2 0xFFFF 0x41] ∧
    ∀ l ∈ (midPulse .hold [.setText 0 0 0x41]).seq.todo, l.act ≠ .readText :=
  ⟨rfl, rfl, rfl, by decide⟩

/-- PrintSendsOldOrNewBytes: PRINT about to read `48 69`, both bytes changing before they are read, the first too late, and the
second becoming the terminator; and the empty string near the top of the space losing its own. -/
theorem witness_text_change :
    (readerAt 0x0100 [0x48, 0x69] [.setText 0 0x0101 0x00]).busy = true ∧
    (readerAt 0x0100 [0x48, 0x69] [.setText 0 0x0101 0x00]).seq.todo = printLoop [0x48, 0x69] ∧
    (readerAt 0x0100 [0x48, 0x69] [.setText 0 0x0101 0x00]).host = [.setText 0 0x0101 0x00] ∧ Memory.wf text0 = true ∧
    readsString text0 [.setText 0 0x0100 0x4A, .setText 1 0x0101 0x6B] 0x0100 [0x4A, 0x6B] ∧
    readsString text0 [.setText 1 0x0100 0x4A] 0x0100 [0x48, 0x69] ∧
    readsString text0 [.setText 0 0x0101 0x00] 0x0100 [0x48] ∧ textStill ([] : List HostAct) = true ∧
    (∀ k, k < 8 → (readerAt 0x0100 [0x48, 0x69] [.setText 0 0x0101 0x00]).answerAt k = .ok) ∧
    (readerAt 0xFFFE [] [.setText 0 0xFFFE 0x41]).seq.todo = printLoop [] ∧ readsString text0 [] 0xFFFE [] ∧
    ∀ k, (0xFFFE : TextAddr).toNat + k < 65536 → byteRead text0 [.setText 0 0xFFFE 0x41] 0xFFFE k ≠ 0x00 :=
  ⟨rfl, rfl, rfl, by decide, stringAt_eq_some.1 (by decide), stringAt_eq_some.1 (by decide),
    stringAt_eq_some.1 (by decide), rfl, by decide, rfl, stringAt_eq_some.1 (by decide), stringAt_eq_none.1 (by decide)⟩

/-- PulseSequencerFollowsItsTable: an engine at each of the five phases, its write delivered and failing. -/
theorem witness_sequencer :
    (∀ a ∈ [Act.startPulse 0x30 false true, .enHigh, .hold, .enLow, .settle],
      (midPulse a []).seq.todo = [line 3 a, line 5 .settle] ∧ (midPulse a []).answerAt 0 = .ok ∧
      ({ midPulse a [] with answers := [.err 0xFF] } : State).answerAt 0 = .err 0xFF) := by decide

/-- ResetFromIdle, IdleEngineDoesNothing, HostWritesItsTextSpace, OtherMasterChangesThePinsOnly: an idle engine and each act of
the host, at the last address of the text space. -/
theorem witness_idle : (fresh [] 0).busy = false ∧ ({ fresh [] 0 with host := [.rst] }).host = [.rst] ∧
    ({ fresh [] 0 with host := [] }).host = [] ∧
    ({ fresh [] 0 with host := [.setText 3 0xFFFF 0x41], text := text0 }).host = [.setText 3 0xFFFF 0x41] ∧
    Memory.wf text0 = true ∧ ({ fresh [] 0 with host := [.otherMaster 0x04] }).host = [.otherMaster 0x04] :=
  ⟨rfl, rfl, rfl, rfl, by decide, rfl⟩

/-- StopsWhileAnOperationRuns: a busy engine, and each of the two acts. -/
theorem witness_stops : (midPulse .hold [.rst]).busy = true ∧ (midPulse .hold [.rst]).host = [.rst] ∧
    (midPulse .hold [.otherMaster 0]).busy = true ∧ (midPulse .hold [.otherMaster 0]).host = [.otherMaster 0] :=
  ⟨rfl, rfl, rfl, rfl⟩

/-- WrnibFailureEndsThePulse, SetblWritesTheCacheThenTheBus: the first and the second write failing, and delivered. -/
theorem witness_pulse_failures : (ready 16 2 0x08 [.err 0x01] [] 0).answerAt 0 = .err 0x01 ∧
    (ready 16 2 0x08 [.ok, .err 0x03] [] 0).answerAt 0 = .ok ∧
    (ready 16 2 0x08 [.ok, .err 0x03] [] 0).answerAt 1 = .err 0x03 := by decide

/-- ClearFailureDoesNotWait: the first write and the last. -/
theorem witness_clear_failure : (ready 16 2 0x08 [.err 0x01] [] 0).answersOk 0 ∧
    (ready 16 2 0x08 [.err 0x01] [] 0).answerAt 0 = .err 0x01 ∧
    (∀ k, k < 3 → (ready 16 2 0x08 [.ok, .ok, .ok, .err 0x01] [] 0).answerAt k = .ok) ∧
    (ready 16 2 0x08 [.ok, .ok, .ok, .err 0x01] [] 0).answerAt 3 = .err 0x01 :=
  ⟨fun k hk => absurd hk (Nat.not_lt_zero k), by decide, by decide, by decide⟩

/-- The three INIT statements: from reset with 30 deliveries, configured with 29, and a failing configuration. -/
theorem witness_init : (fresh (oks 30) 0).busInstalled = false ∧ (∀ k, k < 30 → (fresh (oks 30) 0).answerAt k = .ok) ∧
    (ready 16 2 0x08 (oks 29) [] 0).busInstalled = true ∧ (∀ k, k < 29 → (ready 16 2 0x08 (oks 29) [] 0).answerAt k = .ok) ∧
    (fresh [.err 0x03] 0).answerAt 0 = .err 0x03 := by decide

/-- SETCUR: legal rows at both ends, in range and clamped; columns in range and clamped; the rows that are illegal. -/
theorem witness_setcur : (rowLegal 1 0 ∧ rowLegal 4 255 ∧ rowLegal 200 3) ∧ ¬ rowLegal 0 0 ∧ ¬ rowLegal 5 4 ∧
    ((3 : Byte).toNat < (4 : Byte).toNat ∧ ([0x00, 0x40, 0x14, 0x54] : List Byte)[(3 : Byte).toNat]? = some 0x54) ∧
    ((2 : Byte).toNat ≥ (2 : Byte).toNat ∧ (16 : Byte).toNat ≥ (16 : Byte).toNat) := by
  unfold rowLegal; decide

/-- PRINT and DISPTEXT: the empty string, a string, and the longest that ends at the top of the text space. -/
theorem witness_string : readsString text0 [] 0x0102 [] ∧ readsString text0 [] 0x0100 [0x48, 0x69] ∧
    readsString text0 [] 0xFFFD [0x42] ∧ (0x0100 : TextAddr) ≠ 0 :=
  ⟨stringAt_eq_some.1 (by decide), stringAt_eq_some.1 (by decide), stringAt_eq_some.1 (by decide), by decide⟩

/-- UnterminatedTextIsRefused: the last byte of the text space is no terminator. -/
theorem witness_unterminated : (0xFFFF : TextAddr) ≠ 0 ∧
    ∀ k, (0xFFFF : TextAddr).toNat + k < 65536 → byteRead text0 [] 0xFFFF k ≠ 0x00 :=
  ⟨by decide, stringAt_eq_none.1 (by decide)⟩

/-- PrintStopsAtTheFailingLowNibble: a string of three, the 11th write failing and the 12th. -/
theorem witness_print_failure : readsString text0 [] 0x0300 [0x61, 0x62, 0x63, 0x64, 0x65] ∧
    (∀ k, k < 10 → (ready 16 2 0x08 (oks 10 ++ [.err 0x01]) text0 0).answerAt k = .ok) ∧
    (ready 16 2 0x08 (oks 10 ++ [.err 0x01]) text0 0).answerAt 10 = .err 0x01 ∧
    (∀ k, k < 11 → (ready 16 2 0x08 (oks 11 ++ [.err 0x01]) text0 0).answerAt k = .ok) ∧
    (ready 16 2 0x08 (oks 11 ++ [.err 0x01]) text0 0).answerAt 11 = .err 0x01 :=
  ⟨stringAt_eq_some.1 (by decide), by decide, by decide, by decide, by decide⟩

/-- EverySpecifiedOperationEnds: a specified SETCUR and a specified PRINT. -/
theorem witness_specified : specified (.setcur 5 1) (ready 16 2 0x08 [] [] 0) ∧ specified (.print 0) (fresh [] 0) ∧
    specified (.disptext 0) (ready 16 2 0x08 [] [] 0) := by
  refine ⟨?_, .inl rfl, ?_, .inl rfl⟩
  · show rowLegal _ _
    unfold rowLegal
    decide
  · decide

/-- StepKeepsTheInvariant: a state that is not reset, with a step. -/
theorem witness_invariant : (ready 16 2 0x08 (oks 1) text0 0x30000001).Inv ∧
    ∃ t, step (ready 16 2 0x08 (oks 1) text0 0x30000001) = .next t :=
  ⟨⟨rfl, rfl, .inr rfl, fun _ => rfl, by decide, fun _ _ _ h => (nomatch h)⟩, _, rfl⟩

/-- The statements about every operation that answers a next state; NoWriteBeforeConfiguration: INIT from reset. -/
theorem witness_next : (∃ t, exec (.setbl true) (ready 16 2 0x08 (oks 1) [] 0) = .next t) ∧
    (∃ t, exec (.init 16 2 0x27 true) (fresh (oks 30) 0) = .next t) ∧ (fresh (oks 30) 0).busInstalled = false :=
  ⟨⟨_, rfl⟩, ⟨_, rfl⟩, rfl⟩

/-- TheFirstFailureEndsTheOperation: a run whose second write fails, the result its cause; and a run that the gate ends. -/
theorem witness_failure : (∃ t, exec (.wrnib 0x30 false) (ready 16 2 0x08 [.ok, .err 0x03] [] 0) = .next t ∧
      t.trace = [W 0x3C, D 1, .w 0x27 0x38 (.err 0x03)] ∧ t.result = { kind := .busError, cause := 0x03 }) ∧
    ∃ t, exec .clear (fresh [] 0) = .next t ∧ t.trace = [] ∧ t.result = notReady :=
  ⟨⟨_, rfl, by decide, by decide⟩, ⟨_, rfl, by decide, by decide⟩⟩

/-- AbortedTraceIsAPrefix: one run that fails at its second write, and the run of the same state that does not. -/
theorem witness_abort : (ready 16 2 0x08 [.ok, .err 0x01] [] 0).busInstalled = true ∧
    (∃ t, exec (.wrnib 0x30 false) (ready 16 2 0x08 [.ok, .err 0x01] [] 0) = .next t ∧ t.result.kind = .busError) ∧
    (∃ u, exec (.wrnib 0x30 false) { ready 16 2 0x08 [.ok, .err 0x01] [] 0 with answers := oks 2, draws := 0 } = .next u ∧
      u.result.kind ≠ .busError) :=
  ⟨rfl, ⟨_, rfl, by decide⟩, ⟨_, rfl, by decide⟩⟩

/-- OperationsTakeTheirMinimumTime: a run that ends `OK`. -/
theorem witness_costs : ∃ t, exec .clear (ready 16 2 0x08 (oks 4) [] 0) = .next t ∧ t.result.kind = .ok :=
  ⟨_, rfl, by decide⟩

end Sys2Proof.Tests
end

/-! The scope (00_scope R13): how an operation ends, that every operation the spec gives a behaviour does, and that every step
keeps the invariant of an idle engine. -/

namespace Sys2Proof.Machine

/-! ### How an operation ends -/

/-- However its body runs, an operation ends with a result other than ILLEGAL_OP, of cause 0 but for BUS_ERROR (10_state R29,
60_exceptions R191, R192). -/
theorem operate_ended (ls : List Line) (s : State) :
    ∃ r, operate ls s = (runLines ls (s.load ls)).state.ended r ∧ r.kind ≠ .illegalOp ∧
      (r.kind ≠ .busError → r.cause = 0x00) := by
  rw [operate]
  rcases runLines_cases ls (s.load ls) with ⟨u, _, h, -⟩ | ⟨u, _, _, c, h, -⟩ | ⟨u, _, h, -⟩ <;> rw [h]
  · exact ⟨resOk, rfl, by decide, fun _ => rfl⟩
  · exact ⟨resBusError c, rfl, nofun, fun hk => absurd rfl hk⟩
  · exact ⟨resInvalidArgument, rfl, by decide, fun _ => rfl⟩

/-! ### What the spec gives a behaviour has a body -/

/-- PRINT has a body at the null pointer and at every string (43_text_api R166). -/
theorem printBody_of_specified {m : Memory} {acts : List HostAct} {p : TextAddr}
    (h : p = 0 ∨ ∃ cs, readsString m acts p cs) : ∃ ls, printBody m acts p = .ok ls := by
  by_cases hp : p = 0
  · subst hp
    exact ⟨_, printBody_null m acts⟩
  · obtain ⟨cs, hcs⟩ := h.resolve_left hp
    exact ⟨_, printBody_string hp hcs⟩

/-- Legal rows and strings with a terminator are all that a body asks for (U4, U5). -/
theorem bodyOf_of_specified {i : Instr} {s : State} (h : specified i s) : ∃ ls, bodyOf i s = .ok ls := by
  cases i with
  | wrnib _ _ | wrbyte _ _ | setbl _ | clear | inithw | init _ _ _ _ => exact ⟨_, rfl⟩
  | setcur col row =>
    have hrow : rowLegal s.cfg.rows row := h
    exact ⟨_, by rw [bodyOf, setcurBody, cursorAddr_legal hrow]⟩
  | print p => exact printBody_of_specified h
  | disptext p =>
    obtain ⟨hrows, htext⟩ := h
    obtain ⟨ls, hls⟩ := printBody_of_specified htext
    exact ⟨_, by rw [bodyOf, disptextBody, setcurBody_home hrows, hls]⟩

/-- Settles O39: what is specified has a body, and a body's run ends like every other. -/
theorem everySpecifiedOperationEnds : Obligations.EverySpecifiedOperationEnds := by
  intro i s hs
  obtain ⟨body, hbody⟩ := bodyOf_of_specified hs
  rcases exec_cases i s with ⟨-, -, he⟩ | ⟨-, ls, -, he⟩ | ⟨-, -, r, hr, -⟩
  · exact ⟨_, he, rfl, rfl, rfl, nofun⟩
  · obtain ⟨r, hend, hkind, -⟩ := operate_ended ls s
    exact ⟨_, he, by rw [hend]; exact ⟨rfl, rfl, rfl, hkind⟩⟩
  · exact nomatch hbody.symm.trans hr

/-! ### The invariant -/

/-- What of the invariant holds also while an operation runs: BLC, the text space and the bus writes are legal. -/
structure State.Lawful (s : State) : Prop where
  blc : s.blc = 0x00 ∨ s.blc = 0x08
  text : Memory.wf s.text = true
  rwLow : ∀ a v ans, Event.w a v ans ∈ s.trace → v &&& 0x02 = 0x00

theorem State.Inv.lawful {s : State} (h : s.Inv) : s.Lawful := by
  obtain ⟨-, -, hblc, -, htext, hrw⟩ := h
  exact ⟨hblc, htext, hrw⟩

/-- Only BLC, the text space and the trace matter. -/
theorem State.Lawful.of_eq {s s' : State} (h : s.Lawful) (hblc : s'.blc = s.blc) (htext : s'.text = s.text)
    (htrace : s'.trace = s.trace) : s'.Lawful :=
  ⟨hblc ▸ h.blc, htext ▸ h.text, htrace ▸ h.rwLow⟩

/-- An operation that ends in a lawful state, with cause 0 but for BUS_ERROR, ends in the invariant. -/
theorem State.Lawful.ended_inv {s : State} {r : Result} (h : s.Lawful) (hr : r.kind ≠ .busError → r.cause = 0x00) :
    (s.ended r).Inv :=
  ⟨rfl, rfl, h.blc, hr, h.text, h.rwLow⟩

/-- BLC from a flag is a legal value (10_state R25). -/
theorem State.Lawful.setBacklight {s : State} (h : s.Lawful) (on : Bool) : (s.setBacklight on).Lawful :=
  ⟨by cases on; exacts [.inl rfl, .inr rfl], h.text, h.rwLow⟩

/-- Actions that compose each byte before they write it keep BLC, put no RW on the bus, and let only the host change text. -/
theorem runLines_lawful {ls : List Line} (hls : pulsesComposed false (actsOf ls) = true) {s : State} (h : s.Lawful) :
    (runLines ls s).state.Lawful := by
  obtain ⟨es, htrace, hwrites, -, hblc⟩ := runLines_writes ls s false hls nofun
  refine ⟨by rw [hblc]; exact h.blc, (runLines_frame ls s).wf h.text, fun a v ans hmem => ?_⟩
  rw [htrace] at hmem
  rcases List.mem_append.1 hmem with hold | hnew
  · exact h.rwLow a v ans hold
  · obtain ⟨-, -, hrw⟩ := hwrites a v ans hnew
    exact hrw

/-- The body of every operation keeps a state lawful: SETBL and INIT write BLC before their first bus write, the others never. -/
theorem runLines_bodyOf_lawful {i : Instr} {s₀ : State} {ls : List Line} (hb : bodyOf i s₀ = .ok ls) {s : State}
    (h : s.Lawful) : (runLines ls s).state.Lawful := by
  cases hw : writesBacklight i with
  | false => exact runLines_lawful (pulsesComposed_bodyOf i s₀ ls hb hw) h
  | true =>
    cases i with
    | setbl on =>
      cases hb
      rw [setblBody, runLines_cons_ok rfl]
      refine runLines_lawful rfl (State.Lawful.setBacklight ?_ on)
      exact h.of_eq rfl rfl rfl
    | init cols rows addr blon =>
      cases hb
      rw [initBody, List.cons_append, List.cons_append, runLines_cons_ok rfl, runLines_cons_ok rfl]
      refine runLines_lawful rfl (State.Lawful.setBacklight ?_ blon)
      exact h.of_eq rfl rfl rfl
    | wrnib _ _ | wrbyte _ _ | clear | inithw | setcur _ _ | print _ | disptext _ => cases hw

/-- Every operation ends in the invariant: at the gate nothing but the result changes, else the body keeps the state lawful. -/
theorem exec_inv {i : Instr} {s t : State} (h : s.Lawful) (he : exec i s = .next t) : t.Inv := by
  rcases exec_next_cases he with ⟨-, -, rfl⟩ | ⟨-, ls, hb, rfl⟩
  · exact h.ended_inv (fun hk => absurd rfl hk)
  · obtain ⟨r, hend, -, hcause⟩ := operate_ended ls s
    rw [hend]
    exact (runLines_bodyOf_lawful hb (s := s.load ls) (h.of_eq rfl rfl rfl)).ended_inv hcause

theorem step_of_idle {s : State} (h : s.busy = false) : step s = idleStep exec s := by
  simp [step, h]

/-- Settles O41, by the host's next act: a word's operation ends in the invariant, the other acts change nothing it speaks of
but for RST's reset values and one byte of text. -/
theorem stepKeepsTheInvariant : Obligations.StepKeepsTheInvariant := by
  intro s t hs ht
  have hlaw := hs.lawful
  obtain ⟨hbusy, hseq, hblc, hres, htext, hrw⟩ := hs
  rw [step_of_idle hbusy, idleStep] at ht
  cases hhost : s.host with
  | nil =>
    rw [hhost] at ht
    cases ht
    exact ⟨hbusy, hseq, hblc, hres, htext, hrw⟩
  | cons act rest =>
    rw [hhost] at ht
    cases act with
    | issue w bus =>
      have hacc : (accept w bus rest s).Lawful := hlaw.of_eq rfl rfl rfl
      cases hdec : decode w with
      | instr i =>
        simp only [hdec] at ht
        exact exec_inv hacc ht
      | reject r =>
        simp only [hdec] at ht
        cases ht
        exact hacc.ended_inv (fun _ => rfl)
    | rst =>
      cases ht
      exact ⟨rfl, rfl, .inl rfl, fun _ => rfl, htext, hrw⟩
    | setText n a b =>
      cases ht
      exact ⟨hbusy, hseq, hblc, hres, wf_write htext (textAddr_lt a), hrw⟩
    | otherMaster v =>
      cases ht
      exact ⟨hbusy, hseq, hblc, hres, htext, hrw⟩

end Sys2Proof.Machine

/-! The state between operations and under them (10_state): the reset values, the busy port and its sequencer (R27, R31), what an
operation leaves unchanged (R33), and the backlight on the bus and on the pins (R26, R38). -/

namespace Sys2Proof.Machine

/-! ### The state after reset -/

/-- Settles O13, from the literal of the reset state. -/
theorem resetHoldsTheSpecsValues : Obligations.ResetHoldsTheSpecsValues :=
  ⟨rfl, rfl, rfl, rfl, rfl, rfl, rfl, rfl, rfl, rfl⟩

/-- Settles O40: idle, BLC 0, cause 0, no cell of text and no event yet. -/
theorem resetMeetsTheInvariant : Obligations.ResetMeetsTheInvariant :=
  ⟨rfl, rfl, .inl rfl, fun _ => rfl, rfl, fun _ _ _ hmem => absurd hmem List.not_mem_nil⟩

/-! ### The busy engine -/

/-- Settles O10: the port is not looked at, and a run keeps OPR, the side input and, over a text that holds still, the host's
acts. -/
theorem busyPortHoldsTheWord : Obligations.BusyPortHoldsTheWord := by
  intro s hbusy
  have hframe := runLines_frame s.seq.todo s
  obtain ⟨r, hr⟩ := concludeRun_eq (runLines s.seq.todo s)
  refine ⟨step_busy_none hbusy, fun w b rest hhost => step_busy_issue hbusy hhost, fun hstill => ?_, ?_⟩
  · rw [resume, hr]
    exact (hframe.still (.inr hstill)).1
  · rw [resume, hr]
    exact ⟨rfl, rfl, hframe.opr, hframe.opBusCfg, rfl⟩

/-- One action of the sequencer reaches the end of the operation, or takes one line off those to do on the way to that end. -/
theorem tick_cases (s : State) :
    tick s = resume s ∨
    ∃ l, s.seq.todo = l :: (tick s).seq.todo ∧ (tick s).busy = s.busy ∧ resume (tick s) = resume s := by
  cases htodo : s.seq.todo with
  | nil => left; simp [tick, resume, htodo, conclude_eq_ended]
  | cons l rest =>
    obtain ⟨hframe, hrest, -⟩ := perform_frame l.act (s.atLine l)
    cases hp : perform l.act (s.atLine l) with
    | err r s' => left; simp [tick, resume, htodo, performLine_eq, runLines_cons_err hp, hp, conclude_eq_ended]
    | ok s' =>
      rw [hp] at hframe hrest
      have htick : tick s = s' := by simp [tick, htodo, performLine_eq, hp]
      have hrest' : s'.seq.todo = rest := hrest.trans (by simp [htodo])
      refine .inr ⟨l, ?_, ?_, ?_⟩
      · rw [htick, hrest']
      · rw [htick]; exact hframe.busy
      · rw [htick, resume, hrest', resume, htodo, runLines_cons_ok hp]

/-- Ticks reach the end of a busy engine's operation, at the latest one after the last action to do. -/
theorem ticks_reach_resume (s : State) (hbusy : s.busy = true) :
    ∃ n, n ≤ s.seq.todo.length + 1 ∧ ticks n s = resume s ∧ ∀ k, k < n → (ticks k s).busy = true := by
  rcases tick_cases s with hend | ⟨l, hl, hbusy', hres⟩
  · exact ⟨1, by omega, hend, fun k hk => by rw [Nat.lt_one_iff.1 hk]; exact hbusy⟩
  · obtain ⟨n, hn, hend, hrun⟩ := ticks_reach_resume (tick s) (hbusy'.trans hbusy)
    refine ⟨n + 1, by rw [hl, List.length_cons]; omega, hend.trans hres, fun k hk => ?_⟩
    cases k with
    | zero => exact hbusy
    | succ k => exact hrun k (by omega)
termination_by s.seq.todo.length
decreasing_by rw [hl, List.length_cons]; omega

/-- Settles O11, by induction over the actions still to do. -/
theorem ticksReachTheEndOfTheOperation : Obligations.TicksReachTheEndOfTheOperation := ticks_reach_resume

/-- The end of a run over another text space. -/
theorem concludeRun_withText (e : ActEnd) (m : Memory) (acts : List HostAct) :
    concludeRun (e.withText m acts) = { concludeRun e with text := m, host := acts } := by
  cases e <;> rfl

/-- Actions that read no text come to the same end with no act of the host's, and leave the text alone. -/
theorem resume_of_no_read {s : State} (h : ∀ l ∈ s.seq.todo, l.act ≠ .readText) :
    resume s = { resume { s with host := [] } with host := s.host } ∧ (resume s).text = s.text := by
  have hrun : resume s = { resume { s with host := [] } with text := s.text, host := s.host } := by
    rw [resume, resume, ← concludeRun_withText]
    exact congrArg concludeRun (runLines_withText s.seq.todo h s.text s.host { s with host := [] })
  have htext : (resume { s with host := [] }).text = s.text := by
    obtain ⟨r, hr⟩ := concludeRun_eq (runLines s.seq.todo { s with host := [] })
    exact (congrArg State.text hr).trans ((runLines_frame _ _).still (.inr rfl)).2
  refine ⟨hrun.trans ?_, by rw [hrun]⟩
  exact congrArg (fun m => { resume { s with host := [] } with text := m, host := s.host }) htext.symm

/-- Settles O50: the host's change waits for an operation that reads no text, and lands in the idle step after it. -/
theorem textChangeIsHarmlessToOtherOperations : Obligations.TextChangeIsHarmlessToOtherOperations := by
  intro s n a b rest hbusy hhost hread
  obtain ⟨hres, htext⟩ := resume_of_no_read hread
  have hhost' : (resume s).host = .setText n a b :: rest := by rw [hres]; exact hhost
  have hidle : (resume s).busy = false := (concludeRun_idle _).1
  refine ⟨(step_busy_setText hbusy hhost).trans (resumeOverChanges_of_no_read hread), hres, ?_⟩
  rw [step_of_idle hidle, idleStep, hhost', ← htext]
  rfl

/-! ### What operations leave unchanged -/

/-- Loading a body touches nothing but the sequencer. -/
theorem load_frame (s : State) (ls : List Line) : Frame false false false false false s (s.load ls) where
  busy := rfl
  result := rfl
  resValid := rfl
  opr := rfl
  opBusCfg := rfl
  host _ := rfl
  text _ := rfl
  landed := ⟨0, rfl⟩
  cfg _ := rfl
  blc _ := rfl
  installed _ := rfl
  mono h := h
  eb _ := rfl
  tp _ := rfl
  ch _ := rfl
  latched := ⟨[], (List.append_nil _).symm⟩

/-- THE FRAME OF AN OPERATION: before its end it has written no more than it may write (10_state R33), and its events are added
to the trace. -/
theorem exec_frame {i : Instr} {s t : State} (h : exec i s = .next t) :
    ∃ u r c b n e x, t = State.ended u r ∧ Frame c b n e x s u ∧ (∃ es, u.trace = s.trace ++ es) ∧
      (isInit i = false → c = false ∧ n = false) ∧ (writesBacklight i = false → b = false) ∧
      (readsTextSpace i = false → x = false) ∧ (∀ on, i = .setbl on → e = false) := by
  rcases exec_next_cases h with ⟨-, -, rfl⟩ | ⟨-, ls, hbody, rfl⟩
  · exact ⟨s, _, false, false, false, false, false, rfl, Frame.refl _ _ _ _ _ s, ⟨[], (List.append_nil _).symm⟩,
      fun _ => ⟨rfl, rfl⟩, fun _ => rfl, fun _ => rfl, fun _ _ => rfl⟩
  · obtain ⟨r, hend, -, -⟩ := operate_ended ls s
    exact ⟨_, r, _, _, _, _, _, hend, (load_frame s ls).trans (runLines_frame ls (s.load ls)), runLines_trace ls (s.load ls),
      bodyOf_writes hbody⟩

/-- Settles O47, from the frame of an operation. -/
theorem operationsLeaveTheRestUnchanged : Obligations.OperationsLeaveTheRestUnchanged := by
  intro i s t h
  obtain ⟨u, r, c, b, n, e, x, rfl, hframe, htrace, hcfg, hblc, htext, heb⟩ := exec_frame h
  refine ⟨fun hi => ⟨hframe.cfg (hcfg hi).1, hframe.installed (hcfg hi).2⟩, fun hi => hframe.blc (hblc hi),
    fun hi => ⟨hframe.tp (htext hi), hframe.ch (htext hi)⟩, fun on hi => hframe.eb (heb on hi), hframe.opr, hframe.opBusCfg,
    fun hi => ?_, hframe.landed, hframe.mono, htrace, hframe.latched⟩
  obtain ⟨hhost, hmem⟩ := hframe.still (hi.imp_left htext)
  exact ⟨hhost, fun a => congrArg (Memory.read · a) hmem⟩

/-! ### Results are not sticky -/

/-- The same end, forgetting all that the end of an operation overwrites: RESULT, RES_VALID, BUSY and SEQ. -/
def ActEnd.forget : ActEnd → ActEnd
  | .ok s => .ok (s.ended resOk)
  | .err r s => .err r (s.ended resOk)

/-- The end of an operation overwrites what was forgotten. -/
theorem concludeRun_forget (e : ActEnd) : concludeRun e.forget = concludeRun e := by
  cases e <;> rfl

theorem busWrite_ended (v : Byte) (s : State) : busWrite v (s.ended resOk) = (busWrite v s).forget := by
  have ha : (s.ended resOk).answerAt 0 = s.answerAt 0 := answerAt_congr rfl rfl 0
  cases h : s.answerAt 0 with
  | ok => rw [busWrite_ok h, busWrite_ok (ha.trans h)]; rfl
  | err c =>
    rw [busWrite_err h, busWrite_err (ha.trans h)]
    show ActEnd.err _ (if Config.failedWriteReached s.draws then _ else _) = ActEnd.err _ (State.ended (ite _ _ _) resOk)
    split <;> rfl

theorem busConfigure_ended (s : State) : busConfigure (s.ended resOk) = (busConfigure s).forget := by
  have ha : (s.ended resOk).answerAt 0 = s.answerAt 0 := answerAt_congr rfl rfl 0
  cases h : s.answerAt 0 with
  | ok => rw [busConfigure_ok h, busConfigure_ok (ha.trans h)]; rfl
  | err c => rw [busConfigure_err h, busConfigure_err (ha.trans h)]; rfl

/-- No action looks at what the end of an operation overwrites. -/
theorem perform_ended (a : Act) (s : State) : (perform a (s.ended resOk)).forget = (perform a s).forget := by
  cases a with
  | configureBus =>
    rw [perform, perform, busConfigure_ended]
    show ActEnd.forget (if s.busInstalled = true then _ else _) = _
    split
    · rfl
    · cases busConfigure s <;> rfl
  | writeBacklight =>
    show (busWrite s.readBlc (s.ended resOk)).forget = (busWrite s.readBlc s).forget
    rw [busWrite_ended]
    cases busWrite s.readBlc s <;> rfl
  | enHigh =>
    show ((busWrite (s.eb ||| params.enBit) (s.ended resOk)).thenDo _).forget = _
    rw [busWrite_ended, perform]
    cases busWrite (s.eb ||| params.enBit) s <;> rfl
  | enLow =>
    show ((busWrite s.eb (s.ended resOk)).thenDo _).forget = _
    rw [busWrite_ended, perform]
    cases busWrite s.eb s <;> rfl
  | testNull p => rw [perform, perform]; split <;> rfl
  | storeConfig _ _ _ _ | seedBacklight _ | delay _ | startPulse _ _ _ | hold | settle | setPointer _ | readText | nextChar => rfl

/-- No run of actions does. -/
theorem runLines_forget (ls : List Line) {s s' : State} (h : s.ended resOk = s'.ended resOk) :
    (runLines ls s).forget = (runLines ls s').forget := by
  induction ls generalizing s s' with
  | nil => exact congrArg ActEnd.ok h
  | cons l ls ih =>
    have hl : (perform l.act (s.atLine l)).forget = (perform l.act (s'.atLine l)).forget := by
      rw [← perform_ended, ← perform_ended l.act (s'.atLine l)]
      exact congrArg (fun u => (perform l.act u).forget) h
    rw [runLines, runLines, performLine_eq, performLine_eq]
    cases hp : perform l.act (s.atLine l) with
    | ok u =>
      cases hp' : perform l.act (s'.atLine l) with
      | ok u' => rw [hp, hp'] at hl; exact ih (ActEnd.ok.inj hl)
      | err r' u' => rw [hp, hp'] at hl; exact nomatch hl
    | err r u =>
      cases hp' : perform l.act (s'.atLine l) with
      | ok u' => rw [hp, hp'] at hl; exact nomatch hl
      | err r' u' => rw [hp, hp'] at hl; exact hl

theorem operate_congr (ls : List Line) {s s' : State} (h : s.ended resOk = s'.ended resOk) : operate ls s = operate ls s' := by
  have hload : (s.load ls).ended resOk = (s'.load ls).ended resOk := h
  rw [operate, operate, ← concludeRun_forget, runLines_forget ls hload, concludeRun_forget]

/-- Every operation but INIT is its body behind the gate. -/
theorem exec_eq_gated {i : Instr} (h : isInit i = false) (s : State) : exec i s = gated (bodyOf i) s := by
  cases i with
  | init _ _ _ _ => cases h
  | wrnib _ _ | wrbyte _ _ | setbl _ | clear | inithw | setcur _ _ | print _ | disptext _ => rfl

/-- Settles O48: the gate, the body and the run of an operation see nothing of what the end of the last one left in RESULT,
RES_VALID, BUSY and SEQ. -/
theorem resultsAreNotSticky : Obligations.ResultsAreNotSticky := by
  intro i s r v b q
  have hrun : ∀ ls, operate ls { s with result := r, resValid := v, busy := b, seq := q } = operate ls s :=
    fun ls => operate_congr ls rfl
  cases hinit : isInit i with
  | true =>
    cases i with
    | init cols rows addr blon => rw [exec_init, exec_init, hrun]
    | wrnib _ _ | wrbyte _ _ | setbl _ | clear | inithw | setcur _ _ | print _ | disptext _ => cases hinit
  | false =>
    have hbody : bodyOf i { s with result := r, resValid := v, busy := b, seq := q } = bodyOf i s := by cases i <;> rfl
    rw [exec_eq_gated hinit, exec_eq_gated hinit, gated, gated, hbody]
    simp only [hrun]
    rfl

/-! ### The backlight on the bus -/

/-- BLC as an operation's body sets it, before its first bus write, if at all (10_state R33). -/
def seededBlc : Instr → State → Byte
  | .setbl on, _ => backlightByte on
  | .init _ _ _ blon, _ => backlightByte blon
  | _, s => s.blc

theorem seededBlc_keep {i : Instr} (h : writesBacklight i = false) (s : State) : seededBlc i s = s.blc := by
  cases i with
  | setbl _ | init _ _ _ _ => cases h
  | wrnib _ _ | wrbyte _ _ | clear | inithw | setcur _ _ | print _ | disptext _ => rfl

/-- What stands between the pulses of a body once CFG and BLC are written. -/
def Act.betweenPulses : Act → Bool
  | .configureBus | .writeBacklight | .delay _ | .testNull _ | .setPointer _ | .readText | .nextChar => true
  | .storeConfig _ _ _ _ | .seedBacklight _ | .startPulse _ _ _ | .enHigh | .hold | .enLow | .settle => false

/-- Whole pulses, with other actions between them only. -/
inductive WholePulses : List Act → Prop
  | nil : WholePulses []
  | pulse (n : Byte) (rs nsel : Bool) {as : List Act} : WholePulses as → WholePulses (pulseActs n rs nsel ++ as)
  | act {a : Act} {as : List Act} : a.betweenPulses = true → WholePulses as → WholePulses (a :: as)

theorem WholePulses.append {as bs : List Act} (ha : WholePulses as) (hb : WholePulses bs) : WholePulses (as ++ bs) := by
  induction ha with
  | nil => exact hb
  | pulse n rs nsel _ ih => exact .pulse n rs nsel ih
  | act ha _ ih => exact .act ha ih

theorem WholePulses.callAt (n : Nat) {ls : List Line} (h : WholePulses (actsOf ls)) :
    WholePulses (actsOf (Machine.callAt n ls)) := by
  rwa [actsOf_callAt]

theorem wholePulses_wrnib (val : Byte) (rs nsel : Bool) : WholePulses (actsOf (wrnibBody val rs nsel)) :=
  .pulse val rs nsel .nil

theorem wholePulses_wrbyte (val : Byte) (rs : Bool) : WholePulses (actsOf (wrbyteBody val rs)) :=
  .pulse _ rs false (.pulse _ rs true .nil)

theorem wholePulses_cmd (v : Byte) : WholePulses (actsOf (cmdBody v)) := wholePulses_wrbyte v false

theorem wholePulses_clear : WholePulses (actsOf clearBody) :=
  (wholePulses_cmd _).append (.act rfl .nil)

theorem wholePulses_inithw : WholePulses (actsOf inithwBody) := by
  have nib (val : Byte) (us : Nat) {as : List Act} (h : WholePulses as) :
      WholePulses (actsOf (wrnibBody val false false) ++ .delay us :: as) :=
    (wholePulses_wrnib val false false).append (.act rfl h)
  have cmd (v : Byte) {as : List Act} (h : WholePulses as) : WholePulses (actsOf (cmdBody v) ++ as) :=
    (wholePulses_cmd v).append h
  have commands := cmd params.lcdFuncSet (cmd params.lcdDispOff (wholePulses_clear.append
    (cmd params.lcdEntry (cmd params.lcdDispOn .nil))))
  exact .act rfl (nib _ _ (nib _ _ (nib _ _ (nib _ _ commands))))

theorem wholePulses_printLoop (cs : List Byte) : WholePulses (actsOf (printLoop cs)) := by
  induction cs with
  | nil => exact .act rfl .nil
  | cons c cs ih =>
    exact .act rfl ((wholePulses_wrbyte c true).append (.act rfl ih))

theorem wholePulses_printBody {m : Memory} {acts : List HostAct} {p : TextAddr} {ls : List Line}
    (h : printBody m acts p = .ok ls) : WholePulses (actsOf ls) := by
  rw [printBody] at h
  split at h
  · cases h; exact .act rfl .nil
  · cases hs : stringAt m acts p with
    | none => rw [hs] at h; cases h
    | some cs => rw [hs] at h; cases h; exact .act rfl (.act rfl (wholePulses_printLoop cs))

/-- EVERY BODY writes CFG and BLC first, if at all, and goes on with whole pulses. -/
theorem bodyOf_seeded {i : Instr} {s : State} {ls : List Line} (h : bodyOf i s = .ok ls) :
    ∃ rest u, runLines ls (s.load ls) = runLines rest u ∧ WholePulses (actsOf rest) ∧
      pulsesComposed false (actsOf rest) = true ∧ u.trace = s.trace ∧ u.blc = seededBlc i s := by
  cases hw : writesBacklight i with
  | false =>
    refine ⟨ls, s.load ls, rfl, ?_, pulsesComposed_bodyOf i s ls h hw, rfl, (seededBlc_keep hw s).symm⟩
    cases i with
    | setbl _ | init _ _ _ _ => cases hw
    | wrnib val rs => cases h; exact wholePulses_wrnib val rs false
    | wrbyte val rs => cases h; exact wholePulses_wrbyte val rs
    | clear => cases h; exact wholePulses_clear
    | inithw => cases h; exact wholePulses_inithw
    | setcur col row => obtain ⟨v, rfl⟩ := setcurBody_ok h; exact wholePulses_cmd v
    | print p => exact wholePulses_printBody h
    | disptext p =>
      obtain ⟨home, pr, hhome, hpr, rfl⟩ := disptextBody_ok h
      obtain ⟨v, rfl⟩ := setcurBody_ok hhome
      rw [actsOf, List.map_append, List.map_append]
      exact (wholePulses_clear.append (wholePulses_cmd v)).append ((wholePulses_printBody hpr).callAt 3)
  | true =>
    cases i with
    | setbl on => cases h; exact ⟨[line 2 .writeBacklight], _, runLines_cons_ok rfl, .act rfl .nil, rfl, rfl, rfl⟩
    | init cols rows addr blon =>
      cases h
      rw [initBody, List.cons_append, List.cons_append, runLines_cons_ok rfl, runLines_cons_ok rfl]
      exact ⟨_, _, rfl, .act rfl (.act rfl wholePulses_inithw), rfl, rfl, rfl⟩
    | wrnib _ _ | wrbyte _ _ | clear | inithw | setcur _ _ | print _ | disptext _ => cases hw

/-- Settles O42: after the writes of CFG and BLC a run's bus writes go out as the state has them. -/
theorem everyWriteCarriesTheBacklight : Obligations.EveryWriteCarriesTheBacklight := by
  intro i s t h
  rcases exec_next_cases h with ⟨hinit, hinst, rfl⟩ | ⟨-, ls, hbody, rfl⟩
  · refine ⟨[], (List.append_nil _).symm, fun _ _ _ hmem => absurd hmem List.not_mem_nil, fun _ => rfl, ?_, ?_⟩
    · intro on _ hinst'
      exact nomatch hinst.symm.trans hinst'
    · rintro cols rows addr blon rfl
      cases hinit
  · obtain ⟨rest, u, hrun, -, hcomposed, htrace, hseed⟩ := bodyOf_seeded hbody
    obtain ⟨es, hes, hwrites, hcfg, hblc⟩ := runLines_writes rest u false hcomposed nofun
    obtain ⟨r, hend, -, -⟩ := operate_ended ls s
    rw [hend, hrun]
    refine ⟨es, hes.trans (by rw [htrace]), fun a v ans hmem => ?_, fun hw => ?_, ?_, ?_⟩
    · obtain ⟨haddr, hbl, hrw⟩ := hwrites a v ans hmem
      refine ⟨haddr.trans (congrArg DisplayConfig.addr hcfg.symm), hbl.trans ?_, hrw⟩
      exact congrArg (· &&& 0x08) hblc.symm
    · exact (hblc.trans hseed).trans (seededBlc_keep hw s)
    · rintro on rfl -
      exact (hblc.trans hseed).trans (backlightByte_eq on)
    · rintro cols rows addr blon rfl
      exact (hblc.trans hseed).trans (backlightByte_eq blon)

/-! ### The backlight on the pins -/

/-- The pins carry the cached backlight bit, with EN low (10_state R38). -/
def State.pinsAgree (s : State) : Prop := s.xp &&& 0x08 = s.blc &&& 0x08 ∧ s.xp &&& 0x04 = 0x00

/-- From `s` to `s'`: BLC is kept, and the pins agree with it or are as they were, no bus write having been issued. -/
structure PinsFollow (s s' : State) : Prop where
  blc : s'.blc = s.blc
  pins : ∃ es, s'.trace = s.trace ++ es ∧ (s'.pinsAgree ∨ s'.xp = s.xp ∧ ∀ e ∈ es, e.isWrite = false)

theorem PinsFollow.trans {s s' s'' : State} (h : PinsFollow s s') (h' : PinsFollow s' s'') : PinsFollow s s'' := by
  obtain ⟨es, htrace, hpins⟩ := h.pins
  obtain ⟨es', htrace', hpins'⟩ := h'.pins
  refine ⟨h'.blc.trans h.blc, es ++ es', by rw [htrace', htrace, List.append_assoc], ?_⟩
  rcases hpins' with hagree | ⟨hxp', hes'⟩
  · exact .inl hagree
  · rcases hpins with hagree | ⟨hxp, hes⟩
    · left
      rw [State.pinsAgree, hxp', h'.blc]
      exact hagree
    · exact .inr ⟨hxp'.trans hxp, fun e he => (List.mem_append.1 he).elim (hes e) (hes' e)⟩

/-- Nothing happens, or an event that is no bus write. -/
theorem PinsFollow.of_no_write {s s' : State} (es : List Event) (htrace : s'.trace = s.trace ++ es)
    (hes : ∀ e ∈ es, e.isWrite = false) (hblc : s'.blc = s.blc) (hxp : s'.xp = s.xp) : PinsFollow s s' :=
  ⟨hblc, es, htrace, .inr ⟨hxp, hes⟩⟩

/-- How the pins follow to an end that is no bus error. -/
def PinsAfter (s : State) : ActEnd → Prop
  | .ok s' => PinsFollow s s'
  | .err r s' => r.kind = .busError ∨ PinsFollow s s'

theorem pinsAfter_append {xs ys : List Line} {s : State} (hx : PinsAfter s (runLines xs s))
    (hy : ∀ s', PinsAfter s' (runLines ys s')) : PinsAfter s (runLines (xs ++ ys) s) := by
  rw [runLines_append]
  cases h : runLines xs s with
  | err r s' => rw [h] at hx; exact hx
  | ok s' =>
    rw [h] at hx
    have hy' := hy s'
    simp only
    cases h' : runLines ys s' with
    | ok s'' => rw [h'] at hy'; exact PinsFollow.trans hx hy'
    | err r s'' => rw [h'] at hy'; exact hy'.imp_right (PinsFollow.trans hx)

/-- One action before the rest of a run. -/
theorem pinsAfter_cons {l : Line} {ls : List Line} {s : State} (hl : ∀ s', PinsAfter s' (perform l.act s'))
    (hls : ∀ s', PinsAfter s' (runLines ls s')) : PinsAfter s (runLines (l :: ls) s) := by
  refine pinsAfter_append (xs := [l]) ?_ hls
  have h : PinsAfter s (perform l.act (s.atLine l)) := by
    have h := hl (s.atLine l)
    cases hp : perform l.act (s.atLine l) <;> rw [hp] at h
    · exact ⟨h.blc, h.pins⟩
    · exact h.imp_right fun h => ⟨h.blc, h.pins⟩
  cases hp : perform l.act (s.atLine l) with
  | ok s' => rw [runLines_cons_ok hp]; rwa [hp] at h
  | err r s' => rw [runLines_cons_err hp]; rwa [hp] at h

theorem and_enBit_of_enPin {v : Byte} (h : enPin v = false) : v &&& 0x04 = 0x00 := by
  simpa [enPin, params] using h

/-- A pulse of which a write fails ends in a bus error. -/
theorem runLines_pulse_err {n : Byte} {rs nsel : Bool} {ls : List Line} (hl : actsOf ls = pulseActs n rs nsel) {s : State}
    (h : ¬ s.answersOk 2) : ∃ c s', runLines ls s = .err (resBusError c) s' := by
  obtain ⟨l1, _, rfl, h1, hl⟩ := List.map_eq_cons_iff.1 hl
  obtain ⟨l2, _, rfl, h2, hl⟩ := List.map_eq_cons_iff.1 hl
  obtain ⟨l3, _, rfl, h3, hl⟩ := List.map_eq_cons_iff.1 hl
  obtain ⟨l4, ls, rfl, h4, hl⟩ := List.map_eq_cons_iff.1 hl
  rw [runLines_cons_ok (by rw [h1]; rfl)]
  cases ha : s.answerAt 0 with
  | err c =>
    exact ⟨c, _, runLines_cons_err (by rw [h2, perform, busWrite_err (by simpa using ha)]; rfl)⟩
  | ok =>
    rw [runLines_cons_ok (by rw [h2, perform, busWrite_ok (by simpa using ha)]; rfl), runLines_cons_ok (by rw [h3]; rfl)]
    cases hb : s.answerAt 1 with
    | err c =>
      exact ⟨c, _, runLines_cons_err (by rw [h4, perform, busWrite_err (by simpa using hb)]; rfl)⟩
    | ok =>
      refine absurd (fun k hk => ?_) h
      obtain rfl | rfl : k = 0 ∨ k = 1 := by omega
      · exact ha
      · exact hb

/-- A pulse leaves EN low and the backlight bit of BLC on the pins, or ends in a bus error. -/
theorem pinsAfter_pulse {n : Byte} {rs nsel : Bool} {ls : List Line} (hl : actsOf ls = pulseActs n rs nsel) (s : State) :
    PinsAfter s (runLines ls s) := by
  by_cases hok : s.answersOk 2
  · obtain ⟨q, hq⟩ := sends_pulse s.cfg.addr (s.blc &&& 0x08) n rs nsel (backlight_idem _) ls s hl rfl rfl hok
    obtain ⟨hen, -, -, -, hbl⟩ := compose_bits s.blc n rs
    rw [hq]
    exact ⟨rfl, _, rfl, .inl ⟨hbl, and_enBit_of_enPin hen⟩⟩
  · obtain ⟨c, s', h⟩ := runLines_pulse_err hl hok
    rw [h]
    exact .inl rfl

/-- Between pulses only the backlight byte goes out, and it has EN low. -/
theorem pinsAfter_betweenPulses {a : Act} (h : a.betweenPulses = true) (s : State) : PinsAfter s (perform a s) := by
  have quiet : PinsFollow s s := .of_no_write [] (List.append_nil _).symm nofun rfl rfl
  cases a with
  | storeConfig _ _ _ _ | seedBacklight _ | startPulse _ _ _ | enHigh | hold | enLow | settle => cases h
  | writeBacklight =>
    have hbits : ∀ b : Byte, (b &&& params.blBit) &&& 0x08 = b &&& 0x08 ∧ (b &&& params.blBit) &&& 0x04 = 0x00 := by decide
    rw [perform]
    cases ha : s.answerAt 0 with
    | ok => rw [busWrite_ok ha]; exact ⟨rfl, [_], rfl, .inl (hbits s.blc)⟩
    | err c => rw [busWrite_err ha]; exact .inl rfl
  | configureBus =>
    rw [perform]
    split
    · exact quiet
    · cases ha : s.answerAt 0 with
      | ok => rw [busConfigure_ok ha]; exact .of_no_write [.cfg s.cfg.bus .ok] rfl (by simp [Event.isWrite]) rfl rfl
      | err c => rw [busConfigure_err ha]; exact .inl rfl
  | testNull p =>
    rw [perform]
    split
    · exact .inr quiet
    · exact quiet
  | delay us => exact .of_no_write [.d us] rfl (by simp [Event.isWrite]) rfl rfl
  | readText => exact .of_no_write [.t s.tp _] rfl (by simp [Event.isWrite]) rfl rfl
  | setPointer _ | nextChar => exact .of_no_write [] (List.append_nil _).symm nofun rfl rfl

/-- Whole pulses, and what stands between them, leave the pins agreeing with the cache wherever they write the bus and meet no
error. -/
theorem WholePulses.pinsAfter {as : List Act} (h : WholePulses as) :
    ∀ (ls : List Line) (s : State), actsOf ls = as → PinsAfter s (runLines ls s) := by
  induction h with
  | nil =>
    intro ls s hl
    obtain rfl := List.map_eq_nil_iff.1 hl
    exact .of_no_write [] (List.append_nil _).symm nofun rfl rfl
  | pulse n rs nsel _ ih =>
    intro ls s hl
    obtain ⟨pulse, rest, rfl, hpulse, hrest⟩ := List.map_eq_append_iff.1 hl
    exact pinsAfter_append (pinsAfter_pulse hpulse s) (ih rest · hrest)
  | act ha _ ih =>
    intro ls s hl
    obtain ⟨l, rest, rfl, rfl, hrest⟩ := List.map_eq_cons_iff.1 hl
    exact pinsAfter_cons (pinsAfter_betweenPulses ha) (ih rest · hrest)

/-- Where a run that met no bus error issued a write, its end has the pins agree with the cache. -/
theorem PinsAfter.agree_of_write {s : State} {e : ActEnd} (h : PinsAfter s e) (hres : (concludeRun e).result.kind ≠ .busError) :
    ∃ es, (concludeRun e).trace = s.trace ++ es ∧ ((∃ v ∈ es, v.isWrite = true) → (concludeRun e).pinsAgree) := by
  have hfollow : PinsFollow s e.state := by
    cases e with
    | ok s' => exact h
    | err r s' => exact h.resolve_left hres
  obtain ⟨es, htrace, hpins⟩ := hfollow.pins
  obtain ⟨r, hr⟩ := concludeRun_eq e
  rw [hr]
  refine ⟨es, htrace, fun ⟨v, hv, hwrite⟩ => hpins.resolve_right fun ⟨_, hno⟩ => ?_⟩
  exact nomatch (hno v hv).symm.trans hwrite

/-- Settles O43: a body's bus writes come in whole pulses and backlight writes, and each of these leaves EN low and the
backlight bit as cached. -/
theorem pinsAgreeWithTheCache : Obligations.PinsAgreeWithTheCache := by
  intro i s t h hres
  rcases exec_next_cases h with ⟨-, -, rfl⟩ | ⟨-, ls, hbody, rfl⟩
  · exact absurd rfl hres
  · obtain ⟨rest, u, hrun, hwhole, -, htrace, -⟩ := bodyOf_seeded hbody
    rw [operate, hrun] at hres ⊢
    rw [← htrace]
    exact (hwhole.pinsAfter rest u rfl).agree_of_write hres

end Sys2Proof.Machine

/-! The text space and the bus (20_memory): the host's write (R64), a text with no terminator (R66), a text that changes under a
running PRINT (R74), and no bus write before a configuration (R56). -/

namespace Sys2Proof.Machine

/-! ### The host's write -/

/-- Settles O16: the host's write lands at once in an idle engine, by the rules of one write to the text space. -/
theorem hostWritesItsTextSpace : Obligations.HostWritesItsTextSpace := by
  intro s n a b rest hbusy hhost hwf
  refine ⟨Memory.write s.text a.toNat b, ?_, wf_write hwf (textAddr_lt a), read_write_same hwf, fun x hx => read_write_other hx⟩
  rw [step_of_idle hbusy, idleStep, hhost]
  rfl

/-! ### A text with no terminator -/

/-- The not-ready gate, open, before a body that the spec gives no value. -/
theorem gated_refused {body : State → Except Refusal (List Line)} {s : State} {r : Refusal} (h : s.busInstalled = true)
    (hb : body s = .error r) : gated body s = .refused r := by
  simp [gated, h, hb]

/-- Where there is a row to home to, DISPTEXT is refused as its PRINT is (43_text_api R170 (c)). -/
theorem disptextBody_unterminated {cfg : DisplayConfig} {m : Memory} {acts : List HostAct} {p : TextAddr}
    (hrows : cfg.rows ≠ 0) (hp : p ≠ 0) (h : ∀ k, p.toNat + k < 65536 → byteRead m acts p k ≠ 0x00) :
    disptextBody cfg m acts p = .error .textUnterminated := by
  rw [disptextBody, setcurBody_home hrows, printBody_unterminated hp h]

/-- Settles O34: neither operation has a body over such a text. -/
theorem unterminatedTextIsRefused : Obligations.UnterminatedTextIsRefused := by
  intro p s hinst hp htext
  refine ⟨?_, fun hrows => ?_⟩
  · rw [exec_print]
    exact gated_refused hinst (printBody_unterminated hp htext)
  · rw [exec_disptext]
    exact gated_refused hinst (disptextBody_unterminated hrows hp htext)

/-! ### No bus write before a configuration -/

/-- A run that begins with the configuration of a bus not yet configured: the configuration is its first event, and its only one
where it fails (20_memory R58, 60_exceptions R196). -/
theorem runLines_configureBus_trace {n : Nat} {ls : List Line} {s : State} (h : s.busInstalled = false) :
    ∃ ans es, (runLines (line n .configureBus :: ls) s).state.trace = s.trace ++ .cfg s.cfg.bus ans :: es ∧
      (ans ≠ .ok → es = []) := by
  have hact : perform .configureBus (s.atLine (line n .configureBus)) = busConfigure (s.atLine (line n .configureBus)) := by
    simp [perform, h]
  cases ha : s.answerAt 0 with
  | err c =>
    rw [runLines_cons_err (hact.trans (busConfigure_err (by simpa using ha)))]
    exact ⟨.err c, [], rfl, fun _ => rfl⟩
  | ok =>
    rw [runLines_cons_ok (hact.trans (busConfigure_ok (by simpa using ha)))]
    obtain ⟨es, hes⟩ := runLines_trace ls _
    exact ⟨.ok, es, hes.trans (by simp), fun hne => absurd rfl hne⟩

/-- The first event of an INIT on a bus not yet configured is the configuration; where that fails there is no other (43_text_api
R160, R161 (b)). -/
theorem operate_init_trace (cols rows : Byte) (addr : DevAddr) (blon : Bool) {s : State} (h : s.busInstalled = false) :
    ∃ ans es, (operate (initBody cols rows addr blon) s).trace = s.trace ++ .cfg s.opBusCfg ans :: es ∧
      (ans ≠ .ok → es = []) := by
  obtain ⟨r, hend, -, -⟩ := operate_ended (initBody cols rows addr blon) s
  rw [hend, initBody, List.cons_append, List.cons_append, List.cons_append, runLines_cons_ok rfl, runLines_cons_ok rfl]
  exact runLines_configureBus_trace h

/-- A write among events that begin with a configuration comes after it. -/
theorem cfg_mem_before_write {b : BusBundle} {ans ans' : BusAnswer} {es pre post : List Event} {a : DevAddr} {v : Byte}
    (h : .cfg b ans :: es = pre ++ .w a v ans' :: post) : .cfg b ans ∈ pre ∧ es ≠ [] := by
  cases pre with
  | nil => cases h
  | cons e pre =>
    obtain ⟨rfl, rfl⟩ := List.cons.inj h
    exact ⟨List.mem_cons_self, by simp⟩

/-- Settles O44: the gate lets INIT alone through, and INIT's first event is the configuration. -/
theorem noWriteBeforeConfiguration : Obligations.NoWriteBeforeConfiguration := by
  intro i s t h hinst
  rcases exec_next_cases h with ⟨-, -, rfl⟩ | ⟨hgate, ls, hbody, rfl⟩
  · exact ⟨[], (List.append_nil _).symm, fun _ => rfl, fun pre a v ans post hes => by simp at hes⟩
  · have hinit : isInit i = true := hgate.resolve_right (by simp [hinst])
    cases i with
    | init cols rows addr blon =>
      cases hbody
      obtain ⟨first, es, htrace, hfail⟩ := operate_init_trace cols rows addr blon hinst
      refine ⟨_, htrace, nofun, fun pre a v ans post hes => ?_⟩
      obtain ⟨hmem, hmore⟩ := cfg_mem_before_write hes
      obtain rfl : first = .ok := by_contra fun hne => hmore (hfail hne)
      exact ⟨_, hmem⟩
    | wrnib _ _ | wrbyte _ _ | setbl _ | clear | inithw | setcur _ _ | print _ | disptext _ => cases hinit

/-! ### A text that changes under a running PRINT -/

/-- A change that is due at once has landed for every read. -/
theorem readsString_due {m : Memory} {a : TextAddr} {b : Byte} {h : List HostAct} {p : TextAddr} {cs : List Byte} :
    readsString m (.setText 0 a b :: h) p cs ↔ readsString (Memory.write m a.toNat b) h p cs := Iff.rfl

/-- A change that is due after more than `k` reads is not seen by read number `k`. -/
theorem byteRead_waiting {m : Memory} {n k : Nat} (hk : k < n) (a : TextAddr) (b : Byte) (h : List HostAct) (p : TextAddr) :
    byteRead m (.setText n a b :: h) p k = Memory.read m (p.toNat + k) := by
  obtain ⟨d, rfl⟩ : ∃ d, n = d + (k + 1) := ⟨n - (k + 1), by omega⟩
  rw [byteRead, landed_waiting]

/-- A change that is due only after the last read is not seen. -/
theorem readsString_waiting {m : Memory} {n : Nat} {a : TextAddr} {b : Byte} {h : List HostAct} {p : TextAddr}
    {cs : List Byte} (hn : cs.length < n) : readsString m (.setText n a b :: h) p cs ↔ isString m p cs := by
  have hread {k : Nat} (hk : k ≤ cs.length) :
      byteRead m (.setText n a b :: h) p k = Memory.read m (p.toNat + k) := byteRead_waiting (by omega) a b h p
  rw [readsString, isString, hread le_rfl]
  refine and_congr_right' (and_congr_left' (forall₃_congr fun k c hc => ?_))
  rw [hread (List.getElem?_eq_some_iff.1 hc).1.le]

/-- The rest of a PRINT under changes of the text sends the string its reads return (20_memory R74). -/
theorem resumeOverChanges_printLoop {s : State} {cs ds : List Byte} (htodo : s.seq.todo = printLoop cs)
    (hds : readsString s.text s.host s.tp ds) (hok : s.answersOk (4 * ds.length)) :
    resumeOverChanges s = .next ((s.printed s.tp ds).ended resOk) := by
  obtain ⟨q, hq⟩ := run_printLoop ds (printLoop ds) (s.load (printLoop ds)) s.tp rfl rfl hds hok
  rw [resumeOverChanges, htodo, replan_printLoop, stringAt_eq_some.2 hds]
  exact congrArg (fun e => Host.Outcome.next (concludeRun e)) hq

/-- The rest of a PRINT under changes of the text is refused where its reads find no terminator (20_memory R66). -/
theorem resumeOverChanges_unterminated {s : State} {cs : List Byte} (htodo : s.seq.todo = printLoop cs)
    (h : ∀ k, s.tp.toNat + k < 65536 → byteRead s.text s.host s.tp k ≠ 0x00) :
    resumeOverChanges s = .refused .textUnterminated := by
  rw [resumeOverChanges, htodo, replan_printLoop, stringAt_eq_none.2 h]

/-- Settles O51: each read returns the byte that the changes landed by then leave, and a PRINT in progress is laid out anew over
the string that is read. -/
theorem printSendsOldOrNewBytes : Obligations.PrintSendsOldOrNewBytes := by
  refine ⟨fun m h p cs hwf hcs k c hc => ?_, fun m h p cs hstill => readsString_still hstill,
    fun m a b h p cs hstill => readsString_due.trans (readsString_still hstill),
    fun m n a b h p cs hn => readsString_waiting hn, fun s n a b rest cs hbusy hhost htodo => ?_⟩
  · obtain ⟨-, hread, -⟩ := hcs
    rw [← (hread k c hc).1]
    exact read_landed (k + 1) h hwf (p.toNat + k)
  · rw [step_busy_setText hbusy hhost]
    exact ⟨fun ds hds hok => ⟨_, resumeOverChanges_printLoop htodo hds hok, rfl, rfl, rfl⟩,
      resumeOverChanges_unterminated htodo⟩

end Sys2Proof.Machine

/-! The encoding (30_encoding): words and operations are inverse to each other (R84 to R91), the reserved words (R92), the bytes
an operation is made of (R82, R83), and the step that accepts a word (R94, R95). -/

namespace Sys2Proof

/-! ### The fields of a word -/

/-- A value at the bits of a word from bit `lo` up, every other bit 0 (30_encoding R84). -/
def wordField {n : Nat} (lo : Nat) (v : BitVec n) : BitVec 32 := v.setWidth 32 <<< lo

theorem getLsbD_wordField {n i : Nat} (lo : Nat) (v : BitVec n) (hi : i < 32) :
    (wordField lo v).getLsbD i = (decide (lo ≤ i) && v.getLsbD (i - lo)) := by
  by_cases h : lo ≤ i
  · simp [wordField, hi, h, show ¬ i < lo by omega]
  · simp [wordField, h, show i < lo by omega]

theorem getLsbD_wordField_other {n lo k : Nat} (v : BitVec n) (h : k < lo ∨ lo + n ≤ k) :
    (wordField lo v).getLsbD k = false := by
  rcases h with hlow | hhigh
  · simp [wordField, hlow]
  · simp [wordField, show n ≤ k - lo by omega]

theorem getLsbD_wordField_same {k : Nat} (b : Bool) (h : k < 32) : (wordField k (BitVec.ofBool b)).getLsbD k = b := by
  simp [getLsbD_wordField k _ h]

theorem extractLsb'_wordField_same {n lo : Nat} (v : BitVec n) (h : lo + n ≤ 32) : (wordField lo v).extractLsb' lo n = v := by
  refine BitVec.eq_of_getLsbD_eq fun i hi => ?_
  rw [BitVec.getLsbD_extractLsb', getLsbD_wordField lo v (by omega)]
  simp [hi]

theorem extractLsb'_wordField_other {n lo m k : Nat} (v : BitVec n) (h : lo + n ≤ k ∨ k + m ≤ lo) :
    (wordField lo v).extractLsb' k m = 0#m := by
  refine BitVec.eq_of_getLsbD_eq fun i hi => ?_
  rw [BitVec.getLsbD_extractLsb', getLsbD_wordField_other v (by omega), Bool.and_false, BitVec.getLsbD_zero]

/-- Putting back the field read from a word masks the word. -/
theorem wordField_extractLsb' (w : BitVec 32) (lo n : Nat) :
    wordField lo (w.extractLsb' lo n) = w &&& wordField lo (BitVec.allOnes n) := by
  refine BitVec.eq_of_getLsbD_eq fun i hi => ?_
  rw [BitVec.getLsbD_and, getLsbD_wordField lo _ hi, getLsbD_wordField lo _ hi]
  by_cases h : lo ≤ i
  · simp [h, Bool.and_comm]
  · simp [h]

theorem ofBool_getLsbD (w : BitVec 32) (k : Nat) : BitVec.ofBool (w.getLsbD k) = w.extractLsb' k 1 := by
  ext i hi
  obtain rfl : i = 0 := by omega
  simp

theorem bitWord_shiftLeft (b : Bool) (k : Nat) : bitWord b <<< k = wordField k (BitVec.ofBool b) := by
  cases b <;> rfl

theorem setWidth_eq_wordField {n : Nat} (v : BitVec n) : v.setWidth 32 = wordField 0 v := by
  simp [wordField]

/-- Masked from bit `lo` up, a word is an opcode alone exactly when the bits between are 0 (30_encoding R84, R92). -/
theorem and_highBits_eq_iff (w : BitVec 32) (opc : Nibble) {lo : Nat} (hlo : lo ≤ 28) :
    w &&& wordField lo (BitVec.allOnes (32 - lo)) = wordField 28 opc ↔
      w.extractLsb' 28 4 = opc ∧ w.extractLsb' lo (28 - lo) = 0 := by
  have hmasked {i : Nat} (hi : i < 32) :
      (w &&& wordField lo (BitVec.allOnes (32 - lo))).getLsbD i = (decide (lo ≤ i) && w.getLsbD i) := by
    rw [BitVec.getLsbD_and, getLsbD_wordField lo _ hi, BitVec.getLsbD_allOnes, Bool.and_comm]
    simp [show i - lo < 32 - lo by omega]
  constructor
  · intro h
    have hbit {i : Nat} (hi : i < 32) : (decide (lo ≤ i) && w.getLsbD i) = (decide (28 ≤ i) && opc.getLsbD (i - 28)) := by
      rw [← hmasked hi, h, getLsbD_wordField 28 _ hi]
    refine ⟨BitVec.eq_of_getLsbD_eq fun i hi => ?_, BitVec.eq_of_getLsbD_eq fun i hi => ?_⟩
    · simpa [hi, show lo ≤ 28 + i by omega] using hbit (i := 28 + i) (by omega)
    · simpa [hi, show ¬ 28 ≤ lo + i by omega] using hbit (i := lo + i) (by omega)
  · rintro ⟨rfl, hzero⟩
    refine BitVec.eq_of_getLsbD_eq fun i hi => ?_
    rw [hmasked hi, getLsbD_wordField 28 _ hi]
    by_cases hopc : 28 ≤ i
    · simp [hopc, hlo.trans hopc, show i - 28 < 4 by omega]
    · by_cases hres : lo ≤ i
      · have hbit := congrArg (·.getLsbD (i - lo)) hzero
        simpa [hopc, hres, show i - lo < 28 - lo by omega] using hbit
      · simp [hopc, hres]

/-! ### The encoder -/

theorem encode_wrnib (val : Byte) (rs : Bool) :
    encode (.wrnib val rs) = wordField 28 1#4 ||| wordField 8 (BitVec.ofBool rs) ||| wordField 0 val := by
  rw [encode, bitWord_shiftLeft, setWidth_eq_wordField]; rfl

theorem encode_wrbyte (val : Byte) (rs : Bool) :
    encode (.wrbyte val rs) = wordField 28 2#4 ||| wordField 8 (BitVec.ofBool rs) ||| wordField 0 val := by
  rw [encode, bitWord_shiftLeft, setWidth_eq_wordField]; rfl

theorem encode_setbl (on : Bool) : encode (.setbl on) = wordField 28 3#4 ||| wordField 0 (BitVec.ofBool on) := by
  cases on <;> rfl

theorem encode_init (cols : ColCount) (rows : RowCount) (addr : DevAddr) (blon : Bool) :
    encode (.init cols rows addr blon) = wordField 28 6#4 ||| wordField 23 (BitVec.ofBool blon) ||| wordField 16 addr |||
      wordField 8 rows ||| wordField 0 cols := by
  rw [encode, bitWord_shiftLeft, setWidth_eq_wordField cols]; rfl

theorem encode_setcur (col : ColCount) (row : RowCount) :
    encode (.setcur col row) = wordField 28 7#4 ||| wordField 8 row ||| wordField 0 col := by
  rw [encode, setWidth_eq_wordField col]; rfl

theorem encode_print (p : TextAddr) : encode (.print p) = wordField 28 8#4 ||| wordField 0 p := by
  rw [encode, setWidth_eq_wordField]; rfl

theorem encode_disptext (p : TextAddr) : encode (.disptext p) = wordField 28 9#4 ||| wordField 0 p := by
  rw [encode, setWidth_eq_wordField]; rfl

/-- Every field of an operation's word reads back as the operand it was written from. -/
theorem fieldsOf_encode (i : Instr) : fieldsOf (encode i) (rowOf i) = i := by
  cases i with
  | clear | inithw => rfl
  | wrnib _ _ | wrbyte _ _ | setbl _ | init _ _ _ _ | setcur _ _ | print _ | disptext _ =>
    simp (disch := decide) only [fieldsOf, rowOf, encode_wrnib, encode_wrbyte, encode_setbl, encode_init, encode_setcur,
      encode_print, encode_disptext, BitVec.extractLsb'_or, extractLsb'_wordField_same, extractLsb'_wordField_other,
      BitVec.getLsbD_or, getLsbD_wordField_same, getLsbD_wordField_other, BitVec.zero_or, BitVec.or_zero, Bool.false_or,
      Bool.or_false]

/-- The word of the fields a row reads from any word: the row's pattern, and of the word what the row's mask leaves out. -/
theorem encode_fieldsOf {r : Row} (hr : r ∈ opcodeTable) (w : OpWord) :
    encode (fieldsOf w r.op) = r.pattern ||| (w &&& ~~~ r.mask) := by
  obtain ⟨op, mnemonic, pattern, mask⟩ := r
  cases op <;> simp only [opcodeTable, List.mem_cons, Row.mk.injEq, reduceCtorEq, true_and, false_and, false_or, or_false,
    List.not_mem_nil] at hr <;> obtain ⟨-, rfl, rfl⟩ := hr
  -- CLEAR and INITHW have no fields: their masks leave nothing out.
  case clear | inithw => simp [fieldsOf, encode, opwW]
  all_goals
    simp only [fieldsOf, encode_wrnib, encode_wrbyte, encode_setbl, encode_init, encode_setcur, encode_print, encode_disptext,
      ofBool_getLsbD, wordField_extractLsb', BitVec.or_assoc, ← BitVec.and_or_distrib_left]
    rfl

/-! ### The decoder -/

/-- The decoder reads the fields of the row that a word selects (30_encoding R95). -/
theorem decode_of_selectRow {w : OpWord} {r : Row} (h : selectRow w = some r) : decode w = .instr (fieldsOf w r.op) := by
  rw [decode, h]

/-- A word decodes only by a row of the opcode map that it selects. -/
theorem exists_row_of_decode {w : OpWord} {i : Instr} (h : decode w = .instr i) :
    ∃ r ∈ opcodeTable, w &&& r.mask = r.pattern ∧ i = fieldsOf w r.op := by
  cases hsel : selectRow w with
  | none => rw [decode, hsel] at h; cases h
  | some r =>
    rw [decode_of_selectRow hsel] at h
    cases h
    exact ⟨r, List.mem_of_find?_eq_some hsel, by simpa [Row.selects] using List.find?_some hsel, rfl⟩

theorem decode_reject_iff (w : OpWord) :
    (∃ r, decode w = .reject r) ↔ ∀ r ∈ opcodeTable, w &&& r.mask ≠ r.pattern := by
  have hnone : (∃ r, decode w = .reject r) ↔ selectRow w = none := by
    cases hsel : selectRow w with
    | none => simp [decode, hsel]
    | some r => simp [decode, hsel]
  rw [hnone, selectRow, List.find?_eq_none]
  simp [Row.selects]

/-- The encoder's word selects the operation's own row. -/
theorem encodesInRow (i : Instr) : Laws.EncodesInRow.Statement i := by
  cases i with
  | wrnib val rs => exact Laws.EncodesInRow.wrnib val rs
  | wrbyte val rs => exact Laws.EncodesInRow.wrbyte val rs
  | setbl on => exact Laws.EncodesInRow.setbl on
  | clear => exact Laws.EncodesInRow.clear
  | inithw => exact Laws.EncodesInRow.inithw
  | init cols rows addr blon => exact Laws.EncodesInRow.init cols rows addr blon
  | setcur col row => exact Laws.EncodesInRow.setcur col row
  | print p => exact Laws.EncodesInRow.print p
  | disptext p => exact Laws.EncodesInRow.disptext p

theorem decode_encode (i : Instr) : decode (encode i) = .instr i := by
  obtain ⟨r, hsel, hop⟩ := Option.map_eq_some_iff.1 (encodesInRow i)
  rw [decode_of_selectRow hsel, hop, fieldsOf_encode]

/-- Settles O1: the word selects the operation's own row, and each field of it reads back. -/
theorem decodeEncodeAgree : Obligations.DecodeEncodeAgree := decode_encode

/-- Settles O2: the row fixes the bits under its mask, and the operation's fields are all the others. -/
theorem encodeDecodeAgree : Obligations.EncodeDecodeAgree := by
  intro w i h
  obtain ⟨r, hr, hsel, rfl⟩ := exists_row_of_decode h
  calc encode (fieldsOf w r.op) = (w &&& r.mask) ||| (w &&& ~~~ r.mask) := by rw [encode_fieldsOf hr, hsel]
    _ = w := by rw [← BitVec.and_or_distrib_left, BitVec.or_not_self, BitVec.and_allOnes]

/-- A word that an operation is encoded as decodes to it. -/
theorem decode_of_encode {i : Instr} {w : OpWord} (h : encode i = w) : decode w = .instr i := h ▸ decode_encode i

/-- Settles O4: each word is the encoding of its operation. -/
theorem wordsOfTheSpecDecode : Obligations.WordsOfTheSpecDecode :=
  ⟨decode_of_encode rfl, decode_of_encode rfl, decode_of_encode rfl, decode_of_encode rfl, decode_of_encode rfl,
    decode_of_encode rfl, decode_of_encode rfl, decode_of_encode rfl, decode_of_encode rfl⟩

/-- Settles O5: the spellings are WRBYTE by definition, their words its encoding. -/
theorem cmdAndDataAreSpellingsOfWrbyte : Obligations.CmdAndDataAreSpellingsOfWrbyte := fun _ =>
  ⟨rfl, rfl, rfl, rfl, decode_of_encode rfl, decode_of_encode rfl⟩

/-! ### The reserved words -/

/-- The opcode of a row (30_encoding R91). -/
def Op.opcode : Op → Nibble
  | .wrnib => 1
  | .wrbyte => 2
  | .setbl => 3
  | .clear => 4
  | .inithw => 5
  | .init => 6
  | .setcur => 7
  | .print => 8
  | .disptext => 9

/-- The reserved bits of a row's format, all 0 (30_encoding R85 to R90). -/
def Op.reservedBitsZero (w : OpWord) : Op → Prop
  | .wrnib | .wrbyte => w.extractLsb' 9 19 = 0
  | .setbl => w.extractLsb' 1 27 = 0
  | .clear | .inithw => w.extractLsb' 0 28 = 0
  | .init => w.extractLsb' 24 4 = 0
  | .setcur | .print | .disptext => w.extractLsb' 16 12 = 0

/-- A word selects a row by the row's opcode and by reserved bits that are all 0 (30_encoding R84, R91). -/
theorem selects_iff {r : Row} (hr : r ∈ opcodeTable) (w : OpWord) :
    w &&& r.mask = r.pattern ↔ opcodeOf w = r.op.opcode ∧ r.op.reservedBitsZero w := by
  fin_cases hr
  exacts [and_highBits_eq_iff w 1 (lo := 9) (by decide), and_highBits_eq_iff w 2 (lo := 9) (by decide),
    and_highBits_eq_iff w 3 (lo := 1) (by decide), and_highBits_eq_iff w 4 (lo := 0) (by decide),
    and_highBits_eq_iff w 5 (lo := 0) (by decide), and_highBits_eq_iff w 6 (lo := 24) (by decide),
    and_highBits_eq_iff w 7 (lo := 16) (by decide), and_highBits_eq_iff w 8 (lo := 16) (by decide),
    and_highBits_eq_iff w 9 (lo := 16) (by decide)]

/-- A word is illegal exactly when it has the opcode of a row only with a reserved bit set (30_encoding R92). -/
theorem decode_reject_iff_reserved (w : OpWord) :
    (∃ r, decode w = .reject r) ↔ ∀ r ∈ opcodeTable, ¬ (opcodeOf w = r.op.opcode ∧ r.op.reservedBitsZero w) :=
  (decode_reject_iff w).trans (forall₂_congr fun _ hr => not_congr (selects_iff hr w))

end Sys2Proof

namespace Sys2Proof.Machine

/-! ### The step that accepts a word -/

/-- An idle engine with a word on the port decodes it (30_encoding R94, R95). -/
theorem step_idle_instr {s : State} {w : OpWord} {b : BusBundle} {rest : List HostAct} {i : Instr} (h : s.busy = false)
    (hh : s.host = .issue w b :: rest) (hd : decode w = .instr i) : step s = exec i (accept w b rest s) := by
  rw [step_of_idle h, idleStep, hh]
  simp only [hd]

theorem step_idle_reject {s : State} {w : OpWord} {b : BusBundle} {rest : List HostAct} {r : Reject} (h : s.busy = false)
    (hh : s.host = .issue w b :: rest) (hd : decode w = .reject r) : step s = .next (illegalWord (accept w b rest s)) := by
  rw [step_of_idle h, idleStep, hh]
  simp only [hd]

/-- Settles O8: the accepted word's step, with what acceptance sets written out. -/
theorem stepRunsTheDecodedOperation : Obligations.StepRunsTheDecodedOperation := by
  intro s w b rest i hbusy hhost hdec
  rw [step_idle_instr hbusy hhost hdec, accept, sampleBusCfg_instr hdec]

/-- Settles O3, opcode by opcode: a row's opcode leaves that row's reserved bits to ask for, any other is reserved; and the end
of the operation overwrites what acceptance set, but for OPR and the host's list. -/
theorem illegalWordsAreTheReservedOnes : Obligations.IllegalWordsAreTheReservedOnes := by
  refine ⟨fun w => ?_, ⟨_, rfl⟩, fun s w b rest r hbusy hhost hdec => ?_⟩
  · simp only [decode_reject_iff_reserved, opcodeTable, List.forall_mem_cons, Op.opcode, Op.reservedBitsZero, opcodeOf]
    generalize w.extractLsb' 28 4 = opc, w.extractLsb' 9 19 = nib, w.extractLsb' 1 27 = bl, w.extractLsb' 0 28 = fixed,
      w.extractLsb' 24 4 = cfg, w.extractLsb' 16 12 = text
    obtain ⟨opc⟩ := opc
    fin_cases opc <;> simp
  · rw [step_idle_reject hbusy hhost hdec, accept, sampleBusCfg_reject hdec]
    rfl

/-! ### The expander byte -/

/-- Settles O7: a shift moves the mask with the nibble. -/
theorem nibblesOfAByte : Obligations.NibblesOfAByte := fun v =>
  ⟨rfl, rfl, (BitVec.shiftLeft_and_distrib v 0x0F 4).symm⟩

/-- The three terms of an expander byte have no bit in common, so they add up (30_encoding R82). -/
theorem compose_eq_add {bl : Byte} (hbl : bl = 0x00 ∨ bl = 0x08) (n : Byte) (rs : Bool) :
    compose bl n rs = (n &&& 0xF0) + bl + (if rs then 0x01 else 0x00) := by
  have hdisj : (n &&& 0xF0) &&& bl = 0 ∧ ((n &&& 0xF0) ||| bl) &&& (if rs then 0x01 else 0x00) = 0 := by
    rcases hbl with rfl | rfl <;> revert n rs <;> decide
  rw [compose_eq, BitVec.add_eq_or_of_and_eq_zero _ _ hdisj.1, BitVec.add_eq_or_of_and_eq_zero _ _ hdisj.2]

theorem compose_controlBits {bl : Byte} (hbl : bl = 0x00 ∨ bl = 0x08) (n : Byte) (rs : Bool) :
    compose bl n rs &&& 0x04 = 0 ∧ compose bl n rs &&& 0x02 = 0 := by
  have hlive : bl &&& params.blBit = bl := by rcases hbl with rfl | rfl <;> rfl
  obtain ⟨hen, -, -, hrw, -⟩ := compose_bits bl n rs
  rw [hlive] at hen hrw
  exact ⟨and_enBit_of_enPin hen, hrw⟩

/-- A bus write records its address, its byte and its answer (20_memory R50). -/
theorem busWrite_trace (v : Byte) (s : State) :
    (busWrite v s).state.trace = s.trace ++ [.w s.cfg.addr v (s.answerAt 0)] := by
  cases h : s.answerAt 0 with
  | ok => rw [busWrite_ok h]; rfl
  | err c =>
    rw [busWrite_err h]
    simp only [ActEnd.state]
    split <;> rfl

/-- The events of a run begin with its first line's. -/
theorem runLines_cons_trace (l : Line) (ls : List Line) (s : State) :
    ∃ es, (runLines (l :: ls) s).state.trace = (perform l.act (s.atLine l)).state.trace ++ es := by
  cases h : perform l.act (s.atLine l) with
  | ok s' => rw [runLines_cons_ok h]; exact runLines_trace ls s'
  | err r s' => rw [runLines_cons_err h]; exact ⟨[], (List.append_nil _).symm⟩

/-- A pulse begins with the write of EB with EN set (41_protocol R120 step 2). -/
theorem runLines_enHigh_trace {n : Nat} (ls : List Line) (s : State) :
    ∃ es, (runLines (line n .enHigh :: ls) s).state.trace =
      s.trace ++ .w s.cfg.addr (s.eb ||| params.enBit) (s.answerAt 0) :: es := by
  obtain ⟨es, hes⟩ := runLines_cons_trace (line n .enHigh) ls s
  refine ⟨es, hes.trans ?_⟩
  have hact : (perform .enHigh (s.atLine (line n .enHigh))).state.trace =
      (busWrite (s.eb ||| params.enBit) (s.atLine (line n .enHigh))).state.trace := by
    simp only [perform, atLine_eb]
    cases busWrite (s.eb ||| params.enBit) (s.atLine (line n .enHigh)) <;> rfl
  show (perform .enHigh _).state.trace ++ es = _
  rw [hact, busWrite_trace]
  simp

/-- Settles O6: the terms are the masks' by definition and have no bit in common; a WRNIB composes EB and writes it with EN set
before anything else. -/
theorem composeBuildsTheExpanderByte : Obligations.ComposeBuildsTheExpanderByte := by
  refine ⟨compose_eq, fun bl n rs hbl => ⟨compose_eq_add hbl n rs, compose_controlBits hbl n rs⟩, fun n rs s hinst => ?_⟩
  obtain ⟨r, hend, -, -⟩ := operate_ended (wrnibBody n rs false) s
  refine ⟨operate (wrnibBody n rs false) s, ?_⟩
  rw [exec_wrnib, gated_open hinst rfl, hend, wrnibBody, runLines_cons_ok rfl]
  obtain ⟨es, hes⟩ := runLines_enHigh_trace _ _
  exact ⟨es, rfl, hes⟩

end Sys2Proof.Machine

/-! The register model (40_register): SETBL, the cache first and then one bus write of it (R111). -/

namespace Sys2Proof.Machine

/-- A bus write that ends an operation does not see what the end overwrites. -/
theorem concludeRun_busWrite_congr (v : Byte) {s s' : State} (h : s.ended resOk = s'.ended resOk) :
    concludeRun (busWrite v s) = concludeRun (busWrite v s') := by
  rw [← concludeRun_forget, ← busWrite_ended, h, busWrite_ended, concludeRun_forget]

/-- A run of one line is its action. -/
theorem runLines_singleton (l : Line) (s : State) : runLines [l] s = perform l.act (s.atLine l) := by
  cases h : perform l.act (s.atLine l) with
  | ok s' => rw [runLines_cons_ok h, runLines_nil]
  | err r s' => rw [runLines_cons_err h]

/-- A backlight flag in BLC is read back whole (10_state R25). -/
@[simp] theorem setBacklight_readBlc (s : State) (on : Bool) : (s.setBacklight on).readBlc = backlightByte on := by
  rw [readBlc_eq, setBacklight_blc, backlightByte_eq, backlight_of_flag]

/-- SETBL behind the open gate: the cache takes the flag, and the one bus write of it ends the operation (40_register R111 (a),
(b)). -/
theorem exec_setbl_open (on : Bool) {s : State} (h : s.busInstalled = true) :
    exec (.setbl on) s = .next (concludeRun (busWrite (backlightByte on) (s.setBacklight on))) := by
  rw [exec_setbl, gated_open h rfl, operate, setblBody, runLines_cons_ok rfl, runLines_singleton]
  simp only [line, perform, atLine_readBlc, setBacklight_readBlc]
  exact congrArg _ (concludeRun_busWrite_congr _ rfl)

/-- Settles O21, by the answer to the one write: the backlight byte is delivered, or reaches the pins or not. -/
theorem setblWritesTheCacheThenTheBus : Obligations.SetblWritesTheCacheThenTheBus := by
  intro on s hinst
  have hcache : s.setBacklight on = { s with blc := if on then 0x08 else 0x00 } := by
    rw [State.setBacklight, backlightByte_eq]
  rw [exec_setbl_open on hinst, ← hcache]
  refine ⟨fun hok => ?_, fun c herr => ?_⟩
  · rw [busWrite_backlight_ok ((answerAt_setBacklight s on 0).trans hok)]
    rfl
  · obtain ⟨x, ns, hpins, hwrite⟩ := busWrite_backlight_err (on := on) ((answerAt_setBacklight s on 0).trans herr)
    exact ⟨x, ns, hpins, by rw [hwrite]; rfl⟩

end Sys2Proof.Machine

/-! The protocol engine (41_protocol): one enable pulse, delivered (R120) and failing (R121), a byte as two of them (R122),
and the sequencer's table (R124) with the positions it goes through. -/

namespace Sys2Proof.Machine

/-! ### Pulses delivered -/

/-- `Compose` masks its operand, so a byte composes like its high nibble (30_encoding R82, R83). -/
theorem compose_eq_highByte (bl n : Byte) (rs : Bool) : compose bl n rs = highByte bl n rs := compose_eq bl n rs

/-- Settles O18, by one pulse sent. -/
theorem wrnibSendsOnePulse : Obligations.WrnibSendsOnePulse := by
  intro val rs s hinst hok
  have hsends := sends_pulse s.cfg.addr (s.blc &&& 0x08) val rs false (backlight_idem _)
  rw [compose_eq_highByte] at hsends
  rw [exec_wrnib, gated_open hinst rfl, operate_sends (ls := wrnibBody val rs false) hsends rfl rfl hok]
  rfl

/-- Settles O20, by one byte sent. -/
theorem wrbyteSendsTwoPulses : Obligations.WrbyteSendsTwoPulses := by
  intro val rs s hinst hok
  have hsends := sends_byte s.cfg.addr (s.blc &&& 0x08) val rs (backlight_idem _)
  rw [exec_wrbyte, gated_open hinst rfl, operate_sends hsends rfl rfl hok]
  rfl

/-! ### The nibbles that a write makes the controller latch -/

/-- The nibble latched where the pins go from one byte to another: one at a falling edge of EN (10_state R36). -/
def fallingNibbles (old new : Byte) : List (Bool × Nibble) := if enFalls old new then [(rsPin new, dataPins new)] else []

theorem drivePins_eq_pins (s : State) (v : Byte) : s.drivePins v = s.pins v (fallingNibbles s.xp v) := by
  by_cases h : enFalls s.xp v = true <;> simp [State.drivePins, State.pins, fallingNibbles, h]

/-- A byte with EN set latches nothing. -/
theorem fallingNibbles_enHigh (old b : Byte) : fallingNibbles old (b ||| 0x04) = [] := by
  rw [fallingNibbles, show b ||| 0x04 = b ||| params.enBit from rfl, enFalls_rise]
  rfl

/-- The end of a pulse latches the nibble it was composed from, with RS (41_protocol R120 step 4). -/
theorem fallingNibbles_pulse (bl n : Byte) (rs : Bool) :
    fallingNibbles (compose (bl &&& 0x08) n rs ||| 0x04) (compose (bl &&& 0x08) n rs) = [(rs, n.extractLsb' 4 4)] := by
  obtain ⟨hen, hrs, hdata, -, -⟩ := compose_bits bl n rs
  have hfalls : enFalls (compose (bl &&& params.blBit) n rs ||| params.enBit) (compose (bl &&& params.blBit) n rs) = true := by
    rw [enFalls, enPin_enHigh, hen]
    rfl
  exact (if_pos hfalls).trans (congrArg (fun p => [p]) (Prod.ext hrs hdata))

/-- A write answered with an error leaves the pins as they were or drives them (10_state R35). -/
theorem busWrite_err_pins {v c : Byte} {s : State} (h : s.answerAt 0 = .err c) :
    ∃ x ns, ((x = s.xp ∧ ns = []) ∨ (x = v ∧ ns = fallingNibbles s.xp v)) ∧
      busWrite v s = .err (resBusError c) ((s.after 1 [.w s.cfg.addr v (.err c)]).pins x ns) := by
  rw [busWrite_err h, drivePins_eq_pins, useAnswer_emit]
  by_cases hreached : Config.failedWriteReached s.draws = true
  · exact ⟨v, _, .inr ⟨rfl, rfl⟩, by rw [if_pos hreached]; rfl⟩
  · exact ⟨s.xp, [], .inl ⟨rfl, rfl⟩, by rw [if_neg hreached]; simp [State.pins, State.after]⟩

/-! ### Pulses cut off -/

/-- A pulse of the expander byte `b` under way: these events so far, `n` of them answered, the pins at `x`, these nibbles
latched. -/
def State.inPulse (s : State) (b : Byte) (n : Nat) (es : List Event) (x : Byte) (ns : List (Bool × Nibble)) : State :=
  { (s.after n es).pins x ns with eb := b }

/-- One bus event more, and where it leaves the pins. -/
theorem inPulse_after_pins (s : State) (b x y : Byte) (n m : Nat) (es fs : List Event) (ns ms : List (Bool × Nibble)) (q : Seq) :
    (((s.inPulse b n es x ns).atSeq q).after m fs).pins y ms = (s.inPulse b (n + m) (es ++ fs) y (ns ++ ms)).atSeq q := by
  simp only [State.inPulse, State.atSeq, State.after, State.pins, List.drop_drop, List.append_assoc, Nat.add_assoc]

/-- A failing EN-high write ends the pulse, and the body, with the pins old or at the byte it wrote (41_protocol R121). -/
theorem runLines_pulse_high_err {n : Byte} {rs nsel : Bool} {as : List Act} {ls : List Line}
    (hl : actsOf ls = .startPulse n rs nsel :: .enHigh :: as) {s : State} {c : Byte} (h : s.answerAt 0 = .err c) :
    ∃ x q, (x = s.xp ∨ x = compose s.readBlc n rs ||| 0x04) ∧
      runLines ls s = .err (resBusError c) ((s.inPulse (compose s.readBlc n rs) 1
        [.w s.cfg.addr (compose s.readBlc n rs ||| 0x04) (.err c)] x []).atSeq q) := by
  obtain ⟨l1, _, rfl, h1, hl⟩ := List.map_eq_cons_iff.1 hl
  obtain ⟨l2, _, rfl, h2, -⟩ := List.map_eq_cons_iff.1 hl
  rw [runLines_cons_ok (by rw [h1]; rfl)]
  obtain ⟨x, ns, hpins, hwrite⟩ := busWrite_err_pins (v := compose s.readBlc n rs ||| 0x04)
    (s := ((s.atLine l1).beginPulse n rs nsel).atLine l2) h
  rw [fallingNibbles_enHigh] at hpins
  obtain rfl : ns = [] := hpins.elim And.right And.right
  exact ⟨x, _, hpins.imp And.left And.left,
    runLines_cons_err (by rw [h2]; exact congrArg (ActEnd.thenDo · (State.setPhase · .hold)) hwrite)⟩

/-- A pulse of the expander byte `b` with EN raised and held. -/
def State.raised (s : State) (b : Byte) : State := s.inPulse b 1 [.w s.cfg.addr (b ||| 0x04) .ok, .d 1] (b ||| 0x04) []

/-- The first half of a pulse, its write delivered: EN is raised and held (41_protocol R120 steps 1 to 3). -/
theorem runLines_raise {n : Byte} {rs nsel : Bool} {ls : List Line} (hl : actsOf ls = [.startPulse n rs nsel, .enHigh, .hold])
    {s : State} (h : s.answerAt 0 = .ok) :
    ∃ q, runLines ls s = .ok ((s.raised (compose s.readBlc n rs)).atSeq q) := by
  obtain ⟨l1, _, rfl, h1, hl⟩ := List.map_eq_cons_iff.1 hl
  obtain ⟨l2, _, rfl, h2, hl⟩ := List.map_eq_cons_iff.1 hl
  obtain ⟨l3, rfl, h3⟩ := List.map_eq_singleton_iff.1 hl
  have hwrite := busWrite_ok (v := compose s.readBlc n rs ||| 0x04) (s := ((s.atLine l1).beginPulse n rs nsel).atLine l2) h
  rw [drivePins_eq_pins, fallingNibbles_enHigh, useAnswer_emit] at hwrite
  rw [runLines_cons_ok (by rw [h1]; rfl),
    runLines_cons_ok (by rw [h2]; exact congrArg (ActEnd.thenDo · (State.setPhase · .hold)) hwrite),
    runLines_cons_ok (by rw [h3]; rfl), runLines_nil]
  exact exists_seq (by
    simp [State.emit, State.setPhase, State.after, State.pins, State.raised, State.inPulse, State.atSeq,
      State.beginPulse, State.atLine, State.readBlc, params])

/-- The failing write that should have brought EN low: the pins keep EN high, or hold the byte and its nibble is latched
(41_protocol R121). -/
theorem busWrite_raised_err {n : Byte} {rs : Bool} {s : State} {c : Byte} (q : Seq) (h : s.answerAt 1 = .err c) :
    ∃ x ns, ((x = compose s.readBlc n rs ||| 0x04 ∧ ns = []) ∨
        (x = compose s.readBlc n rs ∧ ns = [(rs, n.extractLsb' 4 4)])) ∧
      busWrite (compose s.readBlc n rs) ((s.raised (compose s.readBlc n rs)).atSeq q) = .err (resBusError c)
        ((s.inPulse (compose s.readBlc n rs) 2 [.w s.cfg.addr (compose s.readBlc n rs ||| 0x04) .ok, .d 1,
          .w s.cfg.addr (compose s.readBlc n rs) (.err c)] x ns).atSeq q) := by
  generalize hb : compose s.readBlc n rs = b
  have hanswer : ((s.raised b).atSeq q).answerAt 0 = .err c := (answerAt_drop rfl rfl 0).trans h
  have hfall : fallingNibbles ((s.raised b).atSeq q).xp b = [(rs, n.extractLsb' 4 4)] := by
    rw [← hb]
    exact fallingNibbles_pulse s.blc n rs
  obtain ⟨x, ns, hpins, hwrite⟩ := busWrite_err_pins (v := b) hanswer
  rw [hfall] at hpins
  exact ⟨x, ns, hpins, hwrite.trans (congrArg (ActEnd.err _) (inPulse_after_pins s b _ x 1 1 _ _ [] ns q))⟩

/-- A failing EN-low write ends the pulse, and the body, after the hold (41_protocol R121). -/
theorem runLines_pulse_low_err {n : Byte} {rs nsel : Bool} {as : List Act} {ls : List Line}
    (hl : actsOf ls = .startPulse n rs nsel :: .enHigh :: .hold :: .enLow :: as) {s : State} {c : Byte}
    (h0 : s.answerAt 0 = .ok) (h1 : s.answerAt 1 = .err c) :
    ∃ x ns q, ((x = compose s.readBlc n rs ||| 0x04 ∧ ns = []) ∨
        (x = compose s.readBlc n rs ∧ ns = [(rs, n.extractLsb' 4 4)])) ∧
      runLines ls s = .err (resBusError c) ((s.inPulse (compose s.readBlc n rs) 2
        [.w s.cfg.addr (compose s.readBlc n rs ||| 0x04) .ok, .d 1, .w s.cfg.addr (compose s.readBlc n rs) (.err c)]
        x ns).atSeq q) := by
  obtain ⟨raise, _, rfl, hraise, hl⟩ := List.map_eq_append_iff (L₁ := [Act.startPulse n rs nsel, .enHigh, .hold]).1 hl
  obtain ⟨l4, _, rfl, h4, -⟩ := List.map_eq_cons_iff.1 hl
  obtain ⟨q, hq⟩ := runLines_raise hraise h0
  obtain ⟨q', hq'⟩ : ∃ q', ((s.raised (compose s.readBlc n rs)).atSeq q).atLine l4 =
    (s.raised (compose s.readBlc n rs)).atSeq q' := ⟨_, rfl⟩
  obtain ⟨x, ns, hpins, hwrite⟩ := busWrite_raised_err (n := n) (rs := rs) q' h1
  refine ⟨x, ns, q', hpins, ?_⟩
  rw [runLines_append, hq]
  refine runLines_cons_err ?_
  rw [h4, hq']
  exact congrArg (ActEnd.thenDo · (State.setPhase · .settle)) hwrite

/-- Settles O19, by the write that fails. -/
theorem wrnibFailureEndsThePulse : Obligations.WrnibFailureEndsThePulse := by
  intro val rs c s hinst
  rw [exec_wrnib, gated_open hinst rfl, operate, ← compose_eq_highByte]
  refine ⟨fun h0 => ?_, fun h0 h1 => ?_⟩
  · obtain ⟨x, q, hx, hrun⟩ := runLines_pulse_high_err (ls := wrnibBody val rs false) rfl
      (s := s.load (wrnibBody val rs false)) h0
    exact ⟨x, hx, by rw [hrun]; rfl⟩
  · obtain ⟨x, ns, q, hx, hrun⟩ := runLines_pulse_low_err (ls := wrnibBody val rs false) rfl
      (s := s.load (wrnibBody val rs false)) h0 h1
    exact ⟨x, ns, hx, by rw [hrun]; rfl⟩

/-! ### The sequencer's table -/

/-- The sequencer takes up its first line: MSTEP goes on to the step of the line that follows (10_state R31; log 13). -/
theorem atLine_seq_of_todo {s : State} {l : Line} {rest : List Line} (h : s.seq.todo = l :: rest) :
    (s.atLine l).seq = { mstep := mstepOf l.mstep rest, nsel := s.seq.nsel, ph := s.seq.ph, todo := rest } := by
  rw [atLine_seq, h, List.tail_cons]

/-- One action of the sequencer is its first line performed. -/
theorem tick_of_ok {s s' : State} {l : Line} {rest : List Line} (htodo : s.seq.todo = l :: rest)
    (h : perform l.act (s.atLine l) = .ok s') : tick s = s' := by
  simp [tick, htodo, performLine_eq, h]

/-- A line that meets an error ends the operation with it (60_exceptions R196). -/
theorem tick_of_err {s s' : State} {l : Line} {rest : List Line} {r : Result} (htodo : s.seq.todo = l :: rest)
    (h : perform l.act (s.atLine l) = .err r s') : tick s = s'.ended r := by
  simp [tick, htodo, performLine_eq, h, conclude_eq_ended]

section
variable {s : State} {l : Line} {rest : List Line} (htodo : s.seq.todo = l :: rest)
include htodo

theorem tick_startPulse {n : Byte} {rs nsel : Bool} (hact : l.act = .startPulse n rs nsel) :
    tick s = { s with
      eb := compose s.readBlc n rs, seq := { mstep := mstepOf l.mstep rest, nsel := nsel, ph := .wrHi, todo := rest } } := by
  rw [tick_of_ok htodo (by rw [hact]; rfl), State.beginPulse, atLine_seq_of_todo htodo]
  rfl

theorem tick_hold (hact : l.act = .hold) :
    tick s = { s with
      trace := s.trace ++ [.d 1], seq := { mstep := mstepOf l.mstep rest, nsel := s.seq.nsel, ph := .wrLo, todo := rest } } := by
  rw [tick_of_ok htodo (by rw [hact]; rfl), State.setPhase, emit_seq, atLine_seq_of_todo htodo]
  rfl

theorem tick_settle (hact : l.act = .settle) :
    tick s = { s with
      trace := s.trace ++ [.d 50], seq := { mstep := mstepOf l.mstep rest, nsel := s.seq.nsel, ph := .idle, todo := rest } } := by
  rw [tick_of_ok htodo (by rw [hact]; rfl), State.setPhase, emit_seq, atLine_seq_of_todo htodo]
  rfl

/-- A write of a pulse delivered: the pins take the byte and the sequencer goes to the phase that follows (41_protocol R124). -/
theorem tick_write_ok {v : Byte} {p : Phase}
    (hact : perform l.act (s.atLine l) = (busWrite v (s.atLine l)).thenDo (State.setPhase · p)) (h : s.answerAt 0 = .ok) :
    tick s = { (s.after 1 [.w s.cfg.addr v .ok]).drivePins v with
      seq := { mstep := mstepOf l.mstep rest, nsel := s.seq.nsel, ph := p, todo := rest } } := by
  rw [busWrite_ok (s := s.atLine l) h, useAnswer_emit] at hact
  rw [tick_of_ok htodo hact]
  exact congrArg (fun q : Seq => State.atSeq (State.drivePins (s.after 1 [.w s.cfg.addr v .ok]) v) { q with ph := p })
    (atLine_seq_of_todo htodo)

/-- A write of a pulse, by its answer: delivered, the sequencer goes on; failing, the operation ends with its bus error and
no event more (41_protocol R124, 60_exceptions R196; log 12). -/
theorem tick_write {v : Byte} {p : Phase}
    (hact : perform l.act (s.atLine l) = (busWrite v (s.atLine l)).thenDo (State.setPhase · p)) :
    (s.answerAt 0 = .ok →
      (tick s).seq = { mstep := mstepOf l.mstep rest, nsel := s.seq.nsel, ph := p, todo := rest } ∧
        (tick s).trace = s.trace ++ [.w s.cfg.addr v .ok] ∧ (tick s).xp = v) ∧
    (∀ c, s.answerAt 0 = .err c → (tick s).seq = .idle ∧ (tick s).result = resBusError c ∧ (tick s).busy = false ∧
      (tick s).trace = s.trace ++ [.w s.cfg.addr v (.err c)]) := by
  refine ⟨fun hok => ?_, fun c herr => ?_⟩
  · rw [tick_write_ok htodo hact hok]
    exact ⟨rfl, rfl, rfl⟩
  · obtain ⟨x, ns, -, hwrite⟩ := busWrite_err_pins (v := v) (s := s.atLine l) herr
    rw [hwrite] at hact
    rw [tick_of_err htodo hact]
    exact ⟨rfl, rfl, rfl, rfl⟩

end

/-- Settles O52, one action of the table after the other. -/
theorem pulseSequencerFollowsItsTable : Obligations.PulseSequencerFollowsItsTable := by
  intro s l rest m htodo hm
  obtain rfl : m = mstepOf l.mstep rest := hm.trans (by cases rest <;> rfl)
  exact ⟨fun n rs nsel hact => tick_startPulse htodo hact, fun hact => tick_write htodo (by rw [hact]; rfl), tick_hold htodo,
    fun hact => tick_write htodo (by rw [hact]; rfl), tick_settle htodo⟩

/-! ### The sequencer's positions -/

/-- The position of the sequencer: MSTEP, NSEL and PH (10_state R31). -/
def State.position (s : State) : Nat × Bool × Phase := (s.seq.mstep, s.seq.nsel, s.seq.ph)

/-- The positions after each of the next `n` actions. -/
def positions : Nat → State → List (Nat × Bool × Phase)
  | 0, _ => []
  | n + 1, s => (tick s).position :: positions n (tick s)

theorem positions_add (n m : Nat) (s : State) : positions (n + m) s = positions n s ++ positions m (ticks n s) := by
  induction n generalizing s with
  | zero => rw [Nat.zero_add]; rfl
  | succ n ih => rw [Nat.succ_add]; exact congrArg _ (ih (tick s))

/-- A pulse, both writes delivered, goes through the phases of 41_protocol R124 and takes up its five lines, two answers used. -/
theorem positions_pulse {n : Byte} {rs nsel : Bool} {l1 l2 l3 l4 l5 : Line} {rest : List Line} {s : State}
    (hacts : actsOf [l1, l2, l3, l4, l5] = pulseActs n rs nsel) (htodo : s.seq.todo = l1 :: l2 :: l3 :: l4 :: l5 :: rest)
    (hok : s.answersOk 2) :
    positions 5 s = [(l2.mstep, nsel, .wrHi), (l3.mstep, nsel, .hold), (l4.mstep, nsel, .wrLo), (l5.mstep, nsel, .settle),
        (mstepOf l5.mstep rest, nsel, .idle)] ∧
      (ticks 5 s).seq.todo = rest ∧ (ticks 5 s).answers = s.answers.drop 2 ∧ (ticks 5 s).draws = s.draws + 2 := by
  simp only [actsOf, List.map_cons, List.map_nil, pulseActs, List.cons.injEq, and_true] at hacts
  obtain ⟨h1, h2, h3, h4, h5⟩ := hacts
  have e1 : ticks 1 s = _ := tick_startPulse htodo h1
  have t1 : (ticks 1 s).seq = ⟨l2.mstep, nsel, .wrHi, l2 :: l3 :: l4 :: l5 :: rest⟩ := by rw [e1]; rfl
  have e2 : ticks 2 s = _ := tick_write_ok (s := ticks 1 s) (p := .hold) (congrArg Seq.todo t1) (by rw [h2]; rfl)
    (by rw [e1]; exact hok 0 (by omega))
  have t2 : (ticks 2 s).seq = ⟨l3.mstep, nsel, .hold, l3 :: l4 :: l5 :: rest⟩ := by rw [e2, t1]; rfl
  have e3 : ticks 3 s = _ := tick_hold (s := ticks 2 s) (congrArg Seq.todo t2) h3
  have t3 : (ticks 3 s).seq = ⟨l4.mstep, nsel, .wrLo, l4 :: l5 :: rest⟩ := by rw [e3, t2]; rfl
  have e4 : ticks 4 s = _ := tick_write_ok (s := ticks 3 s) (p := .settle) (congrArg Seq.todo t3) (by rw [h4]; rfl)
    (by rw [e3, e2, e1]; exact (answerAt_after s 1 [] 0).trans (hok 1 (by omega)))
  have t4 : (ticks 4 s).seq = ⟨l5.mstep, nsel, .settle, l5 :: rest⟩ := by rw [e4, t3]; rfl
  have e5 : ticks 5 s = _ := tick_settle (s := ticks 4 s) (congrArg Seq.todo t4) h5
  have t5 : (ticks 5 s).seq = ⟨mstepOf l5.mstep rest, nsel, .idle, rest⟩ := by rw [e5, t4]
  refine ⟨?_, congrArg Seq.todo t5, ?_, ?_⟩
  · show [(ticks 1 s).position, (ticks 2 s).position, (ticks 3 s).position, (ticks 4 s).position, (ticks 5 s).position] = _
    simp only [State.position, t1, t2, t3, t4, t5]
  · rw [e5, e4, e3, e2, e1]
    exact List.drop_drop
  · rw [e5, e4, e3, e2, e1]
    rfl

/-- Settles O53: WRNIB is one pulse, WRBYTE two, the second with the two answers that follow. -/
theorem positionsOfWrnibAndWrbyte : Obligations.PositionsOfWrnibAndWrbyte := by
  intro val rs s hinst
  refine ⟨⟨(exec_wrnib val rs s).trans (gated_open hinst rfl), fun hok => ?_⟩,
    (exec_wrbyte val rs s).trans (gated_open hinst rfl), fun hok => ?_⟩
  · obtain ⟨hpos, -⟩ := positions_pulse (s := s.load (wrnibBody val rs false)) (rest := []) rfl rfl hok
    exact hpos
  · obtain ⟨hhigh, htodo, hanswers, hdraws⟩ := positions_pulse (s := s.load (wrbyteBody val rs)) rfl rfl
      (answersOk_mono hok (by omega))
    obtain ⟨hlow, -⟩ := positions_pulse rfl htodo (answersOk_drop hanswers hdraws hok)
    exact (positions_add 5 5 _).trans (by rw [hhigh, hlow]; rfl)

end Sys2Proof.Machine

/-! The command layer (42_command): CLEAR delivered (R142) and failing (R143), and the bring-up sequence (R144, R146). -/

namespace Sys2Proof.Machine

/-! ### Commands delivered -/

/-- Settles O22, by the command and the delay that CLEAR's body sends. -/
theorem clearSendsAndWaits : Obligations.ClearSendsAndWaits := by
  intro s hinst hok
  have hsends := sends_clear s.cfg.addr (s.blc &&& 0x08) (backlight_idem _)
  rw [exec_clear, gated_open hinst rfl, operate_sends hsends rfl rfl hok]
  rfl

/-- Settles O24, by the bring-up that INITHW's body sends. -/
theorem inithwBringsTheDisplayUp : Obligations.InithwBringsTheDisplayUp := by
  intro s hinst hok
  have hsends := sends_bringUp s.cfg.addr (s.blc &&& 0x08) (backlight_idem _)
  rw [exec_inithw, gated_open hinst rfl, operate_sends hsends rfl rfl hok]
  rfl

/-! ### Commands cut off -/

/-- The actions `as` stop at the first of their `n` bus writes that fails: before the failure of write `k` stand `k` delivered
writes and no delay of `us` microseconds, and nothing follows it (60_exceptions R196). -/
def StopsAtFailure (us n : Nat) (as : List Act) : Prop :=
  ∀ (ls : List Line) (s : State) (k : Nat) (c : Byte), actsOf ls = as → k < n → s.answersOk k → s.answerAt k = .err c →
    ∃ u es a v, runLines ls s = .err (resBusError c) u ∧ u.trace = s.trace ++ es ++ [.w a v (.err c)] ∧ writeCount es = k ∧
      .d us ∉ es

theorem stopsAtFailure_nil (us : Nat) : StopsAtFailure us 0 [] := fun _ _ _ _ _ hk => absurd hk (Nat.not_lt_zero _)

/-- What stands after a failure is not performed. -/
theorem StopsAtFailure.append {us n : Nat} {as : List Act} (h : StopsAtFailure us n as) (bs : List Act) :
    StopsAtFailure us n (as ++ bs) := by
  intro ls s k c hl hk hok herr
  obtain ⟨xs, ys, rfl, hxs, -⟩ := List.map_eq_append_iff.1 hl
  obtain ⟨u, es, a, v, hrun, hes⟩ := h xs s k c hxs hk hok herr
  exact ⟨u, es, a, v, by rw [runLines_append, hrun], hes⟩

/-- A pulse stops at its EN-high write, or after the hold at its EN-low write (41_protocol R121). -/
theorem stopsAtFailure_pulse (us : Nat) (hhold : us ≠ 1) (n : Byte) (rs nsel : Bool) :
    StopsAtFailure us 2 (pulseActs n rs nsel) := by
  intro ls s k c hl hk hok herr
  obtain rfl | rfl : k = 0 ∨ k = 1 := by omega
  · obtain ⟨x, q, -, hrun⟩ := runLines_pulse_high_err hl herr
    exact ⟨_, [], _, _, hrun, by rw [List.append_nil]; rfl, rfl, List.not_mem_nil⟩
  · obtain ⟨x, ns, q, -, hrun⟩ := runLines_pulse_low_err hl (hok 0 (by omega)) herr
    exact ⟨_, [_, _], _, _, hrun, (List.append_assoc s.trace [_, _] [_]).symm, rfl, by simpa using hhold⟩

/-- A pulse delivered goes through, two answers used (41_protocol R120). -/
theorem runLines_pulse_ok {n : Byte} {rs nsel : Bool} {ls : List Line} (hl : actsOf ls = pulseActs n rs nsel) {s : State}
    (hok : s.answersOk 2) :
    ∃ u, runLines ls s = .ok u ∧ u.trace = s.trace ++ pulseEvents s.cfg.addr (compose (s.blc &&& 0x08) n rs) ∧
      u.answers = s.answers.drop 2 ∧ u.draws = s.draws + 2 := by
  obtain ⟨q, hq⟩ := sends_pulse s.cfg.addr (s.blc &&& 0x08) n rs nsel (backlight_idem _) ls s hl rfl rfl hok
  exact ⟨_, hq, rfl, rfl, rfl⟩

/-- A pulse in front: it stops at one of its own writes, or is delivered and the failure comes later. -/
theorem StopsAtFailure.afterPulse {us m : Nat} {as : List Act} (h : StopsAtFailure us m as) (hhold : us ≠ 1)
    (hsettle : us ≠ 50) (n : Byte) (rs nsel : Bool) : StopsAtFailure us (2 + m) (pulseActs n rs nsel ++ as) := by
  intro ls s k c hl hk hok herr
  by_cases hfirst : k < 2
  · exact (stopsAtFailure_pulse us hhold n rs nsel).append as ls s k c hl hfirst hok herr
  · obtain ⟨j, rfl⟩ := Nat.exists_eq_add_of_le (Nat.not_lt.1 hfirst)
    obtain ⟨xs, ys, rfl, hxs, hys⟩ := List.map_eq_append_iff.1 hl
    obtain ⟨s', hpulse, hsent, hanswers, hdraws⟩ := runLines_pulse_ok hxs (answersOk_mono hok (by omega))
    obtain ⟨u, es, a, v, hrun, htrace, hwrites, hdelay⟩ := h ys s' j c hys (by omega) (answersOk_drop hanswers hdraws hok)
      ((answerAt_drop hanswers hdraws j).trans herr)
    refine ⟨u, pulseEvents s.cfg.addr (compose (s.blc &&& 0x08) n rs) ++ es, a, v, by rw [runLines_append, hpulse]; exact hrun,
      ?_, ?_, ?_⟩
    · rw [htrace, hsent, List.append_assoc s.trace]
    · exact List.countP_append.trans (congrArg (2 + ·) hwrites)
    · simpa [pulseEvents, hhold, hsettle] using hdelay

/-- CLEAR stops before its 2 ms, whichever of the command's four writes fails (42_command R143). -/
theorem stopsAtFailure_clear : StopsAtFailure 2000 4 (actsOf clearBody) :=
  (((stopsAtFailure_nil 2000).afterPulse (by decide) (by decide) _ false true).afterPulse (by decide) (by decide) _ false
    false).append [.delay 2000]

/-- Settles O23: CLEAR's body stops at the failing write, and the end of the operation adds no event. -/
theorem clearFailureDoesNotWait : Obligations.ClearFailureDoesNotWait := by
  intro s k c hinst hk hok herr
  obtain ⟨u, es, a, v, hrun, hes⟩ := stopsAtFailure_clear clearBody (s.load clearBody) k c rfl hk hok herr
  obtain ⟨htrace, hwrites, hdelay⟩ := hes
  exact ⟨u.ended (resBusError c), es, a, v, by rw [exec_clear, gated_open hinst rfl, operate, hrun]; rfl, htrace, hwrites,
    hdelay, rfl⟩

end Sys2Proof.Machine

/-! The text API (43_text_api): INIT (R160, R161), SETCUR (R163 to R165), PRINT (R166 to R168) and DISPTEXT (R169, R170). -/

namespace Sys2Proof.Machine

/-! ### Runs up to the end of the operation -/

/-- The end of a run does not see what it overwrites itself. -/
theorem concludeRun_congr (ls : List Line) {s s' : State} (h : s.ended resOk = s'.ended resOk) :
    concludeRun (runLines ls s) = concludeRun (runLines ls s') := by
  rw [← concludeRun_forget, runLines_forget ls h, concludeRun_forget]

/-- Past a line that goes well, wherever the sequencer stands. -/
theorem concludeRun_cons_ok {l : Line} {ls : List Line} {s s' : State}
    (h : ∃ u, perform l.act (s.atLine l) = .ok u ∧ u.ended resOk = s'.ended resOk) :
    concludeRun (runLines (l :: ls) s) = concludeRun (runLines ls s') := by
  obtain ⟨u, hu, hs⟩ := h
  rw [runLines_cons_ok hu, concludeRun_congr ls hs]

/-- Past lines whose writes are all delivered. -/
theorem concludeRun_append_sends {a : DevAddr} {bl : Byte} {xs : List Line} {n : Nat} {es : List Event} {v : Byte}
    {ns : List (Bool × Nibble)} (h : Sends a bl (actsOf xs) n es v ns) (ys : List Line) {s : State} (ha : s.cfg.addr = a)
    (hb : s.blc &&& 0x08 = bl) (hok : s.answersOk n) :
    concludeRun (runLines (xs ++ ys) s) = concludeRun (runLines ys (s.sent n es v ns)) := by
  obtain ⟨q, hq⟩ := h xs s rfl ha hb hok
  rw [runLines_append, hq]
  exact concludeRun_congr ys (atSeq_ended _ _ _)

/-- Loading a body shows in nothing that the operation's end leaves. -/
theorem operate_eq (ls : List Line) (s : State) : operate ls s = concludeRun (runLines ls s) :=
  concludeRun_congr ls rfl

/-! ### INIT -/

/-- CFG and BLC as INIT stores them (43_text_api R160 steps 1 and 2). -/
def State.initStored (s : State) (cols rows : Byte) (addr : DevAddr) (blon : Bool) : State :=
  { s with
    cfg := { addr := addr, cols := cols, rows := rows, blon := blon, bus := s.opBusCfg }
    blc := if blon then 0x08 else 0x00 }

/-- INIT from its backlight write on (43_text_api R160 steps 4 and 5). -/
abbrev initTail : List Line := line 4 .writeBacklight :: callAt 5 inithwBody

/-- INIT stores CFG and BLC, whatever the transport answers; step 3 is its first bus event. -/
theorem exec_init_stored (cols rows : Byte) (addr : DevAddr) (blon : Bool) (s : State) :
    exec (.init cols rows addr blon) s =
      .next (concludeRun (runLines (line 3 .configureBus :: initTail) (s.initStored cols rows addr blon))) := by
  have hstored : (s.setCfg { addr := addr, cols := cols, rows := rows, blon := blon, bus := s.opBusCfg }).setBacklight blon =
      s.initStored cols rows addr blon := by
    rw [State.setBacklight, backlightByte_eq]
    rfl
  rw [exec_init, operate_eq, initBody, List.cons_append, List.cons_append, runLines_cons_ok rfl, ← hstored]
  exact congrArg _ (concludeRun_cons_ok ⟨_, rfl, rfl⟩)

/-- A bus already configured is left alone (43_text_api R161 (c)). -/
theorem concludeRun_configureBus_installed {n : Nat} {ls : List Line} {s : State} (h : s.busInstalled = true) :
    concludeRun (runLines (line n .configureBus :: ls) s) = concludeRun (runLines ls s) :=
  concludeRun_cons_ok ⟨_, if_pos h, rfl⟩

section
variable {n : Nat} {s : State} (hinst : s.busInstalled = false)
include hinst

theorem perform_configureBus :
    perform .configureBus (s.atLine (line n .configureBus)) = busConfigure (s.atLine (line n .configureBus)) :=
  if_neg (by simp [hinst])

/-- A configuration answered `ok` sets BUS_INSTALLED (43_text_api R160 step 3). -/
theorem concludeRun_configureBus_ok {ls : List Line} (h : s.answerAt 0 = .ok) :
    concludeRun (runLines (line n .configureBus :: ls) s) =
      concludeRun (runLines ls (s.after 1 [.cfg s.cfg.bus .ok]).setInstalled) := by
  refine concludeRun_cons_ok ⟨_, (perform_configureBus hinst).trans (busConfigure_ok h), ?_⟩
  rw [useAnswer_emit]
  rfl

/-- A failing configuration ends the operation (43_text_api R161 (b)). -/
theorem concludeRun_configureBus_err {ls : List Line} {c : Byte} (h : s.answerAt 0 = .err c) :
    concludeRun (runLines (line n .configureBus :: ls) s) =
      (s.after 1 [.cfg s.cfg.bus (.err c)]).ended (resBusError c) := by
  rw [runLines_cons_err ((perform_configureBus hinst).trans (busConfigure_err h)), useAnswer_emit]
  rfl

end

/-- INIT's last steps, every write delivered: the backlight byte to CFG.ADDR, the bring-up, `OK`. -/
theorem concludeRun_initTail {blon : Bool} {s : State} (hblc : s.blc = if blon then 0x08 else 0x00) (hok : s.answersOk 29) :
    concludeRun (runLines initTail s) = State.ended
      { (s.after 29 (.w s.cfg.addr (if blon then 0x08 else 0x00) .ok ::
            bringUpEvents s.cfg.addr (if blon then 0x08 else 0x00))).pins
          (lowByte (if blon then 0x08 else 0x00) 0x0C false) (lowEdge s.xp ++ bringUpNibbles) with
        eb := lowByte (if blon then 0x08 else 0x00) 0x0C false } resOk := by
  obtain ⟨q, hq⟩ := run_initTail rfl hblc hok
  rw [hq]
  rfl

/-- INIT's last steps leave CFG, BLC and BUS_INSTALLED as they are, whatever the transport answers. -/
theorem concludeRun_initTail_keeps (s : State) :
    (concludeRun (runLines initTail s)).cfg = s.cfg ∧ (concludeRun (runLines initTail s)).blc = s.blc ∧
      (concludeRun (runLines initTail s)).busInstalled = s.busInstalled := by
  obtain ⟨r, hr⟩ := concludeRun_eq (runLines initTail s)
  have hframe := runLines_frame initTail s
  rw [hr]
  exact ⟨hframe.cfg rfl, hframe.blc rfl, hframe.installed rfl⟩

/-- Settles O25: the configuration is delivered, then INIT's last steps are. -/
theorem firstInitConfiguresTheBus : Obligations.FirstInitConfiguresTheBus := by
  intro cols rows addr blon s hinst hok
  rw [exec_init_stored, concludeRun_configureBus_ok (s := s.initStored cols rows addr blon) hinst (hok 0 (by omega)),
    concludeRun_initTail rfl (answersOk_drop (s := s) (n := 1) rfl rfl hok)]
  simp [State.initStored, State.setInstalled, State.after, State.pins, State.ended, resOk, causeNone]

/-- Settles O26: the configuration is left out, INIT's last steps are delivered. -/
theorem secondInitDoesNotReconfigure : Obligations.SecondInitDoesNotReconfigure := by
  intro cols rows addr blon s hinst hok
  rw [exec_init_stored, concludeRun_configureBus_installed (s := s.initStored cols rows addr blon) hinst,
    concludeRun_initTail (s := s.initStored cols rows addr blon) rfl hok]
  rfl

/-- Settles O27: the failing configuration is the end. -/
theorem initWithFailedConfiguration : Obligations.InitWithFailedConfiguration := by
  intro cols rows addr blon c s hinst herr
  rw [exec_init_stored, concludeRun_configureBus_err (s := s.initStored cols rows addr blon) hinst herr]
  rfl

/-- Settles O28: CFG and BLC are stored first, BUS_INSTALLED by the configuration, and what follows keeps all three. -/
theorem initKeepsWhatItWrote : Obligations.InitKeepsWhatItWrote := by
  intro cols rows addr blon s
  refine ⟨_, exec_init_stored cols rows addr blon s, ?_⟩
  cases hinst : s.busInstalled with
  | true =>
    rw [concludeRun_configureBus_installed (s := s.initStored cols rows addr blon) hinst]
    obtain ⟨hcfg, hblc, hkeep⟩ := concludeRun_initTail_keeps (s.initStored cols rows addr blon)
    exact ⟨hcfg, hblc, ⟨fun _ => .inl rfl, fun _ => hkeep.trans hinst⟩⟩
  | false =>
    cases ha : s.answerAt 0 with
    | ok =>
      rw [concludeRun_configureBus_ok (s := s.initStored cols rows addr blon) hinst ha]
      obtain ⟨hcfg, hblc, hkeep⟩ := concludeRun_initTail_keeps
        ((s.initStored cols rows addr blon).after 1 [.cfg s.opBusCfg .ok]).setInstalled
      exact ⟨hcfg, hblc, ⟨fun _ => .inr rfl, fun _ => hkeep⟩⟩
    | err c =>
      rw [concludeRun_configureBus_err (s := s.initStored cols rows addr blon) hinst ha]
      exact ⟨rfl, rfl, by simp [State.ended, State.after, State.initStored, hinst]⟩

/-! ### SETCUR -/

/-- The command that SETCUR sends (43_text_api R163). -/
def cursorCommand (cfg : DisplayConfig) (col row : Byte) : Byte :=
  0x80 ||| ((if col.toNat ≥ cfg.cols.toNat then 0 else col) +
    ([0x00, 0x40, 0x14, 0x54] : List Byte).getD (if row.toNat ≥ cfg.rows.toNat then cfg.rows.toNat - 1 else row.toNat) 0)

theorem setcurBody_legal {cfg : DisplayConfig} {row : Byte} (h : rowLegal cfg.rows row) (col : Byte) :
    setcurBody cfg col row = .ok (callAt 4 (cmdBody (cursorCommand cfg col row))) := by
  rw [setcurBody, cursorAddr_legal h]
  rfl

theorem setcurBody_illegal {cfg : DisplayConfig} {row : Byte} (h : ¬ rowLegal cfg.rows row) (col : Byte) :
    setcurBody cfg col row = .error .rowsIllegal := by
  rw [setcurBody, cursorAddr_illegal h]

/-- SETCUR of a legal row, every write delivered: one command. -/
theorem exec_setcur_sends {row : Byte} {s : State} (hinst : s.busInstalled = true) (hrow : rowLegal s.cfg.rows row)
    (hok : s.answersOk 4) (col : Byte) :
    exec (.setcur col row) s = .next ((s.sent 4
      (byteEvents s.cfg.addr (s.blc &&& 0x08) (cursorCommand s.cfg col row) false)
      (lowByte (s.blc &&& 0x08) (cursorCommand s.cfg col row) false)
      (byteNibbles (cursorCommand s.cfg col row) false)).ended resOk) := by
  have hsends := sends_cmd s.cfg.addr (s.blc &&& 0x08) (cursorCommand s.cfg col row) (backlight_idem _)
  rw [← actsOf_callAt 4] at hsends
  rw [exec_setcur, gated_open hinst (setcurBody_legal hrow col), operate_sends hsends rfl rfl hok]

/-- Settles O29, by the command sent. -/
theorem setcurSendsTheCursorAddress : Obligations.SetcurSendsTheCursorAddress := by
  intro col row cmd s hinst hrow hok hcmd
  obtain rfl : cmd = cursorCommand s.cfg col row := hcmd
  exact exec_setcur_sends hinst hrow hok col

/-- SETCUR depends on its operands through the cursor address alone. -/
theorem exec_setcur_congr {col col' row row' : Byte} {s : State} (h : cursorAddr s.cfg col row = cursorAddr s.cfg col' row') :
    exec (.setcur col row) s = exec (.setcur col' row') s := by
  simp only [exec_setcur, gated, setcurBody, h]

/-- The last row is where the rows from ROWS on clamp to (43_text_api R163 step 1). -/
theorem clampRow_last {rows row : RowCount} (hrows : 1 ≤ rows.toNat) (hrow : row.toNat ≥ rows.toNat) :
    clampRow rows row = clampRow rows (rows - 1) := by
  have hne : rows ≠ 0 := by rintro rfl; simp at hrows
  have hlast : (rows - 1).toNat = rows.toNat - 1 := BitVec.toNat_sub_of_le hrows
  rw [clampRow, clampRow, if_pos hrow, if_neg hne, if_neg (by omega)]

theorem cursorAddr_last {cfg : DisplayConfig} {row : Byte} (hrows : 1 ≤ cfg.rows.toNat) (hrow : row.toNat ≥ cfg.rows.toNat)
    (col : Byte) : cursorAddr cfg col row = cursorAddr cfg col (cfg.rows - 1) := by
  rw [cursorAddr, cursorAddr, clampRow_last hrows hrow]

/-- A column from COLS on is column 0 (43_text_api R163 step 2). -/
theorem cursorAddr_columnZero {cfg : DisplayConfig} {col : Byte} (hcol : col.toNat ≥ cfg.cols.toNat) (row : Byte) :
    cursorAddr cfg col row = cursorAddr cfg 0 row := by
  rw [cursorAddr, cursorAddr, clampCol, clampCol, if_pos hcol, ite_self]

theorem rowLegal_of_clamped {rows row : Byte} (h1 : 1 ≤ rows.toNat) (h4 : rows.toNat ≤ 4) (hrow : row.toNat ≥ rows.toNat) :
    rowLegal rows row := by
  refine ⟨by rintro rfl; simp at h1, ?_⟩
  rw [if_pos hrow]
  omega

theorem rowLegal_of_inRange {rows row : Byte} (hrow : row.toNat < rows.toNat) (h3 : row.toNat ≤ 3) : rowLegal rows row := by
  refine ⟨by rintro rfl; simp at hrow, ?_⟩
  rwa [if_neg (Nat.not_le.2 hrow)]

/-- Column 0 of a row in range is at the row's base (43_text_api R164). -/
theorem cursorCommand_columnZero {cfg : DisplayConfig} {row base : Byte} (hrow : row.toNat < cfg.rows.toNat)
    (hbase : ([0x00, 0x40, 0x14, 0x54] : List Byte)[row.toNat]? = some base) : cursorCommand cfg 0 row = 0x80 ||| base := by
  rw [cursorCommand, ite_self, if_neg (Nat.not_le.2 hrow), List.getD_eq_getElem?_getD, hbase]
  exact congrArg _ (BitVec.zero_add base)

/-- Settles O30: a clamped operand has the cursor address of the one it clamps to, and a legal row's command is delivered. -/
theorem setcurClampsRowToLastAndColumnToZero : Obligations.SetcurClampsRowToLastAndColumnToZero := by
  intro s hinst hok
  refine ⟨fun row base hrow hbase => ?_,
    fun col row hrow h1 h4 => ⟨exec_setcur_congr (cursorAddr_last h1 hrow col), ?_⟩,
    fun col row hcol hrow => ⟨exec_setcur_congr (cursorAddr_columnZero hcol row), ?_⟩⟩
  · obtain ⟨hlt, -⟩ := List.getElem?_eq_some_iff.1 hbase
    have hlegal : rowLegal s.cfg.rows row := rowLegal_of_inRange hrow (Nat.le_of_lt_succ hlt)
    refine ⟨_, exec_setcur_sends hinst hlegal hok 0, rfl, ?_⟩
    rw [cursorCommand_columnZero hrow hbase]
    rfl
  · exact ⟨_, exec_setcur_sends hinst (rowLegal_of_clamped h1 h4 hrow) hok col, rfl⟩
  · exact ⟨_, exec_setcur_sends hinst hrow hok col, rfl⟩

/-- Settles O31: a legal row has a body, an illegal one none. -/
theorem setcurRefusesIllegalRows : Obligations.SetcurRefusesIllegalRows := by
  intro col row s hinst
  refine ⟨fun hrefused hrow => ?_, fun hrow => ?_⟩
  · rw [exec_setcur, gated_open hinst (setcurBody_legal hrow col)] at hrefused
    exact nomatch hrefused
  · rw [exec_setcur]
    exact gated_refused hinst (setcurBody_illegal hrow col)

/-! ### PRINT -/

/-- Settles O33: the null test is the first action, and the last. -/
theorem printNullIsInvalid : Obligations.PrintNullIsInvalid := by
  intro s hinst
  rw [exec_print, gated_open hinst (printBody_null s.text s.host), operate, runLines_cons_err rfl]
  rfl

theorem concludeRun_testNull {p : TextAddr} (hp : p ≠ 0) (n : Nat) (ls : List Line) (s : State) :
    concludeRun (runLines (line n (.testNull p) :: ls) s) = concludeRun (runLines ls s) := by
  have hnull : perform (.testNull p) (s.atLine (line n (.testNull p))) = .ok (s.atLine (line n (.testNull p))) := if_neg hp
  exact concludeRun_cons_ok ⟨_, hnull, rfl⟩

/-- PRINT's first two steps on a pointer that is not null (43_text_api R166 steps 1 and 2). -/
theorem concludeRun_setPointer {p : TextAddr} (hp : p ≠ 0) (n m : Nat) (ls : List Line) (s : State) :
    concludeRun (runLines (line n (.testNull p) :: line m (.setPointer p) :: ls) s) =
      concludeRun (runLines ls (s.setTp p)) :=
  (concludeRun_testNull hp n _ s).trans (concludeRun_cons_ok ⟨_, rfl, rfl⟩)

/-- PRINT's loop over a string, every write delivered, up to the end of the operation. -/
theorem concludeRun_printLoop {cs : List Byte} {ls : List Line} (hl : actsOf ls = actsOf (printLoop cs)) {s : State}
    (hs : readsString s.text s.host s.tp cs) (hok : s.answersOk (4 * cs.length)) :
    concludeRun (runLines ls s) = (s.printed s.tp cs).ended resOk := by
  obtain ⟨q, hq⟩ := run_printLoop cs ls s s.tp hl rfl hs hok
  rw [hq]
  rfl

/-- PRINT behind the open gate is its loop from the pointer on. -/
theorem exec_print_open {p : TextAddr} {cs : List Byte} {s : State} (hinst : s.busInstalled = true) (hp : p ≠ 0)
    (hs : readsString s.text s.host p cs) :
    exec (.print p) s = .next (concludeRun (runLines (printLoop cs) (s.setTp p))) := by
  rw [exec_print, gated_open hinst (printBody_string hp hs), operate_eq, concludeRun_setPointer hp]

/-- Settles O32, by PRINT's loop over the string. -/
theorem printSendsTheString : Obligations.PrintSendsTheString := by
  intro p cs s hinst hp hs hok
  rw [exec_print_open hinst hp hs, concludeRun_printLoop (s := s.setTp p) rfl hs hok]
  rfl

theorem concludeRun_readText (n : Nat) (ls : List Line) (s : State) :
    concludeRun (runLines (line n .readText :: ls) s) = concludeRun (runLines ls (textRead s)) :=
  concludeRun_cons_ok ⟨_, rfl, rfl⟩

/-- TP moved on (43_text_api R166 step 3d). -/
def State.nextChar (s : State) : State := s.setTp (s.tp + 1)

theorem concludeRun_nextChar (n : Nat) (ls : List Line) (s : State) :
    concludeRun (runLines (line n .nextChar :: ls) s) = concludeRun (runLines ls s.nextChar) :=
  concludeRun_cons_ok ⟨_, rfl, rfl⟩

/-- The state after one turn of PRINT's loop with the character `c`, all delivered (43_text_api R166 steps 3a to 3d). -/
def State.sentChar (s : State) (c : Byte) : State :=
  ((textRead s).sent 4 (byteEvents s.cfg.addr (s.blc &&& 0x08) c true) (lowByte (s.blc &&& 0x08) c true)
    (byteNibbles c true)).nextChar

/-- One turn of PRINT's loop, all delivered. -/
theorem concludeRun_printLoop_cons (c : Byte) (cs : List Byte) {s : State} (hok : s.answersOk 4) :
    concludeRun (runLines (printLoop (c :: cs)) s) = concludeRun (runLines (printLoop cs) (s.sentChar c)) := by
  have hsends := sends_data s.cfg.addr (s.blc &&& 0x08) c (backlight_idem _)
  rw [← actsOf_callAt 3] at hsends
  rw [printLoop, List.cons_append, concludeRun_readText,
    concludeRun_append_sends hsends _ (s := textRead s) rfl rfl ((answersOk_congr rfl rfl).2 hok), concludeRun_nextChar,
    State.sentChar]

/-- The nibbles of a byte, as the data pins present them (30_encoding R83). -/
theorem hiNibble_extract : ∀ v : Byte, (hiNibble v).extractLsb' 4 4 = v.extractLsb' 4 4 := by decide
theorem loNibble_extract : ∀ v : Byte, (loNibble v).extractLsb' 4 4 = v.extractLsb' 0 4 := by decide

/-- What is left to send of a character once its high nibble is out: the low nibble, the pointer's move, the rest of the string. -/
abbrev lowNibbleOn (c : Byte) (cs : List Byte) : List Line :=
  callAt 3 (callAt 1 (callAt 2 (wrnibBody (loNibble c) true true))) ++ line 3 .nextChar :: printLoop cs

/-- The state in a turn of PRINT's loop once the high nibble of `c` is delivered. -/
def State.sentHighNibble (s : State) (c : Byte) : State :=
  (textRead s).sent 2 (pulseEvents s.cfg.addr (highByte (s.blc &&& 0x08) c true)) (highByte (s.blc &&& 0x08) c true)
    [(true, c.extractLsb' 4 4)]

theorem concludeRun_printLoop_highNibble (c : Byte) (cs : List Byte) {s : State} (hok : s.answersOk 2) :
    concludeRun (runLines (printLoop (c :: cs)) s) = concludeRun (runLines (lowNibbleOn c cs) (s.sentHighNibble c)) := by
  have hsends := sends_pulse s.cfg.addr (s.blc &&& 0x08) (hiNibble c) true false (backlight_idem _)
  rw [compose_hiNibble, hiNibble_extract] at hsends
  rw [printLoop, List.cons_append, concludeRun_readText]
  exact concludeRun_append_sends (xs := callAt 3 (callAt 1 (callAt 1 (wrnibBody (hiNibble c) true false)))) hsends
    (lowNibbleOn c cs) (s := textRead s) rfl rfl hok

section
variable (s : State) (c : Byte)

@[simp] theorem textRead_cfg : (textRead s).cfg = s.cfg := rfl
@[simp] theorem textRead_blc : (textRead s).blc = s.blc := rfl
@[simp] theorem textRead_tp : (textRead s).tp = s.tp := rfl
@[simp] theorem textRead_text : (textRead s).text = (landChanges s.text s.host).1 := rfl
@[simp] theorem textRead_host : (textRead s).host = (landChanges s.text s.host).2 := rfl
@[simp] theorem textRead_latched : (textRead s).latched = s.latched := rfl
@[simp] theorem textRead_answers : (textRead s).answers = s.answers := rfl
@[simp] theorem textRead_draws : (textRead s).draws = s.draws := rfl

@[simp] theorem sentHighNibble_cfg : (s.sentHighNibble c).cfg = s.cfg := textRead_cfg s
@[simp] theorem sentHighNibble_blc : (s.sentHighNibble c).blc = s.blc := textRead_blc s
@[simp] theorem sentHighNibble_latched : (s.sentHighNibble c).latched = s.latched ++ [(true, c.extractLsb' 4 4)] :=
  congrArg (· ++ _) (textRead_latched s)

@[simp] theorem sentHighNibble_answerAt (k : Nat) : (s.sentHighNibble c).answerAt k = s.answerAt (2 + k) :=
  answerAt_drop (congrArg (List.drop 2) (textRead_answers s)) (congrArg (· + 2) (textRead_draws s)) k

@[simp] theorem sentChar_cfg : (s.sentChar c).cfg = s.cfg := textRead_cfg s
@[simp] theorem sentChar_blc : (s.sentChar c).blc = s.blc := textRead_blc s
@[simp] theorem sentChar_tp : (s.sentChar c).tp = s.tp + 1 := congrArg (· + 1) (textRead_tp s)
@[simp] theorem sentChar_text : (s.sentChar c).text = (landChanges s.text s.host).1 := textRead_text s
@[simp] theorem sentChar_host : (s.sentChar c).host = (landChanges s.text s.host).2 := textRead_host s
@[simp] theorem sentChar_latched : (s.sentChar c).latched = s.latched ++ byteNibbles c true :=
  congrArg (· ++ _) (textRead_latched s)
@[simp] theorem sentChar_answerAt (k : Nat) : (s.sentChar c).answerAt k = s.answerAt (4 + k) :=
  answerAt_drop (congrArg (List.drop 4) (textRead_answers s)) (congrArg (· + 4) (textRead_draws s)) k

end

section
variable {s : State} {c : Byte} {cs : List Byte} (hs : readsString s.text s.host s.tp (c :: cs))
include hs

/-- The string's first character is what the read of it records (20_memory R64). -/
theorem textRead_trace : (textRead s).trace = s.trace ++ [.t s.tp c] := by
  obtain ⟨hread, -, -⟩ := readsString_tail hs
  show s.trace ++ [.t s.tp (Memory.read (landChanges s.text s.host).1 s.tp.toNat)] = _
  rw [hread]

theorem sentChar_trace :
    (s.sentChar c).trace = s.trace ++ .t s.tp c :: byteEvents s.cfg.addr (s.blc &&& 0x08) c true := by
  show (textRead s).trace ++ _ = _
  rw [textRead_trace hs, List.append_assoc, List.singleton_append]

theorem sentHighNibble_trace :
    (s.sentHighNibble c).trace =
      s.trace ++ .t s.tp c :: pulseEvents s.cfg.addr (highByte (s.blc &&& 0x08) c true) := by
  show (textRead s).trace ++ _ = _
  rw [textRead_trace hs, List.append_assoc, List.singleton_append]

/-- After a turn of PRINT's loop the rest of the string is read. -/
theorem readsString_sentChar : readsString (s.sentChar c).text (s.sentChar c).host (s.sentChar c).tp cs := by
  obtain ⟨-, -, htail⟩ := readsString_tail hs
  rw [sentChar_text, sentChar_host, sentChar_tp]
  exact htail

end

/-- The EN-high write of a character's low nibble fails: it is the last event, and nothing is latched (41_protocol R121). -/
theorem concludeRun_lowNibble_high_err (c : Byte) (cs : List Byte) {s : State} {e : Byte} (herr : s.answerAt 0 = .err e) :
    (concludeRun (runLines (lowNibbleOn c cs) s)).result = resBusError e ∧
      (concludeRun (runLines (lowNibbleOn c cs) s)).trace =
        s.trace ++ [.w s.cfg.addr (lowByte (s.blc &&& 0x08) c true ||| 0x04) (.err e)] ∧
      (concludeRun (runLines (lowNibbleOn c cs) s)).latched = s.latched := by
  obtain ⟨x, q, -, hrun⟩ := runLines_pulse_high_err (ls := lowNibbleOn c cs) rfl herr
  rw [hrun, ← compose_loNibble]
  exact ⟨rfl, rfl, List.append_nil _⟩

/-- The EN-low write of a character's low nibble fails: the nibble is latched where the byte arrived after all (41_protocol
R121). -/
theorem concludeRun_lowNibble_low_err (c : Byte) (cs : List Byte) {s : State} {e : Byte} (hok : s.answerAt 0 = .ok)
    (herr : s.answerAt 1 = .err e) :
    (concludeRun (runLines (lowNibbleOn c cs) s)).result = resBusError e ∧
      (concludeRun (runLines (lowNibbleOn c cs) s)).trace =
        s.trace ++ [.w s.cfg.addr (lowByte (s.blc &&& 0x08) c true ||| 0x04) .ok, .d 1,
          .w s.cfg.addr (lowByte (s.blc &&& 0x08) c true) (.err e)] ∧
      ((concludeRun (runLines (lowNibbleOn c cs) s)).latched = s.latched ∨
        (concludeRun (runLines (lowNibbleOn c cs) s)).latched = s.latched ++ [(true, c.extractLsb' 0 4)]) := by
  obtain ⟨x, ns, q, hpins, hrun⟩ := runLines_pulse_low_err (ls := lowNibbleOn c cs) rfl hok herr
  rw [loNibble_extract] at hpins
  rw [hrun, ← compose_loNibble]
  refine ⟨rfl, rfl, ?_⟩
  rcases hpins with ⟨-, rfl⟩ | ⟨-, rfl⟩
  · exact .inl (List.append_nil _)
  · exact .inr rfl

/-- PRINT of three characters and more, two of them and the high nibble of the third delivered. -/
theorem exec_print_third {p : TextAddr} {c1 c2 c3 : Byte} {cs : List Byte} {s : State} (hinst : s.busInstalled = true)
    (hp : p ≠ 0) (hs : readsString s.text s.host p (c1 :: c2 :: c3 :: cs)) (hok : s.answersOk 10) :
    ∃ u : State, exec (.print p) s = .next (concludeRun (runLines (lowNibbleOn c3 cs) u)) ∧
      u.trace = s.trace ++ (.t p c1 :: byteEvents s.cfg.addr (s.blc &&& 0x08) c1 true)
        ++ (.t (p + 1) c2 :: byteEvents s.cfg.addr (s.blc &&& 0x08) c2 true)
        ++ (.t (p + 2) c3 :: pulseEvents s.cfg.addr (highByte (s.blc &&& 0x08) c3 true)) ∧
      u.latched = s.latched ++ byteNibbles c1 true ++ byteNibbles c2 true ++ [(true, c3.extractLsb' 4 4)] ∧
      u.cfg = s.cfg ∧ u.blc = s.blc ∧ ∀ k, u.answerAt k = s.answerAt (10 + k) := by
  have hs1 : readsString (s.setTp p).text (s.setTp p).host (s.setTp p).tp (c1 :: c2 :: c3 :: cs) := hs
  have hs2 := readsString_sentChar hs1
  have hs3 := readsString_sentChar hs2
  have hanswer1 (k : Nat) : ((s.setTp p).sentChar c1).answerAt k = s.answerAt (4 + k) := sentChar_answerAt _ c1 k
  have hanswer2 (k : Nat) : (((s.setTp p).sentChar c1).sentChar c2).answerAt k = s.answerAt (8 + k) := by
    rw [sentChar_answerAt, hanswer1, ← Nat.add_assoc]
  refine ⟨(((s.setTp p).sentChar c1).sentChar c2).sentHighNibble c3, ?_, ?_, by simp, by simp, by simp, fun k => ?_⟩
  · rw [exec_print_open hinst hp hs,
      concludeRun_printLoop_cons c1 _ (s := s.setTp p) (answersOk_mono hok (by omega)),
      concludeRun_printLoop_cons c2 _ (fun k hk => (hanswer1 k).trans (hok _ (by omega))),
      concludeRun_printLoop_highNibble c3 cs (fun k hk => (hanswer2 k).trans (hok _ (by omega)))]
  · have hpointer : p + 1 + 1 = p + 2 := BitVec.add_assoc p 1 1
    rw [sentHighNibble_trace hs3, sentChar_trace hs2, sentChar_trace hs1]
    simp only [sentChar_cfg, sentChar_blc, sentChar_tp, setTp_cfg, setTp_blc, setTp_tp, setTp_trace, hpointer]
  · rw [sentHighNibble_answerAt, hanswer2, ← Nat.add_assoc]

/-- Settles O35: two turns of PRINT's loop and a high nibble delivered, and the low nibble cut off. -/
theorem printStopsAtTheFailingLowNibble : Obligations.PrintStopsAtTheFailingLowNibble := by
  intro p c1 c2 c3 cs c s hinst hp hs
  refine ⟨fun hok herr => ?_, fun hok herr => ?_⟩
  · obtain ⟨u, hexec, htrace, hlatched, hcfg, hblc, hanswer⟩ := exec_print_third hinst hp hs hok
    obtain ⟨hres, htr, hlat⟩ := concludeRun_lowNibble_high_err c3 cs ((hanswer 0).trans herr)
    rw [htrace, hcfg, hblc] at htr
    exact ⟨_, hexec, hres, htr, hlat.trans hlatched⟩
  · obtain ⟨u, hexec, htrace, hlatched, hcfg, hblc, hanswer⟩ :=
      exec_print_third hinst hp hs (answersOk_mono hok (by omega))
    obtain ⟨hres, htr, hlat⟩ := concludeRun_lowNibble_low_err c3 cs ((hanswer 0).trans (hok 10 (by omega)))
      ((hanswer 1).trans herr)
    rw [htrace, hcfg, hblc] at htr
    rw [hlatched, List.append_assoc _ _ [(true, c3.extractLsb' 0 4)]] at hlat
    exact ⟨_, hexec, hres, htr, hlat⟩

/-! ### DISPTEXT -/

/-- Settles O38: DISPTEXT has no body where its SETCUR(0, 0) has none. -/
theorem disptextRefusesNoRows : Obligations.DisptextRefusesNoRows := by
  intro p s hinst hrows
  have hrow : ¬ rowLegal s.cfg.rows 0 := fun ⟨hne, _⟩ => hne hrows
  rw [exec_disptext]
  exact gated_refused hinst (by rw [disptextBody, setcurBody_illegal hrow])

/-- The state after DISPTEXT's CLEAR and cursor home, every write delivered (43_text_api R169 steps 1 and 2). -/
def State.clearedHome (s : State) : State :=
  s.sent 8 (clearEvents s.cfg.addr (s.blc &&& 0x08) ++ byteEvents s.cfg.addr (s.blc &&& 0x08) 0x80 false)
    (lowByte (s.blc &&& 0x08) 0x80 false) (byteNibbles 0x01 false ++ byteNibbles 0x80 false)

/-- DISPTEXT behind the open gate, its first eight writes delivered, goes on with PRINT's body. -/
theorem exec_disptext_open {p : TextAddr} {pr : List Line} {s : State} (hinst : s.busInstalled = true)
    (hrows : s.cfg.rows ≠ 0) (hpr : printBody s.text s.host p = .ok pr) (hok : s.answersOk 8) :
    exec (.disptext p) s = .next (concludeRun (runLines (callAt 3 pr) s.clearedHome)) := by
  have hbody : disptextBody s.cfg s.text s.host p =
      .ok (callAt 1 clearBody ++ callAt 2 (callAt 4 (cmdBody 0x80)) ++ callAt 3 pr) := by
    rw [disptextBody, setcurBody_home hrows, hpr]
  rw [exec_disptext, gated_open hinst hbody, operate_eq,
    concludeRun_append_sends (sends_clearHome s.cfg.addr (s.blc &&& 0x08) (backlight_idem _)) _ rfl rfl hok]
  rfl

/-- Settles O36: CLEAR and the cursor command, then PRINT's loop over the string. -/
theorem disptextClearsHomesAndPrints : Obligations.DisptextClearsHomesAndPrints := by
  intro p cs s hinst hrows hp hs hok
  rw [exec_disptext_open hinst hrows (printBody_string hp hs) (answersOk_mono hok (by omega))]
  have hprint : concludeRun (runLines (callAt 3 (line 1 (.testNull p) :: line 2 (.setPointer p) :: printLoop cs))
      s.clearedHome) = ((s.clearedHome.setTp p).printed p cs).ended resOk :=
    (concludeRun_setPointer hp 3 3 (callAt 3 (printLoop cs)) s.clearedHome).trans
      (concludeRun_printLoop (s := s.clearedHome.setTp p) (actsOf_callAt 3 _) hs
        (answersOk_drop (s := s) (n := 8) rfl rfl hok))
  rw [hprint]
  simp [State.clearedHome, State.sent, State.printed, State.after, State.pins, State.ended, State.setTp, resOk, causeNone,
    Nat.add_assoc]

/-- Settles O37: the null test comes after CLEAR and the cursor command. -/
theorem disptextNullClearsFirst : Obligations.DisptextNullClearsFirst := by
  intro s hinst hrows hok
  rw [exec_disptext_open hinst hrows (printBody_null s.text s.host) hok]
  rfl

end Sys2Proof.Machine

/-! The ends of operations (60_exceptions): the not-ready gate (R194, R201), the one failing event of an operation and its result
(R191, R202), an aborted operation next to the same one delivered (R196), and the engine that is sent no word (R195). -/

namespace Sys2Proof.Machine

/-! ### No operation at all -/

/-- Settles O14: with no act of the host's there is nothing to take up. -/
theorem idleEngineDoesNothing : Obligations.IdleEngineDoesNothing := by
  intro s hbusy hhost
  rw [step_of_idle hbusy, idleStep, hhost]
  rfl

/-! ### The gate -/

/-- Settles O9: the gate is closed to every operation that is no INIT. -/
theorem gateAnswersNotReady : Obligations.GateAnswersNotReady := by
  intro i s hinit hinst
  rw [exec_eq_gated hinit]
  exact gated_closed hinst

/-! ### The failing event and the result -/

/-- What the events of an operation say of its result (60_exceptions R191, R202): none but the last fails, a failing one gives
its cause to the result, and a bus error comes from the last. -/
def FailureIsResult (es : List Event) (r : Result) : Prop :=
  (∀ e ∈ es.dropLast, e.failCause = none) ∧ (∀ e ∈ es, ∀ c, e.failCause = some c → r = resBusError c) ∧
    (r.kind = .busError → ∃ e, es.getLast? = some e ∧ e.failCause = some r.cause)

/-- Where no event fails, every result but a bus error will do. -/
theorem failureIsResult_of_none {es : List Event} {r : Result} (hes : ∀ e ∈ es, e.failCause = none)
    (hr : r.kind ≠ .busError) : FailureIsResult es r :=
  ⟨fun e he => hes e (List.mem_of_mem_dropLast he), fun e he _ hc => (nomatch (hes e he).symm.trans hc),
    fun h => absurd h hr⟩

/-- Where the last event alone fails, its cause is the result's. -/
theorem failureIsResult_of_last {es : List Event} {e : Event} {c : Cause} (hes : ∀ e ∈ es, e.failCause = none)
    (he : e.failCause = some c) : FailureIsResult (es ++ [e]) (resBusError c) := by
  refine ⟨by rwa [List.dropLast_concat], fun e' he' c' hc' => ?_, fun _ => ⟨e, List.getLast?_concat, he⟩⟩
  rcases List.mem_append.1 he' with hmem | hmem
  · exact nomatch (hes e' hmem).symm.trans hc'
  · obtain rfl := List.mem_singleton.1 hmem
    obtain rfl := Option.some.inj (he.symm.trans hc')
    rfl

/-- A body's run ends with what its events say. -/
theorem operate_failureIsResult (ls : List Line) (s : State) :
    ∃ es, (operate ls s).trace = s.trace ++ es ∧ FailureIsResult es (operate ls s).result := by
  rw [operate]
  rcases runLines_cases ls (s.load ls) with ⟨u, es, h, ht, hes⟩ | ⟨u, es, e, c, h, ht, he, hes⟩ | ⟨u, es, h, ht, hes⟩ <;> rw [h]
  · exact ⟨es, ht, failureIsResult_of_none hes nofun⟩
  · exact ⟨es ++ [e], ht.trans (List.append_assoc ..), failureIsResult_of_last hes he⟩
  · exact ⟨es, ht, failureIsResult_of_none hes nofun⟩

/-- Settles O45: the gate has no event, and a body's run ends with what its events say. -/
theorem theFirstFailureEndsTheOperation : Obligations.TheFirstFailureEndsTheOperation := by
  intro i s t h
  rcases exec_next_cases h with ⟨hinit, hinst, rfl⟩ | ⟨-, ls, -, rfl⟩
  · exact ⟨[], (List.append_nil _).symm, nofun, nofun, fun _ => .inl ⟨rfl, hinst, hinit, rfl⟩⟩
  · obtain ⟨es, ht, hinner, hresult, hlast⟩ := operate_failureIsResult ls s
    exact ⟨es, ht, hinner, hresult, fun hk => .inr (hlast hk)⟩

/-! ### The same operation under two transports -/

/-- The two states differ in what the transport decides only: its answers, the pins and the nibbles latched. -/
def SameEngine (s s' : State) : Prop :=
  ∃ as n x ns, s' = { s with answers := as, draws := n, xp := x, latched := ns }

/-- The sequencer moves alike. -/
theorem SameEngine.atLine {s s' : State} (h : SameEngine s s') (l : Line) : SameEngine (s.atLine l) (s'.atLine l) := by
  obtain ⟨as, n, x, ns, rfl⟩ := h
  exact ⟨as, n, x, ns, rfl⟩

/-- How two runs of the same actions under two transports end, from engines alike with the trace `tr`: alike again; the second in
a bus error; the first at a null test; or the first in a bus error, its trace a prefix of the second's up to the failing event. -/
inductive PartsFrom (tr : List Event) : ActEnd → ActEnd → Prop
  | alike {u u' : State} (h : SameEngine u u') : PartsFrom tr (.ok u) (.ok u')
  | otherFails (f : ActEnd) (c : Cause) (u' : State) : PartsFrom tr f (.err (resBusError c) u')
  | nullTest (u : State) (f' : ActEnd) : PartsFrom tr (.err resInvalidArgument u) f'
  | aborts {u : State} {f' : ActEnd} {c : Cause} {pre rest : List Event} {e : Event} (htrace : u.trace = tr ++ pre ++ [e])
      (hfail : e.failCause = some c) (hother : f'.state.trace = tr ++ pre ++ e.answeredOk :: rest) :
      PartsFrom tr (.err (resBusError c) u) f'

/-- Events that both runs have before they part. -/
theorem PartsFrom.of_append {tr es : List Event} {f f' : ActEnd} (h : PartsFrom (tr ++ es) f f') : PartsFrom tr f f' := by
  cases h with
  | alike h => exact .alike h
  | otherFails f c u' => exact .otherFails f c u'
  | nullTest u f' => exact .nullTest u f'
  | aborts htrace hfail hother =>
    exact .aborts (htrace.trans (by rw [List.append_assoc tr])) hfail (hother.trans (by rw [List.append_assoc tr]))

/-- The phase that a pulse's write goes on to shows in no trace. -/
theorem PartsFrom.setPhase {tr : List Event} {f f' : ActEnd} (p : Phase) (h : PartsFrom tr f f') :
    PartsFrom tr (f.thenDo (State.setPhase · p)) (f'.thenDo (State.setPhase · p)) := by
  cases h with
  | alike h => obtain ⟨as, n, x, ns, rfl⟩ := h; exact .alike ⟨as, n, x, ns, rfl⟩
  | otherFails f c u' => exact .otherFails _ c u'
  | nullTest u f' => exact .nullTest u _
  | aborts htrace hfail hother =>
    refine .aborts htrace hfail (Eq.trans ?_ hother)
    cases f' <;> rfl

/-- Where the first operation ends in a bus error and the second does not, the first was aborted (60_exceptions R196). -/
theorem PartsFrom.concludeRun_prefix {tr : List Event} {f f' : ActEnd} (h : PartsFrom tr f f')
    (hfail : (concludeRun f).result.kind = .busError) (hok : (concludeRun f').result.kind ≠ .busError) :
    ∃ pre e rest, (concludeRun f).trace = tr ++ pre ++ [e] ∧ e.failCause = some (concludeRun f).result.cause ∧
      (concludeRun f').trace = tr ++ pre ++ e.answeredOk :: rest := by
  cases h with
  | alike => cases hfail
  | otherFails => exact absurd rfl hok
  | nullTest => cases hfail
  | aborts htrace hcause hother =>
    obtain ⟨r, hr⟩ := concludeRun_eq f'
    rw [hr]
    exact ⟨_, _, _, htrace, hcause, hother⟩

/-- A bus write under two transports, by their two answers. -/
theorem busWrite_parts (v : Byte) {s s' : State} (h : SameEngine s s') : PartsFrom s.trace (busWrite v s) (busWrite v s') := by
  obtain ⟨as, n, x, ns, rfl⟩ := h
  cases hb : State.answerAt { s with answers := as, draws := n, xp := x, latched := ns } 0 with
  | err c => rw [busWrite_err hb]; exact .otherFails _ c _
  | ok =>
    rw [busWrite_ok hb]
    cases ha : s.answerAt 0 with
    | ok => rw [busWrite_ok ha]; exact .alike ⟨_, _, _, _, rfl⟩
    | err c =>
      have htrace : (busWrite v s).state.trace = s.trace ++ [.w s.cfg.addr v (.err c)] := by rw [busWrite_trace, ha]
      rw [busWrite_err ha] at htrace ⊢
      exact .aborts (pre := []) (rest := []) (htrace.trans (by rw [List.append_nil])) rfl (by rw [List.append_nil]; rfl)

/-- A bus configuration under two transports. -/
theorem busConfigure_parts {s s' : State} (h : SameEngine s s') : PartsFrom s.trace (busConfigure s) (busConfigure s') := by
  obtain ⟨as, n, x, ns, rfl⟩ := h
  cases hb : State.answerAt { s with answers := as, draws := n, xp := x, latched := ns } 0 with
  | err c => rw [busConfigure_err hb]; exact .otherFails _ c _
  | ok =>
    rw [busConfigure_ok hb]
    cases ha : s.answerAt 0 with
    | ok => rw [busConfigure_ok ha]; exact .alike ⟨_, _, _, _, rfl⟩
    | err c =>
      rw [busConfigure_err ha]
      exact .aborts (pre := []) (rest := []) (e := .cfg s.cfg.bus (.err c)) (by rw [List.append_nil]; rfl) rfl
        (by rw [List.append_nil]; rfl)

/-- One action under two transports: only the actions that use the bus look at an answer. -/
theorem perform_parts (a : Act) {s s' : State} (h : SameEngine s s') : PartsFrom s.trace (perform a s) (perform a s') := by
  obtain ⟨as, n, x, ns, rfl⟩ := h
  cases a with
  | configureBus =>
    show PartsFrom s.trace (if s.busInstalled = true then _ else _) (if s.busInstalled = true then _ else _)
    split
    · exact .alike ⟨as, n, x, ns, rfl⟩
    · exact busConfigure_parts ⟨as, n, x, ns, rfl⟩
  | writeBacklight => exact busWrite_parts s.readBlc ⟨as, n, x, ns, rfl⟩
  | enHigh => exact (busWrite_parts (s.eb ||| params.enBit) ⟨as, n, x, ns, rfl⟩).setPhase .hold
  | enLow => exact (busWrite_parts s.eb ⟨as, n, x, ns, rfl⟩).setPhase .settle
  | testNull p =>
    rw [perform, perform]
    split
    · exact .nullTest _ _
    · exact .alike ⟨as, n, x, ns, rfl⟩
  | storeConfig _ _ _ _ | seedBacklight _ | delay _ | startPulse _ _ _ | hold | settle | setPointer _ | readText | nextChar =>
    exact .alike ⟨as, n, x, ns, rfl⟩

/-- A run under two transports: where the first is aborted, what the second still does only adds to its trace. -/
theorem runLines_parts (ls : List Line) {s s' : State} (h : SameEngine s s') :
    PartsFrom s.trace (runLines ls s) (runLines ls s') := by
  induction ls generalizing s s' with
  | nil => exact .alike h
  | cons l ls ih =>
    have hl : PartsFrom s.trace (perform l.act (s.atLine l)) (perform l.act (s'.atLine l)) :=
      perform_parts l.act (h.atLine l)
    cases hp : perform l.act (s.atLine l) with
    | ok u =>
      rw [runLines_cons_ok hp]
      cases hp' : perform l.act (s'.atLine l) with
      | ok u' =>
        rw [runLines_cons_ok hp']
        rw [hp, hp'] at hl
        obtain ⟨es, hes⟩ : ∃ es, u.trace = s.trace ++ es := by
          obtain ⟨es, hes⟩ := runLines_trace [l] s
          exact ⟨es, by rwa [runLines_singleton, hp] at hes⟩
        cases hl with
        | alike hu => exact (hes ▸ ih hu).of_append
      | err r' u' =>
        rw [runLines_cons_err hp']
        rw [hp, hp'] at hl
        cases hl with
        | otherFails _ c _ => exact .otherFails _ c u'
    | err r u =>
      rw [runLines_cons_err hp]
      rw [hp] at hl
      cases hp' : perform l.act (s'.atLine l) with
      | err r' u' =>
        rw [runLines_cons_err hp']
        rwa [hp'] at hl
      | ok u' =>
        rw [runLines_cons_ok hp']
        rw [hp'] at hl
        obtain ⟨es, hes⟩ := runLines_trace ls u'
        cases hl with
        | nullTest => exact .nullTest u _
        | aborts htrace hfail hother =>
          exact .aborts htrace hfail (hes.trans ((congrArg (· ++ es) hother).trans (List.append_assoc ..)))

/-- The body of an operation does not hang on what the transport will answer. -/
theorem bodyOf_withAnswers (i : Instr) (s : State) (as : List BusAnswer) (n : Nat) :
    bodyOf i { s with answers := as, draws := n } = bodyOf i s := by
  cases i <;> rfl

/-- With the gate open, or not asked, an operation is the run of its body. -/
theorem exec_next_open {i : Instr} {s t : State} (hopen : s.busInstalled = true ∨ isInit i = true) (h : exec i s = .next t) :
    ∃ ls, bodyOf i s = .ok ls ∧ t = operate ls s := by
  rcases exec_next_cases h with ⟨hinit, hinst, -⟩ | ⟨-, hrun⟩
  · simp [hinit, hinst] at hopen
  · exact hrun

/-- Settles O46: the two runs have the same body, and part where the first one's last event is answered with the error. -/
theorem abortedTraceIsAPrefix : Obligations.AbortedTraceIsAPrefix := by
  intro i s t u as n hopen ht hfail hu hok
  obtain ⟨ls, hbody, rfl⟩ := exec_next_open hopen ht
  obtain ⟨ls', hbody', rfl⟩ := exec_next_open (s := { s with answers := as, draws := n }) hopen hu
  obtain rfl : ls = ls' := Except.ok.inj (hbody.symm.trans ((bodyOf_withAnswers i s as n).symm.trans hbody'))
  have hparts := runLines_parts ls (s := s.load ls) ⟨as, n, s.xp, s.latched, rfl⟩
  exact hparts.concludeRun_prefix hfail hok

end Sys2Proof.Machine

/-! Reset and hazards (70_reset): RST from idle (R220, R221), the two acts that stop a running operation (R222, R238), another
master between operations (R238), and what an operation that ends `OK` costs (R243). -/

namespace Sys2Proof.Machine

/-! ### RST, and another master -/

/-- Settles O12: RST gives every register of the engine the value it holds after reset, and nothing outside the engine changes. -/
theorem resetFromIdle : Obligations.ResetFromIdle := by
  intro s rest hbusy hhost
  obtain ⟨hinst, hblc, hbsy, hres, hvalid, hopr, heb, htp, hch, hseq⟩ := resetHoldsTheSpecsValues
  refine ⟨applyReset (quiet rest s), ?_, hinst, hblc, hbsy, hres, hvalid, hopr, heb, htp, hch, hseq,
    rfl, rfl, rfl, rfl, rfl, rfl, fun _ => rfl⟩
  rw [step_of_idle hbusy, idleStep, hhost]

theorem step_of_busy {s : State} (h : s.busy = true) : step s = busyStep s := if_pos h

/-- Settles O15: of the acts that a busy engine meets, these two are the stops. -/
theorem stopsWhileAnOperationRuns : Obligations.StopsWhileAnOperationRuns := by
  intro s rest hbusy
  rw [step_of_busy hbusy, busyStep]
  refine ⟨fun hhost => ?_, fun v hhost => ?_⟩ <;> rw [hhost]

/-- The nibble latched, with the pins' bits written out (10_state R36). -/
theorem fallingNibbles_eq (old new : Byte) :
    fallingNibbles old new =
      if old &&& 0x04 ≠ 0 ∧ new &&& 0x04 = 0 then [(new.getLsbD 0, new.extractLsb' 4 4)] else [] := by
  have hen : ∀ v : Byte, enPin v = true ↔ v &&& 0x04 ≠ 0 := fun _ => bne_iff_ne
  have hrs : ∀ v : Byte, rsPin v = v.getLsbD 0 := by decide
  have hfalls : enFalls old new = true ↔ old &&& 0x04 ≠ 0 ∧ new &&& 0x04 = 0 := by
    rw [enFalls, Bool.and_eq_true, Bool.not_eq_true', ← Bool.not_eq_true, hen, hen, not_not]
  simp only [fallingNibbles, hfalls, hrs, dataPins]

/-- Settles O17: the byte drives the pins, and nothing else. -/
theorem otherMasterChangesThePinsOnly : Obligations.OtherMasterChangesThePinsOnly := by
  intro s v rest hbusy hhost
  rw [step_of_idle hbusy, idleStep, hhost]
  simp only [drivePins_eq_pins, fallingNibbles_eq]
  rfl

/-! ### The cost of what goes through -/

/-- What a run of events costs: its bus writes, its delays, its microseconds (70_reset R243). -/
def eventsCost (es : List Event) : Nat × Nat × Nat := (writeCount es, delayCount es, minDuration es)

theorem eventsCost_append (es fs : List Event) : eventsCost (es ++ fs) = eventsCost es + eventsCost fs := by
  simp [eventsCost, writeCount, delayCount, minDuration]

/-- What an action costs where it goes well. A bus configuration and a text read are neither writes nor delays. -/
def Act.cost : Act → Nat × Nat × Nat
  | .writeBacklight | .enHigh | .enLow => (1, 0, 0)
  | .delay us => (0, 1, us)
  | .hold => (0, 1, 1)
  | .settle => (0, 1, 50)
  | .storeConfig _ _ _ _ | .seedBacklight _ | .configureBus | .startPulse _ _ _ | .testNull _ | .setPointer _ | .readText
  | .nextChar => (0, 0, 0)

/-- What a body costs where all its actions go well. -/
def bodyCost (ls : List Line) : Nat × Nat × Nat := (ls.map (·.act.cost)).sum

theorem bodyCost_cons (l : Line) (ls : List Line) : bodyCost (l :: ls) = l.act.cost + bodyCost ls := List.sum_cons

theorem bodyCost_append (xs ys : List Line) : bodyCost (xs ++ ys) = bodyCost xs + bodyCost ys := by
  rw [bodyCost, List.map_append, List.sum_append]
  rfl

/-- A body costs at any step of a caller what it costs of its own (60_exceptions R204). -/
theorem bodyCost_callAt (n : Nat) (ls : List Line) : bodyCost (callAt n ls) = bodyCost ls := by
  simp [bodyCost, callAt, Function.comp_def]

/-- Where `e` goes through, it adds events of the cost `c` to the trace `tr`. -/
def ActEnd.CostsFrom (e : ActEnd) (tr : List Event) (c : Nat × Nat × Nat) : Prop :=
  ∀ u, e = .ok u → ∃ es, u.trace = tr ++ es ∧ eventsCost es = c

/-- A bus write that goes through is one write. -/
theorem busWrite_costsFrom (v : Byte) (s : State) : (busWrite v s).CostsFrom s.trace (1, 0, 0) := by
  intro u hu
  have htrace := busWrite_trace v s
  rw [hu] at htrace
  exact ⟨_, htrace, rfl⟩

/-- A bus configuration that goes through is no write. -/
theorem busConfigure_costsFrom (s : State) : (busConfigure s).CostsFrom s.trace (0, 0, 0) := by
  intro u hu
  cases ha : s.answerAt 0 with
  | ok =>
    rw [busConfigure_ok ha] at hu
    cases hu
    exact ⟨[.cfg s.cfg.bus .ok], rfl, rfl⟩
  | err c => rw [busConfigure_err ha] at hu; cases hu

/-- The phase that a pulse's write goes on to costs nothing. -/
theorem ActEnd.CostsFrom.setPhase {e : ActEnd} {tr : List Event} {c : Nat × Nat × Nat} (h : e.CostsFrom tr c) (p : Phase) :
    (e.thenDo (State.setPhase · p)).CostsFrom tr c := by
  intro u hu
  cases e with
  | ok s => cases hu; exact h s rfl
  | err r s => cases hu

/-- THE COST OF ONE ACTION that goes well (20_memory R50, R60). -/
theorem perform_costsFrom (a : Act) (s : State) : (perform a s).CostsFrom s.trace a.cost := by
  have silent : ∀ s' : State, s'.trace = s.trace → (ActEnd.ok s').CostsFrom s.trace (0, 0, 0) := by
    rintro s' hs' u ⟨⟩
    exact ⟨[], hs'.trans (List.append_nil _).symm, rfl⟩
  cases a with
  | storeConfig | seedBacklight | startPulse | setPointer | nextChar => exact silent _ rfl
  | writeBacklight => exact busWrite_costsFrom s.readBlc s
  | enHigh => exact (busWrite_costsFrom (s.eb ||| params.enBit) s).setPhase .hold
  | enLow => exact (busWrite_costsFrom s.eb s).setPhase .settle
  | delay us => rintro u ⟨⟩; exact ⟨[.d us], rfl, rfl⟩
  | hold => rintro u ⟨⟩; exact ⟨[.d 1], rfl, rfl⟩
  | settle => rintro u ⟨⟩; exact ⟨[.d 50], rfl, rfl⟩
  | readText => rintro u ⟨⟩; exact ⟨[.t s.tp _], rfl, rfl⟩
  | configureBus =>
    rw [perform]
    split
    · exact silent s rfl
    · exact busConfigure_costsFrom s
  | testNull p =>
    rw [perform]
    split
    · exact nofun
    · exact silent s rfl

/-- THE COST OF A RUN that goes through: that of its actions, wherever it starts. -/
theorem runLines_costsFrom (ls : List Line) (s : State) : (runLines ls s).CostsFrom s.trace (bodyCost ls) := by
  induction ls generalizing s with
  | nil => rintro u ⟨⟩; exact ⟨[], (List.append_nil _).symm, rfl⟩
  | cons l ls ih =>
    intro u hu
    cases hl : perform l.act (s.atLine l) with
    | ok s1 =>
      rw [runLines_cons_ok hl] at hu
      obtain ⟨es, hes, hcost⟩ := perform_costsFrom l.act (s.atLine l) s1 hl
      obtain ⟨fs, hfs, hcosts⟩ := ih s1 u hu
      refine ⟨es ++ fs, ?_, ?_⟩
      · rw [hfs, hes, atLine_trace, List.append_assoc]
      · rw [eventsCost_append, hcost, hcosts]
        exact (bodyCost_cons l ls).symm
    | err r s1 => rw [runLines_cons_err hl] at hu; cases hu

/-- A run that ends an operation `OK` went through. -/
theorem runLines_ok_of_kind {ls : List Line} {s : State} (h : (concludeRun (runLines ls s)).result.kind = .ok) :
    ∃ u, runLines ls s = .ok u := by
  rcases runLines_cases ls s with ⟨u, -, hu, -⟩ | ⟨u, -, -, c, hu, -⟩ | ⟨u, -, hu, -⟩
  · exact ⟨u, hu⟩
  · rw [hu] at h; cases h
  · rw [hu] at h; cases h

/-! ### The cost of the operations -/

/-- An operation that ends `OK` costs what its body does. -/
theorem costs_of_body {i : Instr} {s : State} {w d us : Nat}
    (h : ∀ ls, bodyOf i s = .ok ls → bodyCost ls = (w, d, us)) : costs i s w d us := by
  intro t ht hkind
  rcases exec_next_cases ht with ⟨-, -, rfl⟩ | ⟨-, ls, hls, rfl⟩
  · cases hkind
  · rw [operate] at hkind ⊢
    obtain ⟨u, hu⟩ := runLines_ok_of_kind hkind
    obtain ⟨es, hes, hcost⟩ := runLines_costsFrom ls (s.load ls) u hu
    rw [h ls hls, eventsCost, Prod.mk.injEq, Prod.mk.injEq] at hcost
    rw [hu]
    exact ⟨es, hes, hcost⟩

/-- Where there is but one body. -/
theorem costs_of_body_eq {i : Instr} {s : State} {ls : List Line} {w d us : Nat} (hls : bodyOf i s = .ok ls)
    (h : bodyCost ls = (w, d, us)) : costs i s w d us :=
  costs_of_body fun _ hls' => Except.ok.inj (hls.symm.trans hls') ▸ h

theorem bodyCost_delay (n us : Nat) : bodyCost [line n (.delay us)] = (0, 1, us) := rfl

theorem bodyCost_wrnib (val : Byte) (rs nsel : Bool) : bodyCost (wrnibBody val rs nsel) = (2, 2, 51) := rfl

theorem bodyCost_wrbyte (val : Byte) (rs : Bool) : bodyCost (wrbyteBody val rs) = (4, 4, 102) := by
  rw [wrbyteBody, bodyCost_append, bodyCost_callAt, bodyCost_callAt, bodyCost_wrnib, bodyCost_wrnib]
  rfl

theorem bodyCost_cmd (v : Byte) : bodyCost (cmdBody v) = (4, 4, 102) :=
  (bodyCost_callAt 1 _).trans (bodyCost_wrbyte v false)

theorem bodyCost_data (v : Byte) : bodyCost (dataBody v) = (4, 4, 102) :=
  (bodyCost_callAt 1 _).trans (bodyCost_wrbyte v true)

theorem bodyCost_clear : bodyCost clearBody = (4, 5, 2102) := rfl

/-- The bring-up costs four nibbles, five waits, four commands and a CLEAR (42_command R144). -/
theorem bodyCost_inithw : bodyCost inithwBody = (28, 34, 60714) := by
  simp only [inithwBody, bodyCost_append, bodyCost_callAt, bodyCost_delay, bodyCost_wrnib, bodyCost_cmd, bodyCost_clear,
    params, Prod.mk_add_mk, Nat.reduceAdd]

/-- INIT costs the bring-up and one write more, of the backlight byte (43_text_api R160). -/
theorem bodyCost_init (cols : ColCount) (rows : RowCount) (addr : DevAddr) (blon : Bool) :
    bodyCost (initBody cols rows addr blon) = (29, 34, 60714) := by
  have hstart : bodyCost [line 1 (.storeConfig cols rows addr blon), line 2 (.seedBacklight blon), line 3 .configureBus,
      line 4 .writeBacklight] = (1, 0, 0) := rfl
  rw [initBody, bodyCost_append, hstart, bodyCost_callAt, bodyCost_inithw]
  rfl

theorem bodyCost_setcur {cfg : DisplayConfig} {col row : Byte} {ls : List Line} (h : setcurBody cfg col row = .ok ls) :
    bodyCost ls = (4, 4, 102) := by
  obtain ⟨v, rfl⟩ := setcurBody_ok h
  rw [bodyCost_callAt, bodyCost_cmd]

/-- PRINT's loop costs a byte written for each character; the text reads cost nothing (43_text_api R166). -/
theorem bodyCost_printLoop (cs : List Byte) :
    bodyCost (printLoop cs) = (4 * cs.length, 4 * cs.length, 102 * cs.length) := by
  induction cs with
  | nil => rfl
  | cons c cs ih =>
    have hread : (line 3 .readText).act.cost = 0 := rfl
    have hnext : (line 3 .nextChar).act.cost = 0 := rfl
    rw [printLoop, List.cons_append, bodyCost_cons, hread, bodyCost_append, bodyCost_callAt, bodyCost_data, bodyCost_cons,
      hnext, ih, zero_add, zero_add]
    simp only [Prod.mk_add_mk, List.length_cons, Nat.mul_add, Nat.mul_one, Nat.add_comm]

/-- The null test and the pointer cost nothing. -/
theorem bodyCost_print {m : Memory} {acts : List HostAct} {p : TextAddr} {cs : List Byte} {ls : List Line} (hp : p ≠ 0)
    (hs : readsString m acts p cs) (h : printBody m acts p = .ok ls) :
    bodyCost ls = (4 * cs.length, 4 * cs.length, 102 * cs.length) := by
  have htest : (line 1 (.testNull p)).act.cost = 0 := rfl
  have hpointer : (line 2 (.setPointer p)).act.cost = 0 := rfl
  rw [printBody_string hp hs] at h
  cases h
  rw [bodyCost_cons, htest, bodyCost_cons, hpointer, zero_add, zero_add, bodyCost_printLoop]

/-- DISPTEXT costs what CLEAR, SETCUR and PRINT do (43_text_api R169). -/
theorem bodyCost_disptext {cfg : DisplayConfig} {m : Memory} {acts : List HostAct} {p : TextAddr} {cs : List Byte}
    {ls : List Line} (hp : p ≠ 0) (hs : readsString m acts p cs) (h : disptextBody cfg m acts p = .ok ls) :
    bodyCost ls = (8 + 4 * cs.length, 9 + 4 * cs.length, 2204 + 102 * cs.length) := by
  obtain ⟨home, pr, hhome, hpr, rfl⟩ := disptextBody_ok h
  rw [bodyCost_append, bodyCost_append, bodyCost_callAt, bodyCost_callAt, bodyCost_callAt, bodyCost_clear,
    bodyCost_setcur hhome, bodyCost_print hp hs hpr]
  rfl

/-- Settles O49, row by row: each operation's body costs what R243 says. -/
theorem operationsTakeTheirMinimumTime : Obligations.OperationsTakeTheirMinimumTime := fun _ =>
  ⟨fun _ => costs_of_body_eq rfl rfl,
   fun val rs => costs_of_body_eq rfl (bodyCost_wrnib val rs false),
   fun val rs => costs_of_body_eq rfl (bodyCost_wrbyte val rs),
   costs_of_body_eq rfl bodyCost_clear,
   costs_of_body_eq rfl bodyCost_inithw,
   fun cols rows addr blon => costs_of_body_eq rfl (bodyCost_init cols rows addr blon),
   fun _ _ => costs_of_body fun _ => bodyCost_setcur,
   fun _ _ hp hs => ⟨costs_of_body fun _ => bodyCost_print hp hs, costs_of_body fun _ => bodyCost_disptext hp hs⟩⟩

end Sys2Proof.Machine
